-- ==== Sys2Proof/Word.lean ====
section
/-! DEFINITION. The word types of the C3DS codec engine: bytes of local memory, 16-bit pixels, 32-bit registers
(00_scope.md R6, R8; 10_state.md R31, R46). -/

namespace Sys2Proof

/-- One byte of LM, one channel sample (R44, R260). -/
abbrev Byte := BitVec 8

/-- One 16-bit RGB565 (or, in a stream, RGB555) value (R46, R187). -/
abbrev Pixel := BitVec 16

/-- One register of the register block, one command word (R31, R100). -/
abbrev Word := BitVec 32

end Sys2Proof
end

