-- ==== Sys2Proof/Config.lean ====
section
/-! DEFINITION. What an implementation fixes (00_scope.md R6) and the free values (44_quantizer.md R276).

The platform sizes and bases are plain data (`Params`), held in State, so that a statement about every state is a
statement about every choice of them. What the spec leaves open without a finite datum is an opaque constant: it has
no body, so no proof can lean on a value of it. -/

namespace Sys2Proof

/-- IRQ_LINE (R6; 60_exceptions.md R348): how the IRQ output reaches a Host processor. -/
structure IrqLine where
  controller : Nat
  line : Nat
  priority : Nat
  deriving DecidableEq, Repr

/-- The `OPEN` platform parameters (R6, R76; 93_implementation_defined.md I9). -/
structure Params where
  /-- MEM_SIZE, bytes of local memory. -/
  memSize : Nat
  /-- REG_BASE, host address of the 256-byte register block. -/
  regBase : Nat
  /-- LM_BASE, host address of the LM window. -/
  lmBase : Nat
  /-- IRQ_LINE, where the platform takes the IRQ output (log 18). -/
  irqLine : IrqLine
  deriving DecidableEq, Repr

/-- What R6 and R76 require of the parameters: 16 <= MEM_SIZE <= 2^32, and the two windows do not overlap. -/
def Params.wf (p : Params) : Bool :=
  decide (16 ≤ p.memSize) && decide (p.memSize ≤ 2 ^ 32) &&
    (decide (p.regBase + 256 ≤ p.lmBase) || decide (p.lmBase + p.memSize ≤ p.regBase))

/-- The gamma probability table (R266): for each depth N and each bracket floor `low`, a monotone curve in the sample.
The laws (a) to (c) of R266 follow from `Machine.gammaFraction`, and every table that obeys them is some value of this
constant (log 6). -/
opaque Config.gammaCurve : Nat → Nat → (ℕ →o ℕ)

/-- BN9 (R272): a permutation of 0..80, at index 9 * y + x (log 7). -/
opaque Config.blueNoise9 : Equiv.Perm (Fin 81)

/-- BN15 (R272): a permutation of 0..224, at index 15 * y + x (log 7). -/
opaque Config.blueNoise15 : Equiv.Perm (Fin 225)

/-- What `draw_bit()` returns as the k-th draw (R276; log 5). -/
opaque Config.drawBit : Nat → Bool

/-- The free number behind `draw_int(a, b)` as the k-th draw (R276; log 5). -/
opaque Config.drawNat : Nat → Nat

/-- What `draw_u8()` returns as the k-th draw, also the byte drawn for an LM byte that takes any value
(R276; 93_implementation_defined.md I1, I4, I5; log 5). -/
opaque Config.drawByte : Nat → Byte

end Sys2Proof
end

