-- ==== Sys2Proof/Syntax.lean ====
section
/-! DEFINITION. The commands of the engine, one constructor per row of spec/opcode_table.json (30_encoding.md R104),
with the fields of the command word the row uses, and the strategies that the STRAT codes name (R106). -/

namespace Sys2Proof

/-- A decoded command word (R104). Operands are not part of the word: they are the latched ARG registers (R111). -/
inductive Instr where
  | nop
  | ident
  | ftHdr
  | ftEnt
  | decFrm
  | encS16
  | encC16
  | blkHdr
  | blkDec
  | blkStitch
  | blkEnc
  | pbGet
  | pbSet
  | pbCrop
  | pbShift
  | pbBlit (alpha : Bool)
  | pbXplant
  | quant (strat : BitVec 5) (nbits : BitVec 4) (gamma : Bool)
  | pack565 (cdmode : BitVec 5) (admode : BitVec 5)
  | qlookup (nbits : BitVec 4) (gamma : Bool)
  deriving DecidableEq, Repr

/-- The pattern sets of 44_quantizer.md R270 to R272. -/
inductive PatternSet where
  | checkers
  | alwaysCheckers
  | bayer2
  | bayer4
  | bluenoise9
  | bluenoise15
  deriving DecidableEq, Repr

/-- The named quantisation strategies (R106, 44_quantizer.md R277 to R285); `pattern set true` is the `-random`
variant of `set`. -/
inductive Strategy where
  | floor
  | nearest
  | debug1bit
  | randomFloor
  | random
  | randomBorked
  | pattern (set : PatternSet) (random : Bool)
  deriving DecidableEq, Repr

end Sys2Proof
end

