-- ==== Sys2Proof/WellFormed.lean ====
section
/-! DEFINITION. Well-formed commands: those whose fields hold legal values (30_encoding.md R101, R106 to R108). An
ill-formed command still decodes and runs: it ends with E_BAD_BITS or E_INVALID_STRATEGY (40_command.md R134 step 1). -/

namespace Sys2Proof

/-- NBITS is legal in 0..8 (R101, R108). -/
def bitsLegal (n : BitVec 4) : Bool := decide (n.toNat ≤ 8)

/-- The codes that R106 gives a name: all but 6, 7, 14 to 23, 30 and 31 (R107). -/
def strategyLegal (c : BitVec 5) : Bool :=
  decide (c.toNat ≤ 5) || decide (8 ≤ c.toNat ∧ c.toNat ≤ 13) || decide (24 ≤ c.toNat ∧ c.toNat ≤ 29)

/-- Every field the command uses holds a legal value. -/
def Instr.wellFormed : Instr → Bool
  | .nop => true
  | .ident => true
  | .ftHdr => true
  | .ftEnt => true
  | .decFrm => true
  | .encS16 => true
  | .encC16 => true
  | .blkHdr => true
  | .blkDec => true
  | .blkStitch => true
  | .blkEnc => true
  | .pbGet => true
  | .pbSet => true
  | .pbCrop => true
  | .pbShift => true
  | .pbBlit _ => true
  | .pbXplant => true
  | .quant strat nbits _ => bitsLegal nbits && strategyLegal strat
  | .pack565 cdmode admode => strategyLegal cdmode && strategyLegal admode
  | .qlookup nbits _ => bitsLegal nbits

end Sys2Proof
end

