-- ==== Sys2Proof/Decode.lean ====
section
/-! DEFINITION. The decoder of command words and the encoder (30_encoding.md R100 to R108). A command is one 32-bit
word written to CMD, never bytes fetched from memory (10_state.md R52), so the decoder is total on 32-bit words. -/

namespace Sys2Proof

/-- Why a word is no command; each ends with E_ILLEGAL_CMD (60_exceptions.md R341). -/
inductive DecodeError where
  /-- Bits [15:13], [23:22] or [31:29] are not all 0 (R102). -/
  | reservedBits
  /-- The OP value is not in the opcode map (R105). -/
  | undefinedOp
  /-- A field that the opcode does not use is not 0 (R103). -/
  | unusedField
  deriving DecidableEq, Repr

/-- The fields of the command word (R101), reserved ones included. -/
structure Fields where
  op : BitVec 8
  strat : BitVec 5
  reserved15 : BitVec 3
  nbits : BitVec 4
  gamma : BitVec 1
  alpha : BitVec 1
  reserved23 : BitVec 2
  strat2 : BitVec 5
  reserved31 : BitVec 3
  deriving DecidableEq, Repr

/-- The command word with these fields: [31:29], [28:24], [23:22], [21], [20], [19:16], [15:13], [12:8], [7:0] (R101). -/
def Fields.pack (f : Fields) : Word :=
  f.reserved31 ++ f.strat2 ++ f.reserved23 ++ f.alpha ++ f.gamma ++ f.nbits ++ f.reserved15 ++ f.strat ++ f.op

/-- The fields of a command word (R101). -/
def fieldsOf (w : Word) : Fields where
  op := w.extractLsb' 0 8
  strat := w.extractLsb' 8 5
  reserved15 := w.extractLsb' 13 3
  nbits := w.extractLsb' 16 4
  gamma := w.extractLsb' 20 1
  alpha := w.extractLsb' 21 1
  reserved23 := w.extractLsb' 22 2
  strat2 := w.extractLsb' 24 5
  reserved31 := w.extractLsb' 29 3

/-- A one-bit field as a flag. -/
def flag (b : BitVec 1) : Bool := b == 1#1

/-- `i` if the fields listed (the ones its opcode does not use) are 0 (R103). -/
def ifClear (clear : Bool) (i : Instr) : Except DecodeError Instr :=
  if clear then .ok i else .error .unusedField

/-- No field but OP is set. -/
def Fields.onlyOp (f : Fields) : Bool :=
  f.strat == 0#5 && f.nbits == 0#4 && f.gamma == 0#1 && f.alpha == 0#1 && f.strat2 == 0#5

/-- The opcode map (R104): each opcode with the fields it uses. -/
def decodeOp (f : Fields) : Except DecodeError Instr :=
  match f.op.toNat with
  | 0x00 => ifClear f.onlyOp .nop
  | 0x01 => ifClear f.onlyOp .ident
  | 0x02 => ifClear f.onlyOp .ftHdr
  | 0x03 => ifClear f.onlyOp .ftEnt
  | 0x04 => ifClear f.onlyOp .decFrm
  | 0x05 => ifClear f.onlyOp .encS16
  | 0x06 => ifClear f.onlyOp .encC16
  | 0x08 => ifClear f.onlyOp .blkHdr
  | 0x09 => ifClear f.onlyOp .blkDec
  | 0x0A => ifClear f.onlyOp .blkStitch
  | 0x0B => ifClear f.onlyOp .blkEnc
  | 0x10 => ifClear f.onlyOp .pbGet
  | 0x11 => ifClear f.onlyOp .pbSet
  | 0x12 => ifClear f.onlyOp .pbCrop
  | 0x13 => ifClear f.onlyOp .pbShift
  | 0x14 => ifClear (f.strat == 0#5 && f.nbits == 0#4 && f.gamma == 0#1 && f.strat2 == 0#5) (.pbBlit (flag f.alpha))
  | 0x15 => ifClear f.onlyOp .pbXplant
  | 0x20 => ifClear (f.alpha == 0#1 && f.strat2 == 0#5) (.quant f.strat f.nbits (flag f.gamma))
  | 0x21 => ifClear (f.nbits == 0#4 && f.gamma == 0#1 && f.alpha == 0#1) (.pack565 f.strat f.strat2)
  | 0x22 => ifClear (f.strat == 0#5 && f.alpha == 0#1 && f.strat2 == 0#5) (.qlookup f.nbits (flag f.gamma))
  | _ => .error .undefinedOp

/-- The decoder: reserved bits must be 0 (R102), then the opcode map. -/
def decode (w : Word) : Except DecodeError Instr :=
  let f := fieldsOf w
  if f.reserved15 == 0#3 && f.reserved23 == 0#2 && f.reserved31 == 0#3 then decodeOp f else .error .reservedBits

/-- The strategy a code names; none for the codes of R107 (R106). -/
def Strategy.ofCode (c : BitVec 5) : Option Strategy :=
  match c.toNat with
  | 0 => some .floor
  | 1 => some .nearest
  | 2 => some .debug1bit
  | 3 => some .randomFloor
  | 4 => some .random
  | 5 => some .randomBorked
  | 8 => some (.pattern .checkers false)
  | 9 => some (.pattern .alwaysCheckers false)
  | 10 => some (.pattern .bayer2 false)
  | 11 => some (.pattern .bayer4 false)
  | 12 => some (.pattern .bluenoise9 false)
  | 13 => some (.pattern .bluenoise15 false)
  | 24 => some (.pattern .checkers true)
  | 25 => some (.pattern .alwaysCheckers true)
  | 26 => some (.pattern .bayer2 true)
  | 27 => some (.pattern .bayer4 true)
  | 28 => some (.pattern .bluenoise9 true)
  | 29 => some (.pattern .bluenoise15 true)
  | _ => none

/-- What the decoder reads from a word whose low `nbits` bits are `w`'s; none where it refuses. -/
def decodeTableWord (nbits w : Nat) : Option Instr :=
  if w % 2 ^ nbits < 2 ^ 32 then (decode (BitVec.ofNat 32 (w % 2 ^ nbits))).toOption else none

/-- A command word with only OP set (R104). -/
def opWord (op : BitVec 8) : Fields := ⟨op, 0#5, 0#3, 0#4, 0#1, 0#1, 0#2, 0#5, 0#3⟩

/-- The fields of a command's word, from the field table (R101) and the opcode map (R104). -/
def Instr.fields : Instr → Fields
  | .nop => opWord 0x00#8
  | .ident => opWord 0x01#8
  | .ftHdr => opWord 0x02#8
  | .ftEnt => opWord 0x03#8
  | .decFrm => opWord 0x04#8
  | .encS16 => opWord 0x05#8
  | .encC16 => opWord 0x06#8
  | .blkHdr => opWord 0x08#8
  | .blkDec => opWord 0x09#8
  | .blkStitch => opWord 0x0A#8
  | .blkEnc => opWord 0x0B#8
  | .pbGet => opWord 0x10#8
  | .pbSet => opWord 0x11#8
  | .pbCrop => opWord 0x12#8
  | .pbShift => opWord 0x13#8
  | .pbBlit alpha => { opWord 0x14#8 with alpha := BitVec.ofBool alpha }
  | .pbXplant => opWord 0x15#8
  | .quant strat nbits gamma =>
    { opWord 0x20#8 with strat := strat, nbits := nbits, gamma := BitVec.ofBool gamma }
  | .pack565 cdmode admode => { opWord 0x21#8 with strat := cdmode, strat2 := admode }
  | .qlookup nbits gamma => { opWord 0x22#8 with nbits := nbits, gamma := BitVec.ofBool gamma }

/-- The command word of a command (R100, R113: the word a Host writes to CMD). -/
def encode (i : Instr) : Word := i.fields.pack

/-- One row of spec/opcode_table.json: a word belongs to the row when `w &&& mask = word` (R103). -/
structure OpcodeRow where
  word : Word
  mask : Word
  deriving DecidableEq, Repr

/-- The match and mask of each command's row of spec/opcode_table.json, copied from the table. -/
def Instr.row : Instr → OpcodeRow
  | .nop => ⟨0x00000000#32, 0xFFFFFFFF#32⟩
  | .ident => ⟨0x00000001#32, 0xFFFFFFFF#32⟩
  | .ftHdr => ⟨0x00000002#32, 0xFFFFFFFF#32⟩
  | .ftEnt => ⟨0x00000003#32, 0xFFFFFFFF#32⟩
  | .decFrm => ⟨0x00000004#32, 0xFFFFFFFF#32⟩
  | .encS16 => ⟨0x00000005#32, 0xFFFFFFFF#32⟩
  | .encC16 => ⟨0x00000006#32, 0xFFFFFFFF#32⟩
  | .blkHdr => ⟨0x00000008#32, 0xFFFFFFFF#32⟩
  | .blkDec => ⟨0x00000009#32, 0xFFFFFFFF#32⟩
  | .blkStitch => ⟨0x0000000A#32, 0xFFFFFFFF#32⟩
  | .blkEnc => ⟨0x0000000B#32, 0xFFFFFFFF#32⟩
  | .pbGet => ⟨0x00000010#32, 0xFFFFFFFF#32⟩
  | .pbSet => ⟨0x00000011#32, 0xFFFFFFFF#32⟩
  | .pbCrop => ⟨0x00000012#32, 0xFFFFFFFF#32⟩
  | .pbShift => ⟨0x00000013#32, 0xFFFFFFFF#32⟩
  | .pbBlit _ => ⟨0x00000014#32, 0xFFDFFFFF#32⟩
  | .pbXplant => ⟨0x00000015#32, 0xFFFFFFFF#32⟩
  | .quant _ _ _ => ⟨0x00000020#32, 0xFFE0E0FF#32⟩
  | .pack565 _ _ => ⟨0x00000021#32, 0xE0FFE0FF#32⟩
  | .qlookup _ _ => ⟨0x00000022#32, 0xFFE0FFFF#32⟩

end Sys2Proof
end

