-- ==== Sys2Proof/Machine/State.lean ====
section
/-! DEFINITION. The state of the C3DS codec engine and its Host port (10_state.md), as plain data, and the state after
power-on reset (70_reset_and_hazards.md R380). -/

namespace Sys2Proof.Machine

/-- The error codes of STATUS.ERRCODE (60_exceptions.md R341); codes 13 to 255 are never produced (I22). -/
inductive ErrCode where
  | none
  | illegalCmd
  | badBits
  | invalidStrategy
  | align
  | addrRange
  | unknownFormat
  | unsupportedByteOrder
  | truncatedHeader
  | frameIndex
  | dimOverflow
  | capacity
  | overlap
  deriving DecidableEq, Repr

/-- The STATUS fields (R35); its reserved bits read 0 and are not stored (log 17). -/
structure Status where
  busy : Bool
  done : Bool
  err : Bool
  trunc : Bool
  ovr : Bool
  errcode : ErrCode
  deriving DecidableEq, Repr

/-- STATUS = 0 (R380). -/
def Status.zero : Status := ⟨false, false, false, false, false, .none⟩

/-- Local memory (R44): the listed bytes, addresses strictly rising; an unlisted address reads as `fillByte`
(Machine/Ops.lean; log 4). -/
structure Memory where
  cells : List Host.Cell
  deriving DecidableEq, Repr

/-- Width of a Host access (20_memory.md R75). -/
inductive Width where
  | byte
  | half
  | word
  deriving DecidableEq, Repr

/-- What happens next from outside the Engine, and when the Engine moves (R350: one at a time; log 1). -/
inductive Input where
  /-- The schedule gives the Engine its turn (R131). -/
  | engine
  /-- The Host reads at a host address (R75, R76). -/
  | read (addr : Nat) (width : Width)
  /-- The Host writes the low bytes of a word at a host address (R75, R76). -/
  | write (addr : Nat) (width : Width) (value : Word)
  /-- The reset input is asserted (R380, R388). -/
  | powerOn
  deriving DecidableEq, Repr

/-- Why a step stops the machine. -/
inductive Fault where
  /-- Raised by a Host write to LM while STATUS.BUSY = 1: the spec's own model fault (20_memory.md R82, I2). Safe. -/
  | hostWriteWhileBusy
  /-- Raised by a Host access that lies in neither window of the block, or runs past the end of the LM window
  (20_memory.md R76; log 10). Safe. -/
  | hostUnmapped
  deriving DecidableEq, Repr

/-- Why a step is given no meaning. -/
inductive Refusal where
  /-- A command that has no meaning yet, rejected by name in `exec`. Safe. -/
  | notModelled (mnemonic : String)
  /-- Raised by a Host access to the register block that is not an aligned 32-bit word: the spec's own refusal
  (20_memory.md R75, I3). Safe. -/
  | hostRegisterAccess
  deriving DecidableEq, Repr

/-- The whole machine. -/
structure State where
  /-- MEM_SIZE, REG_BASE, LM_BASE, IRQ_LINE (00_scope.md R6): constant, no step writes it (log 3). -/
  params : Params
  /-- CTRL.IE (R34); CTRL.SRST always reads 0 and is not stored. -/
  ie : Bool
  /-- STATUS (R35). -/
  status : Status
  /-- CMD (R37). -/
  cmd : Word
  /-- ARG0..ARG7 (R39). -/
  arg : Vector Word 8
  /-- RES0..RES3 (R41). -/
  res : Vector Word 4
  /-- LCMD (R40). -/
  lcmd : Word
  /-- LARG[0..7] (R40). -/
  larg : Vector Word 8
  /-- LM (R44). -/
  lm : Memory
  /-- The model's own: how many draws have been taken, so that each is a fresh one (44_quantizer.md R276; log 5). -/
  draws : Nat
  /-- The model's own: what the Host, the reset input and the schedule do next (log 1). -/
  inputs : List Input
  /-- The model's own: what the last Host read returned, zero-extended (log 9). -/
  readData : Word
  deriving DecidableEq, Repr

/-- The machine right after power-on reset (R380): idle, nothing listed in LM, no input waiting. The parameter values
are a DESIGN CHOICE (log 3), as are the model's own fields (logs 1, 5, 9). -/
def State.reset : State where
  params := ⟨0x100000, 0x80000000, 0, ⟨0, 0, 0⟩⟩
  ie := false
  status := Status.zero
  cmd := 0#32
  arg := Vector.replicate 8 0#32
  res := Vector.replicate 4 0#32
  lcmd := 0#32
  larg := Vector.replicate 8 0#32
  lm := ⟨[]⟩
  draws := 0
  inputs := []
  readData := 0#32

end Sys2Proof.Machine
end

