-- ==== Sys2Proof/Machine/Flags.lean ====
section
/-! DEFINITION. Every STATUS and CTRL computation (10_state.md R34 to R38, 40_command.md R132, 60_exceptions.md R341,
R348): the only flags the engine has (R53). -/

namespace Sys2Proof.Machine

/-- The number of an error code (R341). -/
def ErrCode.code : ErrCode → BitVec 8
  | .none => 0
  | .illegalCmd => 1
  | .badBits => 2
  | .invalidStrategy => 3
  | .align => 4
  | .addrRange => 5
  | .unknownFormat => 6
  | .unsupportedByteOrder => 7
  | .truncatedHeader => 8
  | .frameIndex => 9
  | .dimOverflow => 10
  | .capacity => 11
  | .overlap => 12

/-- The STATUS register as the Host reads it (R35): ERRCODE in [15:8], OVR, TRUNC, ERR, DONE, BUSY in [4:0]. -/
def Status.word (s : Status) : Word :=
  0#16 ++ s.errcode.code ++ 0#3 ++ BitVec.ofBool s.ovr ++ BitVec.ofBool s.trunc ++ BitVec.ofBool s.err ++
    BitVec.ofBool s.done ++ BitVec.ofBool s.busy

/-- A Host write of `w` to STATUS clears the write-1-to-clear fields whose bit is 1 (R36). -/
def Status.clear (s : Status) (w : Word) : Status :=
  { s with
    done := s.done && !w.getLsbD 1
    err := s.err && !w.getLsbD 2
    trunc := s.trunc && !w.getLsbD 3
    ovr := s.ovr && !w.getLsbD 4 }

/-- STATUS when a command is accepted (R38): pending, and nothing reported of an earlier command but OVR. -/
def Status.accept (s : Status) : Status :=
  { s with busy := true, done := false, err := false, trunc := false, errcode := .none }

/-- STATUS when a CMD write is dropped (R38, R346). -/
def Status.overrun (s : Status) : Status := { s with ovr := true }

/-- STATUS at successful completion (R132). -/
def Status.completeOk (s : Status) (trunc : Bool) : Status :=
  { s with trunc := trunc, errcode := .none, done := true, busy := false }

/-- STATUS at completion with an error (R132, R340). -/
def Status.completeErr (s : Status) (code : ErrCode) : Status :=
  { s with errcode := code, err := true, done := true, busy := false }

/-- The CTRL register as the Host reads it: IE in bit 1, all other bits 0 (R34). -/
def State.ctrlWord (s : State) : Word := 0#30 ++ BitVec.ofBool s.ie ++ 0#1

/-- The interrupt output: a level, IE and DONE at every moment (R51, R348). -/
def State.irq (s : State) : Bool := s.ie && s.status.done

/-- What the platform sees of the interrupt output: a request at IRQ_LINE while IRQ is 1 (R348; 00_scope.md R6). -/
def State.irqRequest (s : State) : Option IrqLine := if s.irq then some s.params.irqLine else none

end Sys2Proof.Machine
end

