-- ==== Sys2Proof/Machine/Ops.lean ====
section
/-! DEFINITION. The operations over memory, regions and registers that every command shares: LM bytes and little-endian
values (00_scope.md R9, 20_memory.md R71), regions and their overlap (R77, R87), completion of a command, with an error
or without (40_command.md R132, 60_exceptions.md R340), and acceptance of one (10_state.md R38). -/

namespace Sys2Proof.Machine

/-! ### Local memory -/

/-- What an LM byte that no cell lists reads as. DESIGN CHOICE (log 4): the spec leaves every byte open after power-on
(70_reset_and_hazards.md R380). -/
def fillByte : Byte := 0#8

/-- The byte that `cells` holds for address `a`. -/
def readCells : List Host.Cell → Nat → Byte
  | [], _ => fillByte
  | (b, v) :: rest, a => if a = b then v else readCells rest a

/-- `cells` with the byte at `a` set to `v`, in canonical form. -/
def writeCells : List Host.Cell → Nat → Byte → List Host.Cell
  | [], a, v => if v = fillByte then [] else [(a, v)]
  | (b, u) :: rest, a, v =>
    if a < b then (if v = fillByte then (b, u) :: rest else (a, v) :: (b, u) :: rest)
    else if a = b then (if v = fillByte then rest else (a, v) :: rest)
    else (b, u) :: writeCells rest a v

/-- Addresses strictly rising and no cell equal to what an unlisted address reads as. -/
def canonicalCells : List Host.Cell → Bool
  | [] => true
  | [c] => decide (c.2 ≠ fillByte)
  | c :: d :: rest => decide (c.2 ≠ fillByte) && decide (c.1 < d.1) && canonicalCells (d :: rest)

/-- The canonical form of a memory: equal memories are equal data. -/
def Memory.wf (m : Memory) : Bool := canonicalCells m.cells

/-- Every listed byte is a byte of LM (R44: addresses 0 to MEM_SIZE - 1). -/
def Memory.within (m : Memory) (size : Nat) : Bool := m.cells.all fun c => decide (c.1 < size)

/-- `LM[a]` (R9). -/
def Memory.read (m : Memory) (a : Nat) : Byte := readCells m.cells a

/-- `LM[a] <- v` (R9). -/
def Memory.write (m : Memory) (a : Nat) (v : Byte) : Memory := ⟨writeCells m.cells a v⟩

/-- The writes of a command, in order (R132). -/
def Memory.writeAll (m : Memory) (cells : List Host.Cell) : Memory :=
  cells.foldl (fun m c => m.write c.1 c.2) m

/-- `MemRead(a, n)`: the bytes at a..a+n-1 assembled little-endian (R9, R71). -/
def Memory.readLe (m : Memory) (a : Nat) : Nat → Nat
  | 0 => 0
  | n + 1 => (m.read a).toNat + 256 * m.readLe (a + 1) n

/-- The n bytes of `v`, little-endian, of `v` taken modulo 2^(8n) (R9). -/
def leBytes : Nat → Nat → List Byte
  | 0, _ => []
  | n + 1, v => BitVec.ofNat 8 v :: leBytes n (v / 256)

/-- The cells that put `bytes` at a, a+1, ... -/
def cellsAt : Nat → List Byte → List Host.Cell
  | _, [] => []
  | a, b :: bs => (a, b) :: cellsAt (a + 1) bs

/-- `MemWrite(a, n, v)` as cells (R9). -/
def cellsLe (a n v : Nat) : List Host.Cell := cellsAt a (leBytes n v)

/-- The bytes LM[a .. a+n-1]. -/
def Memory.bytes (m : Memory) (a n : Nat) : List Byte := (List.range n).map fun i => m.read (a + i)

/-! ### Regions -/

/-- The bytes [start, start + size) of LM (R77). -/
structure Region where
  start : Nat
  size : Nat
  deriving DecidableEq, Repr

/-- How a command uses a region: r, w or u (R87, R138). -/
inductive RegionUse where
  | read
  | write
  | update
  deriving DecidableEq, Repr

/-- One entry of a command's region list (R138). -/
structure RegionEntry where
  use : RegionUse
  region : Region
  deriving DecidableEq, Repr

/-- The region holds address `a`. -/
def Region.has (r : Region) (a : Nat) : Bool := decide (r.start ≤ a) && decide (a < r.start + r.size)

/-- The region lies in LM; a region of length 0 needs no check (R77). -/
def Region.inLm (r : Region) (size : Nat) : Bool := decide (r.size = 0) || decide (r.start + r.size ≤ size)

/-- Two regions share a byte (R87). -/
def Region.overlaps (r q : Region) : Bool :=
  decide (1 ≤ r.size) && decide (1 ≤ q.size) && decide (r.start < q.start + q.size) && decide (q.start < r.start + r.size)

/-- The entry is w or u: a destination region (R138). -/
def RegionEntry.writes (e : RegionEntry) : Bool := decide (e.use ≠ .read)

/-- Two entries conflict: they overlap and at least one is w or u (R87). -/
def RegionEntry.conflicts (e f : RegionEntry) : Bool := (e.writes || f.writes) && e.region.overlaps f.region

/-- No two distinct entries of the list conflict (R87). -/
def noConflict : List RegionEntry → Bool
  | [] => true
  | e :: rest => rest.all (fun f => !e.conflicts f) && noConflict rest

/-! ### Registers -/

/-- `RES[i] <- v` (R9, R41). -/
def State.setRes (s : State) (i : Fin 4) (v : Word) : State := { s with res := s.res.set i v }

/-- The results of a command, in order (R132). -/
def State.setResults (s : State) (results : List (Fin 4 × Word)) : State :=
  results.foldl (fun s r => s.setRes r.1 r.2) s

/-! ### Completion and acceptance -/

/-- What a command that succeeds does: `ok(writes, results, trunc)` of R132, with the number of draws taken when it is
through (44_quantizer.md R276). -/
structure Effect where
  writes : List Host.Cell
  results : List (Fin 4 × Word)
  trunc : Bool
  draws : Nat
  deriving DecidableEq, Repr

/-- The outcome of a command (R131, R132): `ok(writes, results, trunc)` or `err(code)`. -/
abbrev CmdOutcome := Except ErrCode Effect

/-- Report an error: the one thing the engine does in place of a trap (R340, R351). It writes no LM byte and no RES
register. -/
def State.raiseError (s : State) (code : ErrCode) : State := { s with status := s.status.completeErr code }

/-- Successful completion (R132). -/
def State.succeed (s : State) (e : Effect) : State :=
  { s.setResults e.results with
    lm := s.lm.writeAll e.writes
    status := s.status.completeOk e.trunc
    draws := e.draws }

/-- Completion of the Engine step (R132). -/
def State.complete (s : State) : CmdOutcome → State
  | .ok e => s.succeed e
  | .error code => s.raiseError code

/-- The Host's acknowledgement, in place of a return from a trap (R352): the write-1-to-clear of STATUS (R36). -/
def State.acknowledge (s : State) (w : Word) : State := { s with status := s.status.clear w }

/-- Acceptance of a command word written to CMD (R38): the word and the arguments are latched and it is pending. -/
def State.accept (s : State) (w : Word) : State :=
  { s with cmd := w, lcmd := w, larg := s.arg, status := s.status.accept }

/-- An Engine step that ends with this outcome. -/
def finish (s : State) (o : CmdOutcome) : Host.Outcome State Fault Refusal := .next (s.complete o)

end Sys2Proof.Machine
end

