-- ==== Sys2Proof/Machine/PixelBuffer.lean ====
section
/-! DEFINITION. PixelBuffers as values: the bounds-checked primitives Get and Set (00_scope.md R10), the blit, crop,
shift and transplant geometry (41_pixelbuffer.md R150 to R157), on the pixel sequence of R46. -/

namespace Sys2Proof.Machine

/-- A PixelBuffer (R150): `data` is row-major, pixel (x, y) at index y * width + x. -/
structure PixelBuffer where
  width : Nat
  height : Nat
  data : List Pixel
  deriving DecidableEq, Repr

/-- `len(data) = width * height` (R46, R150). -/
def PixelBuffer.wf (P : PixelBuffer) : Bool := decide (P.data.length = P.width * P.height)

/-- (x, y) lies inside the buffer (R150). -/
def PixelBuffer.inside (P : PixelBuffer) (x y : Int) : Bool :=
  decide (0 ≤ x) && decide (x < P.width) && decide (0 ≤ y) && decide (y < P.height)

/-- `Get(P, x, y)`: the mask colour 0 when out of range (R10). -/
def PixelBuffer.get (P : PixelBuffer) (x y : Int) : Pixel :=
  if P.inside x y then P.data.getD (y.toNat * P.width + x.toNat) 0#16 else 0#16

/-- `Set(P, x, y, v)`: nothing when out of range (R10). -/
def PixelBuffer.set (P : PixelBuffer) (x y : Int) (v : Pixel) : PixelBuffer :=
  if P.inside x y then { P with data := P.data.set (y.toNat * P.width + x.toNat) v } else P

/-- The w x h buffer whose pixel (x, y) is `f x y`. -/
def PixelBuffer.ofFn (w h : Nat) (f : Nat → Nat → Pixel) : PixelBuffer where
  width := w
  height := h
  data := (List.range (w * h)).map fun i => f (i % w) (i / w)

/-- A buffer of zeros. -/
def PixelBuffer.zero (w h : Nat) : PixelBuffer := ⟨w, h, List.replicate (w * h) 0#16⟩

/-- `Blit(D, S, dx, dy, alpha)` (R151), pixel by pixel of D: the pixel of S drawn there, if there is one and it is not a
mask pixel of an alpha-aware blit. The loop of R151 gives the same buffer, since distinct source pixels reach distinct
targets (log 21). -/
def PixelBuffer.blit (D S : PixelBuffer) (dx dy : Int) (alpha : Bool) : PixelBuffer :=
  .ofFn D.width D.height fun x y =>
    let v := S.get (x - dx) (y - dy)
    if S.inside (x - dx) (y - dy) && !(alpha && v == 0#16) then v else D.get x y

/-- The window (x0, y0, nw, nh) of S, 0 outside S (R154). -/
def PixelBuffer.crop (S : PixelBuffer) (x0 y0 : Int) (nw nh : Nat) : PixelBuffer :=
  .ofFn nw nh fun x y => S.get (x + x0) (y + y0)

/-- The contents of S moved by (dx, dy) in a buffer of the same size (R155). -/
def PixelBuffer.shift (S : PixelBuffer) (dx dy : Int) : PixelBuffer :=
  .ofFn S.width S.height fun x y => S.get (x - dx) (y - dy)

/-- D with the colours of S where both are non-zero (R157). -/
def PixelBuffer.transplant (D S : PixelBuffer) (dx dy : Int) : PixelBuffer :=
  .ofFn D.width D.height fun x y =>
    let d := D.get x y
    let v := S.get (x - dx) (y - dy)
    if d ≠ 0#16 ∧ v ≠ 0#16 then v else d

/-- Row y of the buffer. -/
def PixelBuffer.row (P : PixelBuffer) (y : Nat) : List Pixel := (P.data.drop (y * P.width)).take P.width

/-- The rows from top to bottom. -/
def PixelBuffer.rows (P : PixelBuffer) : List (List Pixel) := (List.range P.height).map P.row

/-- Pixels as little-endian bytes (R46). -/
def pixelBytes (ps : List Pixel) : List Byte := ps.flatMap fun p => leBytes 2 p.toNat

end Sys2Proof.Machine
end

