-- ==== Sys2Proof/Machine/Operands.lean ====
section
/-! DEFINITION. Operand forms: the latched ARG registers as u32, s32, u16 and u8 (30_encoding.md R109, R111), pixel-buffer
descriptors (10_state.md R45, 40_command.md R135, R136), planes (R47), the region list of every command (R138), and the
word and operand checks of R134. -/

namespace Sys2Proof.Machine

/-! ### Argument registers -/

/-- `ARG[i]` of a command rule: the latched register, as a u32 (R40, R109). -/
def State.argNat (s : State) (i : Fin 8) : Nat := s.larg[i].toNat

/-- `sext_32(ARG[i])`: coordinates and offsets (R109, 00_scope.md R8). -/
def State.argInt (s : State) (i : Fin 8) : Int := s.larg[i].toInt

/-- `ARG[i][15:0]`, the upper half ignored (R109). -/
def State.arg16 (s : State) (i : Fin 8) : Pixel := s.larg[i].extractLsb' 0 16

/-- `ARG[i][7:0]`, the rest ignored (R109). -/
def State.arg8 (s : State) (i : Fin 8) : Nat := (s.larg[i].extractLsb' 0 8).toNat

/-- A number stored in a result register, modulo 2^32 (R8). -/
def toWord (n : Nat) : Word := BitVec.ofNat 32 n

/-! ### Pixel-buffer descriptors -/

/-- A pixel-buffer descriptor (R45). -/
structure Pbd where
  base : Nat
  width : Nat
  height : Nat
  cap : Nat
  deriving DecidableEq, Repr

/-- The descriptor at LM address `d` (R135). -/
def readPbd (m : Memory) (d : Nat) : Pbd where
  base := m.readLe d 4
  width := m.readLe (d + 4) 4
  height := m.readLe (d + 8) 4
  cap := m.readLe (d + 12) 4

/-- The descriptor that operand i names. -/
def State.pbdArg (s : State) (i : Fin 8) : Pbd := readPbd s.lm (s.argNat i)

/-- The storage region [BASE, BASE + CAP) (R45). -/
def Pbd.storage (p : Pbd) : Region := ⟨p.base, p.cap⟩

/-- The PixelBuffer an input descriptor denotes (R135). -/
def loadBuffer (m : Memory) (p : Pbd) : PixelBuffer where
  width := p.width
  height := p.height
  data := (List.range (p.width * p.height)).map fun i => BitVec.ofNat 16 (m.readLe (p.base + 2 * i) 2)

/-- The PixelBuffer of the input descriptor that operand i names. -/
def State.bufferArg (s : State) (i : Fin 8) : PixelBuffer := loadBuffer s.lm (s.pbdArg i)

/-- What writing PixelBuffer Q to the output descriptor at `d` stores (R136): WIDTH, HEIGHT and the pixels, never BASE or
CAP. -/
def bufferCells (d : Nat) (p : Pbd) (Q : PixelBuffer) : List Host.Cell :=
  cellsLe (d + 4) 4 Q.width ++ cellsLe (d + 8) 4 Q.height ++ cellsAt p.base (pixelBytes Q.data)

/-! ### The region list of each command -/

/-- The 16 bytes of the descriptor at `d` (R138). -/
def pbdRegion (d : Nat) : Region := ⟨d, 16⟩

/-- The storage of the descriptor at `d`; a descriptor that does not lie wholly in LM names none (log 14). -/
def State.storageAt (s : State) (d : Nat) : Region :=
  if d + 16 ≤ s.params.memSize then (readPbd s.lm d).storage else ⟨0, 0⟩

/-- The storage regions of n consecutive descriptors at `d` (R135). -/
def State.arrayStorage (s : State) (d n : Nat) : List RegionEntry :=
  (List.range n).map fun i => ⟨.read, s.storageAt (d + 16 * i)⟩

/-- The input stream operand (ARG0 = src, ARG1 = len). -/
def State.streamEntry (s : State) : RegionEntry := ⟨.read, ⟨s.argNat 0, s.argNat 1⟩⟩

/-- The output byte region operand (ARG2 = dst, ARG3 = cap). -/
def State.outputEntry (s : State) : RegionEntry := ⟨.write, ⟨s.argNat 2, s.argNat 3⟩⟩

/-- The descriptor operand i, used as `du`, and its storage, used as `su`. -/
def State.pbdEntries (s : State) (i : Fin 8) (du su : RegionUse) : List RegionEntry :=
  [⟨du, pbdRegion (s.argNat i)⟩, ⟨su, s.storageAt (s.argNat i)⟩]

/-- The plane operand i of w x h samples (R47). -/
def State.planeRegion (s : State) (i : Fin 8) (w h : Nat) : Region := ⟨s.argNat i, w * h⟩

/-- The region entries of each command (R138). -/
def regionEntries (s : State) : Instr → List RegionEntry
  | .nop => []
  | .ident => [s.streamEntry]
  | .ftHdr => [s.streamEntry]
  | .ftEnt => [s.streamEntry]
  | .decFrm => s.streamEntry :: s.pbdEntries 3 .update .write
  | .encS16 => ⟨.read, ⟨s.argNat 0, 16 * s.argNat 1⟩⟩ :: s.outputEntry :: s.arrayStorage (s.argNat 0) (s.argNat 1)
  | .encC16 => ⟨.read, ⟨s.argNat 0, 16 * s.argNat 1⟩⟩ :: s.outputEntry :: s.arrayStorage (s.argNat 0) (s.argNat 1)
  | .blkHdr => [s.streamEntry]
  | .blkDec => s.streamEntry :: s.pbdEntries 3 .update .write
  | .blkStitch =>
    ⟨.read, ⟨s.argNat 0, 16 * (s.argNat 1 * s.argNat 2)⟩⟩ ::
      (s.pbdEntries 5 .update .write ++ s.arrayStorage (s.argNat 0) (s.argNat 1 * s.argNat 2))
  | .blkEnc => s.outputEntry :: s.pbdEntries 0 .read .read
  | .pbGet => s.pbdEntries 0 .read .read
  | .pbSet => s.pbdEntries 0 .read .write
  | .pbCrop => s.pbdEntries 0 .read .read ++ s.pbdEntries 5 .update .write
  | .pbShift => s.pbdEntries 0 .read .read ++ s.pbdEntries 5 .update .write
  | .pbBlit _ => s.pbdEntries 0 .read .read ++ s.pbdEntries 5 .read .update
  | .pbXplant => s.pbdEntries 0 .read .read ++ s.pbdEntries 5 .read .update
  | .quant _ _ _ => [⟨.update, s.planeRegion 0 (s.argNat 1) (s.argNat 2)⟩]
  | .pack565 _ _ =>
    ⟨.read, s.planeRegion 0 (s.argNat 4) (s.argNat 5)⟩ :: ⟨.read, s.planeRegion 1 (s.argNat 4) (s.argNat 5)⟩ ::
      ⟨.read, s.planeRegion 2 (s.argNat 4) (s.argNat 5)⟩ :: ⟨.read, s.planeRegion 3 (s.argNat 4) (s.argNat 5)⟩ ::
      s.pbdEntries 7 .update .write
  | .qlookup _ _ => []

/-- The destination regions of a command: its w and u entries, the only LM bytes it may change (R138). -/
def destinations (s : State) (i : Instr) : List Region :=
  ((regionEntries s i).filter RegionEntry.writes).map RegionEntry.region

/-! ### Checks -/

/-- `if not c: raise E` of a rule. -/
def require (c : Bool) (e : ErrCode) : Except ErrCode Unit := if c then .ok () else .error e

/-- NBITS <= 8 (R134 step 1, R108). -/
def checkBits (n : BitVec 4) : Except ErrCode Unit := require (decide (n.toNat ≤ 8)) .badBits

/-- The strategy a STRAT or STRAT2 field names (R134 step 1, R107). -/
def checkStrategy (c : BitVec 5) : Except ErrCode Strategy :=
  match Strategy.ofCode c with
  | some st => .ok st
  | none => .error .invalidStrategy

/-- The word checks of a decoded command (R134 step 1; the others are the decoder's). -/
def wordCheck : Instr → Except ErrCode Unit
  | .quant strat nbits _ => do
    checkBits nbits
    let _ ← checkStrategy strat
  | .pack565 cdmode admode => do
    let _ ← checkStrategy cdmode
    let _ ← checkStrategy admode
  | .qlookup nbits _ => checkBits nbits
  | .nop => .ok ()
  | .ident => .ok ()
  | .ftHdr => .ok ()
  | .ftEnt => .ok ()
  | .decFrm => .ok ()
  | .encS16 => .ok ()
  | .encC16 => .ok ()
  | .blkHdr => .ok ()
  | .blkDec => .ok ()
  | .blkStitch => .ok ()
  | .blkEnc => .ok ()
  | .pbGet => .ok ()
  | .pbSet => .ok ()
  | .pbCrop => .ok ()
  | .pbShift => .ok ()
  | .pbBlit _ => .ok ()
  | .pbXplant => .ok ()

/-- A stream, plane or output byte region lies in LM (R134 step 2, R77). -/
def checkRegion (s : State) (r : Region) : Except ErrCode Unit := require (r.inLm s.params.memSize) .addrRange

/-- The checks of one descriptor, its own 16 bytes known to lie in LM: BASE even, storage in LM, and for an input
descriptor 2 * WIDTH * HEIGHT <= CAP (R134 step 2). -/
def checkPbdBody (s : State) (d : Nat) (input : Bool) : Except ErrCode Pbd := do
  let p := readPbd s.lm d
  require (decide (p.base % 2 = 0)) .align
  checkRegion s p.storage
  require (!input || decide (2 * p.width * p.height ≤ p.cap)) .capacity
  return p

/-- The checks of a descriptor operand: 4-alignment, the descriptor in LM, then its body (R134 step 2). -/
def checkPbd (s : State) (d : Nat) (input : Bool) : Except ErrCode Pbd := do
  require (decide (d % 4 = 0)) .align
  checkRegion s (pbdRegion d)
  checkPbdBody s d input

/-- The checks of each of n descriptors at d, in index order (R134 step 2). -/
def checkPbdBodies (s : State) : Nat → Nat → Except ErrCode (List Pbd)
  | _, 0 => .ok []
  | d, n + 1 => do
    let p ← checkPbdBody s d true
    let ps ← checkPbdBodies s (d + 16) n
    return p :: ps

/-- The checks of a descriptor-array operand of n input descriptors (R134 step 2). -/
def checkPbdArray (s : State) (d n : Nat) : Except ErrCode (List Pbd) := do
  require (decide (d % 4 = 0)) .align
  checkRegion s ⟨d, 16 * n⟩
  checkPbdBodies s d n

/-- Region overlap, the last output check (R134 step 4, R87). -/
def checkOverlap (s : State) (i : Instr) : Except ErrCode Unit := require (noConflict (regionEntries s i)) .overlap

/-- An effect that draws nothing and reads no stream past its end. -/
def State.effect (s : State) (writes : List Host.Cell) (results : List (Fin 4 × Word)) : Effect :=
  ⟨writes, results, false, s.draws⟩

/-- The output size check (R134 step 4, R136): a dimension past 2^32 - 1 cannot pass it, also beside a zero one
(log 13), and the pixels fit CAP. -/
abbrev Pbd.Takes (p : Pbd) (w h : Nat) : Prop := w < 2 ^ 32 ∧ h < 2 ^ 32 ∧ 2 * w * h ≤ p.cap

/-- The output checks of R134 step 4 and the write of R136: PixelBuffer Q to the output descriptor `p` at `d`. -/
def emitBuffer (s : State) (i : Instr) (d : Nat) (p : Pbd) (Q : PixelBuffer) (results : List (Fin 4 × Word)) :
    CmdOutcome := do
  require (decide (p.Takes Q.width Q.height)) .capacity
  checkOverlap s i
  return s.effect (bufferCells d p Q) results

/-- The output checks of R134 step 4 for an output byte region [dst, dst + cap), and the bytes written at its start. -/
def emitBytes (s : State) (i : Instr) (bytes : List Byte) (results : List (Fin 4 × Word)) : CmdOutcome := do
  require (decide (bytes.length ≤ s.argNat 3)) .capacity
  checkOverlap s i
  return s.effect (cellsAt (s.argNat 2) bytes) results

/-! ### Input streams -/

/-- The input stream operand: the bytes LM[src .. src + len - 1] (R9). -/
def State.stream (s : State) : List Byte := s.lm.bytes (s.argNat 0) (s.argNat 1)

/-- `InByte(s, i)`: 0 past the end (R9, R181). -/
def inByte (st : List Byte) (i : Nat) : Nat := (st.getD i 0#8).toNat

/-- `In16(s, i, order)` (R9). -/
def in16 (st : List Byte) (big : Bool) (i : Nat) : Nat :=
  if big then inByte st i * 2 ^ 8 + inByte st (i + 1) else inByte st i + inByte st (i + 1) * 2 ^ 8

/-- `In32(s, i, order)` (R9). -/
def in32 (st : List Byte) (big : Bool) (i : Nat) : Nat :=
  if big then in16 st true i * 2 ^ 16 + in16 st true (i + 2) else in16 st false i + in16 st false (i + 2) * 2 ^ 16

end Sys2Proof.Machine
end

