-- ==== Sys2Proof/Machine/FrameTable.lean ====
section
/-! DEFINITION. The frame-table parser and writer with the RLE codec: IDENT, FT_HDR, FT_ENT, DEC_FRM, ENC_S16, ENC_C16
(42_frame_table.md R180 to R200). The codec itself is a set of functions on byte lists and PixelBuffers. -/

namespace Sys2Proof.Machine

/-! ### Formats -/

/-- `channel_layout` (30_encoding.md R110); no magic selects `rgb5551` (I24). -/
inductive Layout where
  | rgb555
  | rgb565
  | rgb5551
  deriving DecidableEq, Repr

/-- FileFormatDescriptor (R182). -/
structure Descriptor where
  compressed : Bool
  layout : Layout
  big : Bool
  deriving DecidableEq, Repr

/-- The LAYOUT code (30_encoding.md R110). -/
def Layout.code : Layout → BitVec 2
  | .rgb555 => 0
  | .rgb565 => 1
  | .rgb5551 => 2

/-- The descriptor word: VALID in [31], BIG in [3], LAYOUT in [2:1], COMPRESSED in [0] (30_encoding.md R110). -/
def Descriptor.word (d : Descriptor) : Word :=
  1#1 ++ 0#27 ++ BitVec.ofBool d.big ++ d.layout.code ++ BitVec.ofBool d.compressed

/-- The six magics (R182). -/
def magicDescriptor (magic : Nat) : Option Descriptor :=
  if magic = 0x00000000 then some ⟨false, .rgb555, false⟩
  else if magic = 0x00000001 then some ⟨false, .rgb565, false⟩
  else if magic = 0x00000002 then some ⟨true, .rgb555, false⟩
  else if magic = 0x00000003 then some ⟨true, .rgb565, false⟩
  else if magic = 0x01000000 then some ⟨false, .rgb565, true⟩
  else if magic = 0x03000000 then some ⟨true, .rgb565, true⟩
  else none

/-- `Identify(s)`: none below 4 bytes or on another magic, which is always read little-endian (R180, R182). -/
def identify (st : List Byte) : Option Descriptor :=
  if st.length < 4 then none else magicDescriptor (in32 st false 0)

/-- The descriptor word of `Identify(s)`, 0 when none (R110, R192). -/
def identifyWord (st : List Byte) : Word :=
  match identify st with
  | some d => d.word
  | none => 0#32

/-- `Conv555` (R187): R and G move up one bit, the green MSB is copied to green bit 5, bit 15 is dropped. -/
def conv555 (v : Pixel) : Pixel := ((v &&& 0x7FE0#16) <<< 1) ||| ((v &&& 0x0200#16) >>> 4) ||| (v &&& 0x001F#16)

/-- `Conv(desc, v)` (R187). -/
def conv (d : Descriptor) (v : Pixel) : Pixel :=
  match d.layout with
  | .rgb555 => conv555 v
  | .rgb565 => v
  | .rgb5551 => v

/-! ### Header and frame table -/

/-- The header checks of FT_HDR in their order; the descriptor and the frame count (R193). -/
def header (st : List Byte) : Except ErrCode (Descriptor × Nat) := do
  require (decide (4 ≤ st.length)) .truncatedHeader
  match identify st with
  | none => .error .unknownFormat
  | some d =>
    require (decide (6 ≤ st.length)) .truncatedHeader
    return (d, in16 st d.big 4)

/-- A frame-table entry with its position (R184, R186). -/
structure FrameEntry where
  position : Nat
  offset : Nat
  width : Nat
  height : Nat
  deriving DecidableEq, Repr

/-- The entry at position p (R184). -/
def entryAt (st : List Byte) (d : Descriptor) (p : Nat) : FrameEntry :=
  ⟨p, in32 st d.big p, in16 st d.big (p + 4), in16 st d.big (p + 6)⟩

/-- p_k: entries are contiguous in a raw stream (R184); in a compressed one an entry is followed by height - 1 row
offsets (R185). -/
def entryPosition (st : List Byte) (d : Descriptor) : Nat → Nat
  | 0 => 6
  | k + 1 =>
    let p := entryPosition st d k
    if d.compressed then p + 8 + 4 * ((entryAt st d p).height - 1) else p + 8

/-- `Entry(s, desc, k)` after the header (R186). -/
def frameEntry (st : List Byte) (d : Descriptor) (count k : Nat) : Except ErrCode FrameEntry := do
  require (decide (k < count)) .frameIndex
  require (decide (entryPosition st d k + 8 ≤ st.length)) .truncatedHeader
  return entryAt st d (entryPosition st d k)

/-! ### Frame decoding -/

/-- n consecutive samples from position `pos`, converted to RGB565 (R187, R189, R190). -/
def samples (st : List Byte) (d : Descriptor) (pos n : Nat) : List Pixel :=
  (List.range n).map fun i => conv d (BitVec.ofNat 16 (in16 st d.big (pos + 2 * i)))

/-- `DecodeRaw`, with its trunc flag (R189). -/
def decodeRaw (st : List Byte) (d : Descriptor) (off w h : Nat) : PixelBuffer × Bool :=
  (⟨w, h, samples st d off (w * h)⟩, decide (0 < w * h ∧ st.length < off + 2 * (w * h)))

/-- The runs of one row from `pos` to its terminator: the pixels they name, the position after the terminator, and
whether a read went past the end (R188, R190). `fuel` bounds the number of runs: a run header is non-zero only inside
the stream, so `st.length + 1` is never used up (log 15). -/
def decodeRuns (st : List Byte) (d : Descriptor) : Nat → Nat → List Pixel × Nat × Bool
  | 0, pos => ([], pos, false)
  | fuel + 1, pos =>
    let elm := in16 st d.big pos
    let past := decide (st.length < pos + 2)
    let n := elm / 2
    if elm = 0 then ([], pos + 2, past)
    else if elm % 2 = 1 then
      let rest := decodeRuns st d fuel (pos + 2 + 2 * n)
      (samples st d (pos + 2) n ++ rest.1, rest.2.1,
        past || decide (0 < n ∧ st.length < pos + 2 + 2 * n) || rest.2.2)
    else
      let rest := decodeRuns st d fuel (pos + 2)
      (List.replicate n 0#16 ++ rest.1, rest.2.1, past || rest.2.2)

/-- The row of width w that these pixels give: what goes past the row's end is dropped, what is missing stays 0
(R190). -/
def fitRow (w : Nat) (ps : List Pixel) : List Pixel := ps.take w ++ List.replicate (w - ps.length) 0#16

/-- h rows, one after another from `pos` (R190). -/
def decodeRows (st : List Byte) (d : Descriptor) (w : Nat) : Nat → Nat → List Pixel × Bool
  | 0, _ => ([], false)
  | h + 1, pos =>
    let r := decodeRuns st d (st.length + 1) pos
    let rest := decodeRows st d w h r.2.1
    (fitRow w r.1 ++ rest.1, r.2.2 || rest.2)

/-- `DecodeRLE`, with its trunc flag (R190). -/
def decodeRle (st : List Byte) (d : Descriptor) (off w h : Nat) : PixelBuffer × Bool :=
  (⟨w, h, (decodeRows st d w h off).1⟩, (decodeRows st d w h off).2)

/-- The frame an entry names, raw or RLE as the descriptor says (R191). -/
def decodeEntry (st : List Byte) (d : Descriptor) (e : FrameEntry) : PixelBuffer × Bool :=
  if d.compressed then decodeRle st d e.offset e.width e.height else decodeRaw st d e.offset e.width e.height

/-- The checks of FT_ENT in their order; the descriptor and entry of frame k (R194). -/
def parseEntry (st : List Byte) (k : Nat) : Except ErrCode (Descriptor × FrameEntry) := do
  let dc ← header st
  let e ← frameEntry st dc.1 dc.2 k
  return (dc.1, e)

/-- `DecodeFrame(s, k)` with the checks of FT_ENT, and its trunc flag (R191, R195). -/
def decodeFrame (st : List Byte) (k : Nat) : Except ErrCode (PixelBuffer × Bool) := do
  let de ← parseEntry st k
  return decodeEntry st de.1 de.2

/-! ### Writers -/

/-- The frame table of S16Bytes, from data offset `off` (R196). -/
def s16Table : Nat → List PixelBuffer → List Byte
  | _, [] => []
  | off, F :: rest =>
    leBytes 4 off ++ leBytes 2 F.width ++ leBytes 2 F.height ++ s16Table (off + 2 * F.width * F.height) rest

/-- `S16Bytes` (R196). -/
def s16Bytes (frames : List PixelBuffer) : List Byte :=
  leBytes 4 1 ++ leBytes 2 frames.length ++ s16Table (6 + 8 * frames.length) frames ++
    frames.flatMap fun F => pixelBytes F.data

/-- The longest run the encoder emits (R188, R198). -/
def maxRun : Nat := 16383

/-- A pixel is opaque when its value is not 0 (R198). -/
def opaquePixel (p : Pixel) : Bool := p != 0#16

/-- Put a pixel in front of maximal runs: into the first run if it is of the same class. -/
def consRun (p : Pixel) : List (List Pixel) → List (List Pixel)
  | (q :: run) :: rest => if opaquePixel p = opaquePixel q then (p :: q :: run) :: rest else [p] :: (q :: run) :: rest
  | rest => [p] :: rest

/-- A row as its maximal runs of one class, all transparent or all opaque (R198). -/
def maximalRuns (row : List Pixel) : List (List Pixel) := row.foldr consRun []

/-- A run cut greedily into chunks of at most `maxRun` pixels, first chunks full (R198); `fuel` is the run's length. -/
def chunks : Nat → List Pixel → List (List Pixel)
  | 0, _ => []
  | fuel + 1, run => if run = [] then [] else run.take maxRun :: chunks fuel (run.drop maxRun)

/-- The chunks of a row, in order: one run header each (R198). -/
def rowChunks (row : List Pixel) : List (List Pixel) := (maximalRuns row).flatMap fun run => chunks run.length run

/-- A chunk holds opaque pixels; all pixels of a chunk are of one class (R198). -/
def opaqueChunk (c : List Pixel) : Bool := opaquePixel (c.headD 0#16)

/-- The run header of a chunk: its length and its class in bit 0 (R188, R198). -/
def runHeader (c : List Pixel) : Nat := 2 * c.length + (opaqueChunk c).toNat

/-- A chunk's header, and its literals if it is opaque (R198). -/
def chunkBytes (c : List Pixel) : List Byte :=
  leBytes 2 (runHeader c) ++ if opaqueChunk c then pixelBytes c else []

/-- `RowRLE` of one row (R198). -/
def rowRle (row : List Pixel) : List Byte := (rowChunks row).flatMap chunkBytes ++ leBytes 2 0

/-- Where each item of the list starts, the first at `pos`. -/
def startsFrom : Nat → List (List Byte) → List Nat
  | _, [] => []
  | pos, b :: rest => pos :: startsFrom (pos + b.length) rest

/-- The compressed rows of a frame (R199). -/
def rleRows (F : PixelBuffer) : List (List Byte) := F.rows.map rowRle

/-- The compressed data of a frame: its rows and the end-of-image marker (R199). -/
def rleData (F : PixelBuffer) : List Byte := (rleRows F).flatten ++ leBytes 2 0

/-- The frame table of C16Bytes, from data position `pos`: start, size, and one row offset per row after the first
(R199). -/
def c16Table : Nat → List PixelBuffer → List Byte
  | _, [] => []
  | pos, F :: rest =>
    leBytes 4 pos ++ leBytes 2 F.width ++ leBytes 2 F.height ++
      ((startsFrom pos (rleRows F)).drop 1).flatMap (fun r => leBytes 4 r) ++ c16Table (pos + (rleData F).length) rest

/-- TS, the size of the header and frame table of C16Bytes (R199). -/
def c16TableSize (frames : List PixelBuffer) : Nat := 6 + (frames.map fun F => 8 + 4 * (F.height - 1)).sum

/-- `C16Bytes` (R199). -/
def c16Bytes (frames : List PixelBuffer) : List Byte :=
  leBytes 4 3 ++ leBytes 2 frames.length ++ c16Table (c16TableSize frames) frames ++ frames.flatMap rleData

/-! ### Commands -/

/-- IDENT's outcome (R192). -/
def identOutcome (s : State) : CmdOutcome := do
  checkRegion s s.streamEntry.region
  return s.effect [] [(0, identifyWord s.stream)]

/-- FT_HDR's outcome (R193). -/
def ftHdrOutcome (s : State) : CmdOutcome := do
  checkRegion s s.streamEntry.region
  let dc ← header s.stream
  return s.effect [] [(0, dc.1.word), (1, toWord dc.2)]

/-- FT_ENT's outcome (R194). -/
def ftEntOutcome (s : State) : CmdOutcome := do
  checkRegion s s.streamEntry.region
  let de ← parseEntry s.stream (s.argNat 2)
  return s.effect []
    [(0, toWord de.2.offset), (1, toWord de.2.width), (2, toWord de.2.height), (3, toWord de.2.position)]

/-- DEC_FRM's outcome (R195). -/
def decFrmOutcome (s : State) : CmdOutcome := do
  checkRegion s s.streamEntry.region
  let p ← checkPbd s (s.argNat 3) false
  let de ← parseEntry s.stream (s.argNat 2)
  let P := decodeEntry s.stream de.1 de.2
  let e ← emitBuffer s .decFrm (s.argNat 3) p P.1
    [(0, de.1.word), (1, toWord de.2.width), (2, toWord de.2.height)]
  return { e with trunc := P.2 }

/-- The frames of an encoder's input, with the operand checks of ENC_S16 and ENC_C16 and the size check
(R134, R197). -/
def encoderFrames (s : State) : Except ErrCode (List PixelBuffer) := do
  let ps ← checkPbdArray s (s.argNat 0) (s.argNat 1)
  checkRegion s s.outputEntry.region
  require (decide (s.argNat 1 ≤ 65535) && ps.all fun p => decide (p.width ≤ 65535) && decide (p.height ≤ 65535))
    .dimOverflow
  return ps.map (loadBuffer s.lm)

/-- ENC_S16's outcome (R197). -/
def encS16Outcome (s : State) : CmdOutcome := do
  let frames ← encoderFrames s
  emitBytes s .encS16 (s16Bytes frames) [(0, toWord (s16Bytes frames).length)]

/-- ENC_C16's outcome (R200). -/
def encC16Outcome (s : State) : CmdOutcome := do
  let frames ← encoderFrames s
  emitBytes s .encC16 (c16Bytes frames) [(0, toWord (c16Bytes frames).length)]

/-- IDENT, OP 0x01 (R192). -/
def execIdent (s : State) : Host.Outcome State Fault Refusal := finish s (identOutcome s)

/-- FT_HDR, OP 0x02 (R193). -/
def execFtHdr (s : State) : Host.Outcome State Fault Refusal := finish s (ftHdrOutcome s)

/-- FT_ENT, OP 0x03 (R194). -/
def execFtEnt (s : State) : Host.Outcome State Fault Refusal := finish s (ftEntOutcome s)

/-- DEC_FRM, OP 0x04 (R195). -/
def execDecFrm (s : State) : Host.Outcome State Fault Refusal := finish s (decFrmOutcome s)

/-- ENC_S16, OP 0x05 (R197). -/
def execEncS16 (s : State) : Host.Outcome State Fault Refusal := finish s (encS16Outcome s)

/-- ENC_C16, OP 0x06 (R200). -/
def execEncC16 (s : State) : Host.Outcome State Fault Refusal := finish s (encC16Outcome s)

end Sys2Proof.Machine
end

