-- ==== Sys2Proof/Machine/Blk.lean ====
section
/-! DEFINITION. The BLK tiled container: BLK_HDR, BLK_DEC, BLK_STITCH, BLK_ENC (43_blk.md R230 to R239). -/

namespace Sys2Proof.Machine

/-- Tiles are 128 x 128 (R236). -/
def tileSide : Nat := 128

/-- The BLK header (R230). -/
structure BlkHeader where
  desc : Descriptor
  blocksWide : Nat
  blocksHigh : Nat
  count : Nat
  deriving DecidableEq, Repr

/-- The content checks of BLK_HDR in their order, and the 10-byte header (R230, R231, R234). -/
def blkHeader (st : List Byte) : Except ErrCode BlkHeader := do
  require (decide (4 ≤ st.length)) .truncatedHeader
  match identify st with
  | none => .error .unknownFormat
  | some d =>
    require (!d.big) .unsupportedByteOrder
    require (!d.compressed) .unknownFormat
    require (decide (10 ≤ st.length)) .truncatedHeader
    return ⟨d, in16 st false 4, in16 st false 6, in16 st false 8⟩

/-- width_k (R232). -/
def tileWidth (st : List Byte) (k : Nat) : Nat := in16 st false (10 + 8 * k + 4)

/-- height_k (R232). -/
def tileHeight (st : List Byte) (k : Nat) : Nat := in16 st false (10 + 8 * k + 6)

/-- q_k, where tile k's pixels start: in table order, never by the stored offsets (R233). -/
def tilePosition (st : List Byte) (count : Nat) : Nat → Nat
  | 0 => 10 + 8 * count
  | k + 1 => tilePosition st count k + 2 * (tileWidth st k * tileHeight st k)

/-- Tile k of a BLK stream with the checks of BLK_DEC, and its trunc flag (R235). -/
def decodeTile (st : List Byte) (k : Nat) : Except ErrCode (PixelBuffer × Bool) := do
  let b ← blkHeader st
  require (decide (k < b.count)) .frameIndex
  require (decide (10 + 8 * (k + 1) ≤ st.length)) .truncatedHeader
  return decodeRaw st b.desc (tilePosition st b.count k) (tileWidth st k) (tileHeight st k)

/-- Draw tiles k, k + 1, ... into Q: column-major, k = x * bh + y, tile k at the origin of its cell, not alpha-aware
(R236). -/
def stitchTiles (bh : Nat) : Nat → List PixelBuffer → PixelBuffer → PixelBuffer
  | _, [], Q => Q
  | k, T :: rest, Q =>
    stitchTiles bh (k + 1) rest (Q.blit T (tileSide * (k / bh) : Nat) (tileSide * (k % bh) : Nat) false)

/-- `Stitch(bw, bh, T_0 .. )` (R236). -/
def stitch (bw bh : Nat) (tiles : List PixelBuffer) : PixelBuffer :=
  stitchTiles bh 0 tiles (PixelBuffer.zero (tileSide * bw) (tileSide * bh))

/-- `ceil(n / 128)` (R238). -/
def blocks (n : Nat) : Nat := (n + (tileSide - 1)) / tileSide

/-- The tile of image I at column x, row y: I blitted, not alpha-aware, into a 128 x 128 buffer of 0 (R238). -/
def cutTile (I : PixelBuffer) (x y : Nat) : PixelBuffer :=
  (PixelBuffer.zero tileSide tileSide).blit I (-(tileSide * x : Nat)) (-(tileSide * y : Nat)) false

/-- The tiles of an image in column-major order (R238). -/
def cutTiles (I : PixelBuffer) : List PixelBuffer :=
  (List.range (blocks I.width)).flatMap fun x => (List.range (blocks I.height)).map fun y => cutTile I x y

/-- `BLKBytes(I)`: the 10-byte header, then the S16 stream of the tiles less its own 6-byte header, stored offsets
unchanged (R238). -/
def blkBytes (I : PixelBuffer) : List Byte :=
  leBytes 4 1 ++ leBytes 2 (blocks I.width) ++ leBytes 2 (blocks I.height) ++
    leBytes 2 (blocks I.width * blocks I.height) ++ (s16Bytes (cutTiles I)).drop 6

/-! ### Commands -/

/-- BLK_HDR's outcome (R234). -/
def blkHdrOutcome (s : State) : CmdOutcome := do
  checkRegion s s.streamEntry.region
  let b ← blkHeader s.stream
  return s.effect []
    [(0, b.desc.word), (1, toWord b.blocksWide), (2, toWord b.blocksHigh), (3, toWord b.count)]

/-- BLK_DEC's outcome (R235). -/
def blkDecOutcome (s : State) : CmdOutcome := do
  checkRegion s s.streamEntry.region
  let p ← checkPbd s (s.argNat 3) false
  let T ← decodeTile s.stream (s.argNat 2)
  let e ← emitBuffer s .blkDec (s.argNat 3) p T.1 [(0, toWord T.1.width), (1, toWord T.1.height)]
  return { e with trunc := T.2 }

/-- BLK_STITCH's outcome (R237). -/
def blkStitchOutcome (s : State) : CmdOutcome := do
  let ps ← checkPbdArray s (s.argNat 0) (s.argNat 1 * s.argNat 2)
  let q ← checkPbd s (s.argNat 5) false
  emitBuffer s .blkStitch (s.argNat 5) q
    (stitch (s.argNat 1) (s.argNat 2) (ps.map (loadBuffer s.lm)))
    [(0, toWord (tileSide * s.argNat 1)), (1, toWord (tileSide * s.argNat 2))]

/-- BLK_ENC's outcome (R239). -/
def blkEncOutcome (s : State) : CmdOutcome := do
  let p ← checkPbd s (s.argNat 0) true
  checkRegion s s.outputEntry.region
  require (decide (blocks p.width ≤ 65535) && decide (blocks p.height ≤ 65535) &&
    decide (blocks p.width * blocks p.height ≤ 65535)) .dimOverflow
  emitBytes s .blkEnc (blkBytes (loadBuffer s.lm p))
    [(0, toWord (blkBytes (loadBuffer s.lm p)).length), (1, toWord (blocks p.width)), (2, toWord (blocks p.height)),
      (3, toWord (blocks p.width * blocks p.height))]

/-- BLK_HDR, OP 0x08 (R234). -/
def execBlkHdr (s : State) : Host.Outcome State Fault Refusal := finish s (blkHdrOutcome s)

/-- BLK_DEC, OP 0x09 (R235). -/
def execBlkDec (s : State) : Host.Outcome State Fault Refusal := finish s (blkDecOutcome s)

/-- BLK_STITCH, OP 0x0A (R237). -/
def execBlkStitch (s : State) : Host.Outcome State Fault Refusal := finish s (blkStitchOutcome s)

/-- BLK_ENC, OP 0x0B (R239). -/
def execBlkEnc (s : State) : Host.Outcome State Fault Refusal := finish s (blkEncOutcome s)

end Sys2Proof.Machine
end

