-- ==== Sys2Proof/Machine/Quantizer.lean ====
section
/-! DEFINITION. The 8-bit to N-bit quantizer and ordered-dither pattern multiplexer: the bit-depth tables, the pattern
sets, every strategy, QUANT and QLOOKUP (44_quantizer.md R260 to R288). Samples are natural numbers 0..255. -/

namespace Sys2Proof.Machine

/-! ### Tables -/

/-- The top N bits of v (R261). -/
def topBits (N v : Nat) : Nat := (v &&& (0xFF <<< (8 - N))) &&& 0xFF

/-- `T_N(v)` (R261): the top N bits with their copies shifted by N, 2N, 3N, ...; a shift of 8 or more adds nothing. -/
def trunc (N v : Nat) : Nat := (List.range 8).foldl (fun r j => r ||| (topBits N v >>> (N * j))) 0

/-- Rep_N, ascending: one member per N-bit value (R262). -/
def representable (N : Nat) : List Nat := (List.range (2 ^ N)).map fun k => trunc N (k <<< (8 - N))

/-- `low_N(v)`: the greatest representable value at or below v (R263). -/
def lowOf (N v : Nat) : Nat := ((representable N).filter fun r => decide (r ≤ v)).foldl max 0

/-- `high_N(v)`: the least representable value at or above v; 0 when N = 0 (R263). -/
def highOf (N v : Nat) : Nat :=
  if N = 0 then 0 else ((representable N).filter fun r => decide (v ≤ r)).foldl min 255

/-- `F_lin(N, v)` (R265). -/
def linearFraction (N v : Nat) : Nat :=
  if lowOf N v < highOf N v then 65536 * (v - lowOf N v) / (highOf N v - lowOf N v) else 0

/-- `GAMMA_FRAC[N][v]`, the open parameter under its three laws: in range, 0 where low = high, non-decreasing inside a
bracket (R266; log 6). -/
def gammaFraction (N v : Nat) : Nat :=
  if lowOf N v < highOf N v then min 65535 (Config.gammaCurve N (lowOf N v) v) else 0

/-- The fraction F in the selected table: gamma or linear (R264, R267). -/
def fraction (gamma : Bool) (N v : Nat) : Nat := if gamma then gammaFraction N v else linearFraction N v

/-! ### Patterns -/

/-- A pattern (`DitherBitPattern`, R268), pre-scored with its number of ones (R269); its value is
255 * ones / (width * height). -/
structure Pattern where
  width : Nat
  height : Nat
  ones : Nat
  bit : Nat → Nat → Bool

/-- `P[y mod ph][x mod pw]` (R275). -/
def Pattern.sample (p : Pattern) (x y : Nat) : Bool := p.bit (x % p.width) (y % p.height)

/-- A 2 x 2 pattern given by its bit at (x, y). -/
def pattern2 (ones : Nat) (bit : Nat → Nat → Bool) : Pattern := ⟨2, 2, ones, bit⟩

/-- The checkerboard C[y][x] = (x + y) mod 2 (R270). -/
def checkerboard : Pattern := pattern2 2 fun x y => (x + y) % 2 == 1

/-- `P_t` of a k x k threshold matrix M: 1 where M[y][x] < t (R272). -/
def thresholdPattern (k : Nat) (M : Nat → Nat → Nat) (t : Nat) : Pattern := ⟨k, k, t, fun x y => decide (M x y < t)⟩

/-- The k^2 + 1 patterns of a threshold matrix (R272). -/
def thresholdSet (k : Nat) (M : Nat → Nat → Nat) : List Pattern := (List.range (k * k + 1)).map (thresholdPattern k M)

/-- The `bayer2` matrix, row by row (R272). -/
def bayer2Matrix (x y : Nat) : Nat := [0, 2, 3, 1].getD (2 * y + x) 0

/-- The `bayer4` matrix, row by row (R272). -/
def bayer4Matrix (x y : Nat) : Nat := [0, 8, 2, 10, 12, 4, 14, 6, 3, 11, 1, 9, 15, 7, 13, 5].getD (4 * y + x) 0

/-- BN9 (R272; log 7). -/
def blueNoise9Matrix (x y : Nat) : Nat := (Config.blueNoise9 (Fin.ofNat 81 (9 * y + x))).val

/-- BN15 (R272; log 7). -/
def blueNoise15Matrix (x y : Nat) : Nat := (Config.blueNoise15 (Fin.ofNat 225 (15 * y + x))).val

/-- The patterns of a set, by increasing value (R269 to R272). -/
def patterns : PatternSet → List Pattern
  | .checkers => [pattern2 0 (fun _ _ => false), checkerboard, pattern2 4 (fun _ _ => true)]
  | .alwaysCheckers => [checkerboard]
  | .bayer2 => thresholdSet 2 bayer2Matrix
  | .bayer4 => thresholdSet 4 bayer4Matrix
  | .bluenoise9 => thresholdSet 9 blueNoise9Matrix
  | .bluenoise15 => thresholdSet 15 blueNoise15Matrix

/-- The number of positions of a pattern. -/
def Pattern.area (p : Pattern) : Nat := p.width * p.height

/-- |F / 65536 - value(P) / 255|, times 65536 * area: all patterns of a set have one area (R269, R273). -/
def Pattern.distance (p : Pattern) (F : Nat) : Nat := ((F * p.area : Nat) - (65536 * p.ones : Nat) : Int).natAbs

/-- The index of the nearest pattern among `best` at index `at` and those that follow from index i; the earlier one on a
tie (R273). -/
def nearestFrom (F : Nat) : Nat → Nat → Nat → List Pattern → Nat
  | _, found, _, [] => found
  | best, found, i, p :: rest =>
    if p.distance F < best then nearestFrom F (p.distance F) i (i + 1) rest else nearestFrom F best found (i + 1) rest

/-- `Select(set, F)` (R273). -/
def select (ps : List Pattern) (F : Nat) : Nat :=
  match ps with
  | [] => 0
  | p :: rest => nearestFrom F (p.distance F) 0 1 rest

/-- value(P) / 255 <= F / 65536 (R274). -/
def Pattern.atMost (p : Pattern) (F : Nat) : Bool := decide (65536 * p.ones ≤ F * p.area)

/-- value(P) / 255 = F / 65536 (R274). -/
def Pattern.exactly (p : Pattern) (F : Nat) : Bool := decide (65536 * p.ones = F * p.area)

/-- The greatest index whose pattern is at most F, from index i on; `found` when there is none (R274; log 12). -/
def lastAtMost (F : Nat) : Nat → Nat → List Pattern → Nat
  | found, _, [] => found
  | found, i, p :: rest => if p.atMost F then lastAtMost F i (i + 1) rest else lastAtMost F found (i + 1) rest

/-- The pattern at index i of a set. -/
def patternAt (ps : List Pattern) (i : Nat) : Pattern := ps.getD i checkerboard

/-- `SelectRandom(set, F)` with n draws taken before: the index, and the draws taken after (R274). -/
def selectRandom (ps : List Pattern) (F n : Nat) : Nat × Nat :=
  let i := lastAtMost F 0 0 ps
  if i + 1 = ps.length ∨ (patternAt ps i).exactly F then (i, n)
  else (if Config.drawBit n then i + 1 else i, n + 1)

/-! ### Draws and strategies -/

/-- `draw_int(a, b)` as the n-th draw (R276). -/
def drawInt (n a b : Nat) : Nat := a + Config.drawNat n % (b - a + 1)

/-- The noise range of `random-floor`: 256 >> N (R281). -/
def noiseStep (N : Nat) : Nat := 256 >>> N

/-- high when `up`, else low (R279, R282, R284). -/
def pick (N v : Nat) (up : Bool) : Nat := if up then highOf N v else lowOf N v

/-- One sample v at column x, row y, with n draws taken before: the output, and the draws taken after (R277 to R285). -/
def quantise (st : Strategy) (gamma : Bool) (N v x y n : Nat) : Nat × Nat :=
  match st with
  | .floor => (trunc N v, n)
  | .nearest => (pick N v (decide (32768 ≤ fraction gamma N v)), n)
  | .debug1bit => (if 128 ≤ v then 255 else 0, n)
  | .randomFloor => (trunc N (min 255 (v + drawInt n 0 (noiseStep N - 1))), n + 1)
  | .random => (pick N v (decide (0 < fraction gamma N v) && Config.drawBit n), n + 1)
  | .randomBorked => ((Config.drawByte n).toNat, n + 1)
  | .pattern set false =>
    (pick N v ((patternAt (patterns set) (select (patterns set) (fraction gamma N v))).sample x y), n)
  | .pattern set true =>
    let c := selectRandom (patterns set) (fraction gamma N v) n
    (pick N v ((patternAt (patterns set) c.1).sample x y), c.2)

/-- The samples from index i on, row-major in a plane of width w: their outputs, and the draws taken after (R286). -/
def ditherFrom (st : Strategy) (gamma : Bool) (N w : Nat) : Nat → Nat → List Byte → List Nat × Nat
  | _, n, [] => ([], n)
  | i, n, v :: rest =>
    let q := quantise st gamma N v.toNat (i % w) (i / w) n
    let r := ditherFrom st gamma N w (i + 1) q.2 rest
    (q.1 :: r.1, r.2)

/-- `DitherChannel(w, h, plane, N, strat, table)` of the plane's samples, with n draws taken before (R286). -/
def ditherChannel (st : Strategy) (gamma : Bool) (N w : Nat) (plane : List Byte) (n : Nat) : List Nat × Nat :=
  ditherFrom st gamma N w 0 n plane

/-- A plane of w x h samples at operand i (R47). -/
def State.planeArg (s : State) (i : Fin 8) (w h : Nat) : List Byte := s.lm.bytes (s.argNat i) (w * h)

/-! ### Commands -/

/-- QUANT's outcome (R287). -/
def quantOutcome (strat : BitVec 5) (nbits : BitVec 4) (gamma : Bool) (s : State) : CmdOutcome := do
  checkBits nbits
  let st ← checkStrategy strat
  checkRegion s (s.planeRegion 0 (s.argNat 1) (s.argNat 2))
  let q := ditherChannel st gamma nbits.toNat (s.argNat 1) (s.planeArg 0 (s.argNat 1) (s.argNat 2)) s.draws
  return ⟨cellsAt (s.argNat 0) (q.1.map (BitVec.ofNat 8)), [], false, q.2⟩

/-- QLOOKUP's outcome (R288). -/
def qlookupOutcome (nbits : BitVec 4) (gamma : Bool) (s : State) : CmdOutcome := do
  checkBits nbits
  let v := s.arg8 0
  return s.effect []
    [(0, toWord (trunc nbits.toNat v)), (1, toWord (lowOf nbits.toNat v)), (2, toWord (highOf nbits.toNat v)),
      (3, toWord (fraction gamma nbits.toNat v))]

/-- QUANT, OP 0x20 (R287). -/
def execQuant (strat : BitVec 5) (nbits : BitVec 4) (gamma : Bool) (s : State) : Host.Outcome State Fault Refusal :=
  finish s (quantOutcome strat nbits gamma s)

/-- QLOOKUP, OP 0x22 (R288). -/
def execQlookup (nbits : BitVec 4) (gamma : Bool) (s : State) : Host.Outcome State Fault Refusal :=
  finish s (qlookupOutcome nbits gamma s)

end Sys2Proof.Machine
end

