-- ==== Sys2Proof/Machine/Packer.lean ====
section
/-! DEFINITION. The RGB888-to-RGB565 colour packer with 1-bit alpha: PACK565 (45_color_packer.md R320 to R324). -/

namespace Sys2Proof.Machine

/-- The RGB565 pack of three dithered samples (R323). -/
def packColour (r g b : Nat) : Nat := ((r >>> 3) <<< 11) ||| ((g >>> 2) <<< 5) ||| (b >>> 3)

/-- One pixel from its four dithered samples (R322, R323): 0 when transparent, `falseBlack` when opaque and the pack
is 0. -/
def packPixel (falseBlack : Pixel) (r g b a : Nat) : Pixel :=
  if 128 ≤ a then (if packColour r g b ≠ 0 then BitVec.ofNat 16 (packColour r g b) else falseBlack) else 0#16

/-- The pixels of four dithered planes, position by position (R323). -/
def packPixels (falseBlack : Pixel) : List Nat → List Nat → List Nat → List Nat → List Pixel
  | r :: rs, g :: gs, b :: bs, a :: as => packPixel falseBlack r g b a :: packPixels falseBlack rs gs bs as
  | _, _, _, _ => []

/-- The four dither passes in order, on copies of the planes, then the assembly: the pixels, and the draws taken after
(R320 to R323). R, G and B read the gamma table, A the linear one (44_quantizer.md R267). -/
def packPlanes (cd ad : Strategy) (w : Nat) (falseBlack : Pixel) (R G B A : List Byte) (n : Nat) : List Pixel × Nat :=
  let r := ditherChannel cd true 5 w R n
  let g := ditherChannel cd true 6 w G r.2
  let b := ditherChannel cd true 5 w B g.2
  let a := ditherChannel ad false 1 w A b.2
  (packPixels falseBlack r.1 g.1 b.1 a.1, a.2)

/-- PACK565's outcome (R324). -/
def pack565Outcome (cdmode admode : BitVec 5) (s : State) : CmdOutcome := do
  let cd ← checkStrategy cdmode
  let ad ← checkStrategy admode
  let w := s.argNat 4
  let h := s.argNat 5
  checkRegion s (s.planeRegion 0 w h)
  checkRegion s (s.planeRegion 1 w h)
  checkRegion s (s.planeRegion 2 w h)
  checkRegion s (s.planeRegion 3 w h)
  let p ← checkPbd s (s.argNat 7) false
  let q := packPlanes cd ad w (s.arg16 6) (s.planeArg 0 w h) (s.planeArg 1 w h) (s.planeArg 2 w h) (s.planeArg 3 w h)
    s.draws
  let e ← emitBuffer s (.pack565 cdmode admode) (s.argNat 7) p ⟨w, h, q.1⟩ []
  return { e with draws := q.2 }

/-- PACK565, OP 0x21 (R324). -/
def execPack565 (cdmode admode : BitVec 5) (s : State) : Host.Outcome State Fault Refusal :=
  finish s (pack565Outcome cdmode admode s)

end Sys2Proof.Machine
end

