-- ==== Sys2Proof/Machine/Raster.lean ====
section
/-! DEFINITION. The PixelBuffer raster pipeline: PB_GET, PB_SET, PB_CROP, PB_SHIFT, PB_BLIT, PB_XPLANT
(41_pixelbuffer.md R152 to R157). -/

namespace Sys2Proof.Machine

/-- PB_GET's outcome (R152). -/
def pbGetOutcome (s : State) : CmdOutcome := do
  let p ← checkPbd s (s.argNat 0) true
  return s.effect [] [(0, ((loadBuffer s.lm p).get (s.argInt 1) (s.argInt 2)).setWidth 32)]

/-- The LM address of pixel (x, y) of a buffer (R46, R153). -/
def pixelAddress (p : Pbd) (x y : Int) : Nat := p.base + 2 * (y.toNat * p.width + x.toNat)

/-- What PB_SET stores: nothing when (x, y) is out of range (R153). -/
def pbSetCells (p : Pbd) (x y : Int) (v : Pixel) : List Host.Cell :=
  if 0 ≤ x ∧ x < p.width ∧ 0 ≤ y ∧ y < p.height then cellsLe (pixelAddress p x y) 2 v.toNat else []

/-- PB_SET's outcome (R153). -/
def pbSetOutcome (s : State) : CmdOutcome := do
  let p ← checkPbd s (s.argNat 0) true
  checkOverlap s .pbSet
  return s.effect (pbSetCells p (s.argInt 1) (s.argInt 2) (s.arg16 3)) []

/-- PB_CROP's outcome (R154). -/
def pbCropOutcome (s : State) : CmdOutcome := do
  let p ← checkPbd s (s.argNat 0) true
  let q ← checkPbd s (s.argNat 5) false
  emitBuffer s .pbCrop (s.argNat 5) q
    ((loadBuffer s.lm p).crop (s.argInt 1) (s.argInt 2) (s.argNat 3) (s.argNat 4)) []

/-- PB_SHIFT's outcome (R155). -/
def pbShiftOutcome (s : State) : CmdOutcome := do
  let p ← checkPbd s (s.argNat 0) true
  let q ← checkPbd s (s.argNat 5) false
  emitBuffer s .pbShift (s.argNat 5) q ((loadBuffer s.lm p).shift (s.argInt 1) (s.argInt 2)) []

/-- The in-place write of a destination's storage (R156, R157): the pixels only, the descriptor unchanged. -/
def storageCells (p : Pbd) (D : PixelBuffer) : List Host.Cell := cellsAt p.base (pixelBytes D.data)

/-- PB_BLIT's outcome (R156). -/
def pbBlitOutcome (alpha : Bool) (s : State) : CmdOutcome := do
  let p ← checkPbd s (s.argNat 0) true
  let q ← checkPbd s (s.argNat 5) true
  checkOverlap s (.pbBlit alpha)
  return s.effect
    (storageCells q ((loadBuffer s.lm q).blit (loadBuffer s.lm p) (s.argInt 1) (s.argInt 2) alpha)) []

/-- PB_XPLANT's outcome (R157). -/
def pbXplantOutcome (s : State) : CmdOutcome := do
  let p ← checkPbd s (s.argNat 0) true
  let q ← checkPbd s (s.argNat 5) true
  checkOverlap s .pbXplant
  return s.effect
    (storageCells q ((loadBuffer s.lm q).transplant (loadBuffer s.lm p) (s.argInt 1) (s.argInt 2))) []

/-- PB_GET, OP 0x10 (R152). -/
def execPbGet (s : State) : Host.Outcome State Fault Refusal := finish s (pbGetOutcome s)

/-- PB_SET, OP 0x11 (R153). -/
def execPbSet (s : State) : Host.Outcome State Fault Refusal := finish s (pbSetOutcome s)

/-- PB_CROP, OP 0x12 (R154). -/
def execPbCrop (s : State) : Host.Outcome State Fault Refusal := finish s (pbCropOutcome s)

/-- PB_SHIFT, OP 0x13 (R155). -/
def execPbShift (s : State) : Host.Outcome State Fault Refusal := finish s (pbShiftOutcome s)

/-- PB_BLIT, OP 0x14 (R156). -/
def execPbBlit (alpha : Bool) (s : State) : Host.Outcome State Fault Refusal := finish s (pbBlitOutcome alpha s)

/-- PB_XPLANT, OP 0x15 (R157). -/
def execPbXplant (s : State) : Host.Outcome State Fault Refusal := finish s (pbXplantOutcome s)

end Sys2Proof.Machine
end

