-- ==== Sys2Proof/Machine/System.lean ====
section
/-! DEFINITION. NOP (40_command.md R137), the only no-operation (30_encoding.md R115). -/

namespace Sys2Proof.Machine

/-- NOP writes nothing and gives no result (R137). -/
def nopOutcome (s : State) : CmdOutcome := .ok (s.effect [] [])

/-- NOP, OP 0x00 (R137). -/
def execNop (s : State) : Host.Outcome State Fault Refusal := finish s (nopOutcome s)

end Sys2Proof.Machine
end

