-- ==== Sys2Proof/Machine/Dispatch.lean ====
section
/-! DEFINITION. One arm per command (30_encoding.md R104): the meaning of a decoded command word. -/

namespace Sys2Proof.Machine

def exec (i : Instr) (s : State) : Host.Outcome State Fault Refusal :=
  match i with
  | .nop => Sys2Proof.Machine.execNop s
  | .ident => Sys2Proof.Machine.execIdent s
  | .ftHdr => Sys2Proof.Machine.execFtHdr s
  | .ftEnt => Sys2Proof.Machine.execFtEnt s
  | .decFrm => Sys2Proof.Machine.execDecFrm s
  | .encS16 => Sys2Proof.Machine.execEncS16 s
  | .encC16 => Sys2Proof.Machine.execEncC16 s
  | .blkHdr => Sys2Proof.Machine.execBlkHdr s
  | .blkDec => Sys2Proof.Machine.execBlkDec s
  | .blkStitch => Sys2Proof.Machine.execBlkStitch s
  | .blkEnc => Sys2Proof.Machine.execBlkEnc s
  | .pbGet => Sys2Proof.Machine.execPbGet s
  | .pbSet => Sys2Proof.Machine.execPbSet s
  | .pbCrop => Sys2Proof.Machine.execPbCrop s
  | .pbShift => Sys2Proof.Machine.execPbShift s
  | .pbBlit alpha => Sys2Proof.Machine.execPbBlit alpha s
  | .pbXplant => Sys2Proof.Machine.execPbXplant s
  | .quant strat nbits gamma => Sys2Proof.Machine.execQuant strat nbits gamma s
  | .pack565 cdmode admode => Sys2Proof.Machine.execPack565 cdmode admode s
  | .qlookup nbits gamma => Sys2Proof.Machine.execQlookup nbits gamma s

end Sys2Proof.Machine
end

