-- ==== Sys2Proof/Machine/HostPort.lean ====
section
/-! DEFINITION. The Host port: register reads and writes (10_state.md R31 to R43), the LM window (20_memory.md R75, R76,
R82), soft and power-on reset (70_reset_and_hazards.md R380 to R382), and the Host program notation (30_encoding.md
R113, R114). -/

namespace Sys2Proof.Machine

/-! ### Destination regions of the pending command -/

/-- The destination regions of the pending command: its w and u entries; none for a word that fails the word checks
(R382, 40_command.md R138). -/
def pendingDestinations (s : State) : List Region :=
  match decode s.lcmd with
  | .ok i => if (wordCheck i).isOk then destinations s i else []
  | .error _ => []

/-- LM address a is in a destination region of the pending command. -/
def inPendingDestination (s : State) (a : Nat) : Bool := (pendingDestinations s).any fun r => r.has a

/-! ### Reset -/

/-- n LM bytes from address a take any value, one draw per byte (R380, R382). -/
def drawRange : Nat → Nat → Memory → Nat → Memory × Nat
  | _, 0, m, k => (m, k)
  | a, n + 1, m, k => drawRange (a + 1) n (m.write a (Config.drawByte k)) (k + 1)

/-- The bytes of these regions that lie in LM take any value (R382). -/
def drawRegions (size : Nat) : List Region → Memory → Nat → Memory × Nat
  | [], m, k => (m, k)
  | r :: rest, m, k =>
    let mk := drawRange r.start (min (r.start + r.size) size - r.start) m k
    drawRegions size rest mk.1 mk.2

/-- Every register, the latched state and so IRQ at the reset values of R380; LM, the parameters and the model's own
fields as they are. -/
def State.resetRegisters (s : State) : State :=
  { s with
    ie := State.reset.ie
    status := State.reset.status
    cmd := State.reset.cmd
    arg := State.reset.arg
    res := State.reset.res
    lcmd := State.reset.lcmd
    larg := State.reset.larg }

/-- Soft reset: LM is kept when no command is pending (R381); the destination regions of a pending command take any
value (R382). -/
def State.softReset (s : State) : State :=
  if s.status.busy then
    let mk := drawRegions s.params.memSize (pendingDestinations s) s.lm s.draws
    { s.resetRegisters with lm := mk.1, draws := mk.2 }
  else s.resetRegisters

/-- Power-on reset through the reset input: as R381, but every LM byte takes any value (R380, R388; log 16). -/
def State.powerOnReset (s : State) : State :=
  let mk := drawRange 0 s.params.memSize s.lm s.draws
  { s.resetRegisters with lm := mk.1, draws := mk.2 }

/-! ### The register block -/

/-- ID always reads this (R33). -/
def idValue : Word := 0x524C4507#32

/-- The registers of the block by offset (R32). -/
inductive Reg where
  | id
  | ctrl
  | status
  | cmd
  | arg (i : Fin 8)
  | res (i : Fin 4)
  | memtop
  | reserved
  deriving DecidableEq, Repr

/-- The register at word index `k` of the block, offset 4 * k (R32). -/
def regAt (k : Nat) : Reg :=
  if k = 0 then .id
  else if k = 1 then .ctrl
  else if k = 2 then .status
  else if k = 3 then .cmd
  else if k < 12 then .arg (Fin.ofNat 8 (k - 4))
  else if k < 16 then .res (Fin.ofNat 4 (k - 12))
  else if k = 16 then .memtop
  else .reserved

/-- What a Host read of a register returns; it has no side effect (R33 to R43, R79). -/
def readReg (s : State) : Reg → Word
  | .id => idValue
  | .ctrl => s.ctrlWord
  | .status => s.status.word
  | .cmd => s.cmd
  | .arg i => s.arg[i]
  | .res i => s.res[i]
  | .memtop => toWord (s.params.memSize - 1)
  | .reserved => 0#32

/-- A Host write to CTRL: soft reset when SRST is written 1, whatever IE is written; else IE (R34). -/
def writeCtrl (s : State) (v : Word) : State := if v.getLsbD 0 then s.softReset else { s with ie := v.getLsbD 1 }

/-- A Host write to CMD: accepted when no command is pending, else dropped with OVR set (R38). -/
def writeCmd (s : State) (v : Word) : State :=
  if s.status.busy then { s with status := s.status.overrun } else s.accept v

/-- A Host write to a register (R33 to R43). -/
def writeReg (s : State) (v : Word) : Reg → State
  | .id => s
  | .ctrl => writeCtrl s v
  | .status => s.acknowledge v
  | .cmd => writeCmd s v
  | .arg i => { s with arg := s.arg.set i v }
  | .res _ => s
  | .memtop => s
  | .reserved => s

/-! ### Host accesses -/

/-- Bytes of an access (R75). -/
def Width.bytes : Width → Nat
  | .byte => 1
  | .half => 2
  | .word => 4

/-- Where a Host access goes (R75, R76; logs 10 and 11). -/
inductive Target where
  | reg (r : Reg)
  | lm (a : Nat)
  | badRegister
  | unmapped
  deriving DecidableEq, Repr

/-- The target of an access of `n` bytes at host address `addr`. DESIGN CHOICE (log 24): a register access is aligned
(R75) when its offset from REG_BASE is a multiple of 4, whatever REG_BASE is. -/
def target (p : Params) (addr n : Nat) : Target :=
  if addr < p.regBase + 256 ∧ p.regBase < addr + n then
    (if n = 4 ∧ p.regBase ≤ addr ∧ (addr - p.regBase) % 4 = 0 then .reg (regAt ((addr - p.regBase) / 4))
     else .badRegister)
  else if p.lmBase ≤ addr ∧ addr + n ≤ p.lmBase + p.memSize then .lm (addr - p.lmBase)
  else .unmapped

/-- n LM bytes from address a as the Host reads them, little-endian, and the draws taken after: while a command is
pending a byte of its destination regions is any value (R82). -/
def hostBytes (s : State) : Nat → Nat → Nat → Nat × Nat
  | _, 0, k => (0, k)
  | a, n + 1, k =>
    if s.status.busy && inPendingDestination s a then
      let r := hostBytes s (a + 1) n (k + 1)
      ((Config.drawByte k).toNat + 256 * r.1, r.2)
    else
      let r := hostBytes s (a + 1) n k
      ((s.lm.read a).toNat + 256 * r.1, r.2)

/-- A Host read (R75, R76, R82). -/
def hostRead (s : State) (addr : Nat) (w : Width) : Host.Outcome State Fault Refusal :=
  match target s.params addr w.bytes with
  | .reg r => .next { s with readData := readReg s r }
  | .lm a =>
    let r := hostBytes s a w.bytes s.draws
    .next { s with readData := toWord r.1, draws := r.2 }
  | .badRegister => .refused .hostRegisterAccess
  | .unmapped => .fault .hostUnmapped

/-- A Host write (R75, R76, R82). -/
def hostWrite (s : State) (addr : Nat) (w : Width) (v : Word) : Host.Outcome State Fault Refusal :=
  match target s.params addr w.bytes with
  | .reg r => .next (writeReg s v r)
  | .lm a =>
    if s.status.busy then .fault .hostWriteWhileBusy
    else .next { s with lm := s.lm.writeAll (cellsLe a w.bytes v.toNat) }
  | .badRegister => .refused .hostRegisterAccess
  | .unmapped => .fault .hostUnmapped

/-! ### Host program notation -/

/-- `RD` at word index k of the register block (R113). -/
def rd (p : Params) (k : Nat) : Input := .read (p.regBase + 4 * k) .word

/-- `WR` at word index k of the register block (R113). -/
def wr (p : Params) (k : Nat) (v : Word) : Input := .write (p.regBase + 4 * k) .word v

/-- `ACK`: `WR STATUS, 0x1E` (R114). -/
def ack (p : Params) : Input := wr p 2 0x1E#32

/-- A run of `WAIT` whose poll reads BUSY = 1 `n` times before the Engine's turn, and BUSY = 0 after it (R114). -/
def wait (p : Params) (n : Nat) : List Input := List.replicate n (rd p 2) ++ [.engine, rd p 2]

/-- `WR ARG0, a0`, `WR ARG1, a1`, ... (R114). -/
def writeArgs (p : Params) : Nat → List Word → List Input
  | _, [] => []
  | i, v :: rest => wr p (4 + i) v :: writeArgs p (i + 1) rest

/-- `DO <command> a0, a1, ...` (R114), with `n` polls before the Engine's turn. -/
def doCommand (p : Params) (i : Instr) (args : List Word) (n : Nat) : List Input :=
  writeArgs p 0 args ++ wr p 3 (encode i) :: wait p n

end Sys2Proof.Machine
end

