-- ==== Sys2Proof/Machine/Engine.lean ====
section
/-! DEFINITION. The Engine's turn and the interleaving of the agents (40_command.md R131, 60_exceptions.md R350). -/

namespace Sys2Proof.Machine

/-- The Engine step of the pending command (R131): its word decoded and executed; a word that is no command ends with
E_ILLEGAL_CMD (R134 step 1). -/
def engineStep (s : State) : Host.Outcome State Fault Refusal :=
  match decode s.lcmd with
  | .ok i => exec i s
  | .error _ => .next (s.raiseError .illegalCmd)

/-- The Engine's turn: its step is enabled exactly when STATUS.BUSY = 1 (R131); otherwise it is idle (R359). -/
def engineTurn (s : State) : Host.Outcome State Fault Refusal := if s.status.busy then engineStep s else .next s

/-- One input. -/
def takeInput (s : State) : Input → Host.Outcome State Fault Refusal
  | .engine => engineTurn s
  | .read addr w => hostRead s addr w
  | .write addr w v => hostWrite s addr w v
  | .powerOn => .next s.powerOnReset

/-- The machine moves on the next input, one at a time (R350); with none waiting the Engine has its turn, so that a
pending command is always completed (70_reset_and_hazards.md R389; log 1). -/
def advance (s : State) : Host.Outcome State Fault Refusal :=
  match s.inputs with
  | [] => engineTurn s
  | i :: rest => takeInput { s with inputs := rest } i

/-- `s` with the command word `v` accepted (R38) and the Engine's turn next: the next step runs it (log 2). -/
def fetchNext (s : State) (v : Word) : State := { s.accept v with inputs := .engine :: s.inputs }

end Sys2Proof.Machine
end

