-- ==== Sys2Proof/Machine/Step.lean ====
section
/-! DEFINITION. One step of the machine, and how an instruction is placed where the next step runs it (log 2). -/

namespace Sys2Proof.Machine

/-- One step: one Host access, one assertion of the reset input, or one Engine turn (R131, R350). -/
def step (s : State) : Host.Outcome State Fault Refusal := Sys2Proof.Machine.advance s

/-- `s` with the command word `w` pending and the Engine's turn next: the acceptance of R38, which stands for a Host's
write of CMD (log 2). The engine fetches nothing from memory (10_state.md R52). -/
def State.withFetchWord (s : State) (nbits w : Nat) : State :=
  Sys2Proof.Machine.fetchNext s (BitVec.ofNat 32 (w % 2 ^ nbits))

end Sys2Proof.Machine
end

