-- ==== Sys2Proof/Safety.lean ====
section
/-! DEFINITION. What counts as a safe state, and the terms the claims use: the state a completed command leaves, operands
that pass the checks of 40_command.md R134, and what a command has written. -/

namespace Sys2Proof

/-- The result registers a command names (30_encoding.md R111). -/
def Instr.namedResults : Instr → List (Fin 4)
  | .nop => []
  | .ident => [0]
  | .ftHdr => [0, 1]
  | .ftEnt => [0, 1, 2, 3]
  | .decFrm => [0, 1, 2]
  | .encS16 => [0]
  | .encC16 => [0]
  | .blkHdr => [0, 1, 2, 3]
  | .blkDec => [0, 1]
  | .blkStitch => [0, 1]
  | .blkEnc => [0, 1, 2, 3]
  | .pbGet => [0]
  | .pbSet => []
  | .pbCrop => []
  | .pbShift => []
  | .pbBlit _ => []
  | .pbXplant => []
  | .quant _ _ _ => []
  | .pack565 _ _ => []
  | .qlookup _ _ => [0, 1, 2, 3]

/-- The operands that name input descriptors, each checked whole (40_command.md R134, R138). -/
def Instr.inputPbds : Instr → List (Fin 8)
  | .nop => []
  | .ident => []
  | .ftHdr => []
  | .ftEnt => []
  | .decFrm => []
  | .encS16 => []
  | .encC16 => []
  | .blkHdr => []
  | .blkDec => []
  | .blkStitch => []
  | .blkEnc => [0]
  | .pbGet => [0]
  | .pbSet => [0]
  | .pbCrop => [0]
  | .pbShift => [0]
  | .pbBlit _ => [0, 5]
  | .pbXplant => [0, 5]
  | .quant _ _ _ => []
  | .pack565 _ _ => []
  | .qlookup _ _ => []

/-- The operands that name output descriptors (40_command.md R134, R136, R138). -/
def Instr.outputPbds : Instr → List (Fin 8)
  | .nop => []
  | .ident => []
  | .ftHdr => []
  | .ftEnt => []
  | .decFrm => [3]
  | .encS16 => []
  | .encC16 => []
  | .blkHdr => []
  | .blkDec => [3]
  | .blkStitch => [5]
  | .blkEnc => []
  | .pbGet => []
  | .pbSet => []
  | .pbCrop => [5]
  | .pbShift => [5]
  | .pbBlit _ => []
  | .pbXplant => []
  | .quant _ _ _ => []
  | .pack565 _ _ => [7]
  | .qlookup _ _ => []

/-- The strategy takes draws (30_encoding.md R106, the class column). -/
def Strategy.drawing : Strategy → Bool
  | .floor => false
  | .nearest => false
  | .debug1bit => false
  | .randomFloor => true
  | .random => true
  | .randomBorked => true
  | .pattern _ draws => draws

end Sys2Proof

namespace Sys2Proof.Machine

/-- The invariant of the machine: legal parameters (R6), LM in canonical form and inside its MEM_SIZE bytes (R44), CMD
the word that was latched (R37, R38, R40), and nothing reported while a command is pending (R38, R132). -/
structure State.Inv (s : State) : Prop where
  params : s.params.wf = true
  canonical : s.lm.wf = true
  within : s.lm.within s.params.memSize = true
  latched : s.lcmd = s.cmd
  pending : s.status.busy = true →
    s.status.done = false ∧ s.status.err = false ∧ s.status.trunc = false ∧ s.status.errcode = .none

/-! ### Completion -/

/-- `s` after its command has completed with `ok` (R132): LM, RES, TRUNC and the draws taken as given; BUSY 0, DONE 1,
ERRCODE 0; everything else as it was. -/
def State.completedWith (s : State) (lm : Memory) (res : Vector Word 4) (trunc : Bool) (draws : Nat) : State :=
  { s with
    lm := lm
    res := res
    draws := draws
    status := { s.status with busy := false, done := true, trunc := trunc, errcode := .none } }

/-- `s` after its command has completed with `err(code)` (R132, R340): STATUS alone changes. -/
def State.failedWith (s : State) (code : ErrCode) : State :=
  { s with status := { s.status with busy := false, done := true, err := true, errcode := code } }

/-! ### Operands that pass the checks of R134 -/

/-- A region of LM: empty, or ending at or before MEM_SIZE (R77). -/
abbrev State.RegionIn (s : State) (a n : Nat) : Prop := n = 0 ∨ a + n ≤ s.params.memSize

/-- A descriptor with BASE even and its storage in LM (R134 step 2). -/
abbrev State.StorageOk (s : State) (p : Pbd) : Prop := p.base % 2 = 0 ∧ s.RegionIn p.base p.cap

/-- Operand i names an output descriptor that passes R134 step 2. -/
abbrev State.OutputPbd (s : State) (i : Fin 8) : Prop :=
  s.argNat i % 4 = 0 ∧ s.argNat i + 16 ≤ s.params.memSize ∧ s.StorageOk (s.pbdArg i)

/-- A descriptor whose pixels fit its storage (R134 step 2). -/
abbrev Pbd.Fits (p : Pbd) : Prop := 2 * p.width * p.height ≤ p.cap

/-- Operand i names an input descriptor that passes R134 step 2. -/
abbrev State.InputPbd (s : State) (i : Fin 8) : Prop := s.OutputPbd i ∧ (s.pbdArg i).Fits

/-- Descriptor k of the array at ARG0 (R135). -/
def State.arrayPbd (s : State) (k : Nat) : Pbd := readPbd s.lm (s.argNat 0 + 16 * k)

/-- ARG0 names an array of n input descriptors that pass R134 step 2. -/
abbrev State.InputPbds (s : State) (n : Nat) : Prop :=
  s.argNat 0 % 4 = 0 ∧ s.RegionIn (s.argNat 0) (16 * n) ∧
    ∀ k < n, s.StorageOk (s.arrayPbd k) ∧ (s.arrayPbd k).Fits

/-- How many input descriptors the array operand at ARG0 names, for a command that has one (R138, 30_encoding.md
R111). -/
def State.arrayCount (s : State) : Instr → Option Nat
  | .encS16 => some (s.argNat 1)
  | .encC16 => some (s.argNat 1)
  | .blkStitch => some (s.argNat 1 * s.argNat 2)
  | .nop => none
  | .ident => none
  | .ftHdr => none
  | .ftEnt => none
  | .decFrm => none
  | .blkHdr => none
  | .blkDec => none
  | .blkEnc => none
  | .pbGet => none
  | .pbSet => none
  | .pbCrop => none
  | .pbShift => none
  | .pbBlit _ => none
  | .pbXplant => none
  | .quant _ _ _ => none
  | .pack565 _ _ => none
  | .qlookup _ _ => none

/-- The first check that descriptor p fails once it is read has code e (R134 step 2). -/
abbrev State.BodyFails (s : State) (p : Pbd) (input : Bool) (e : ErrCode) : Prop :=
  (p.base % 2 ≠ 0 ∧ e = .align) ∨
  (p.base % 2 = 0 ∧ ¬s.RegionIn p.base p.cap ∧ e = .addrRange) ∨
  (s.StorageOk p ∧ input = true ∧ ¬p.Fits ∧ e = .capacity)

/-- The first check that descriptor operand i fails has code e (R134 step 2). -/
abbrev State.PbdFails (s : State) (i : Fin 8) (input : Bool) (e : ErrCode) : Prop :=
  (s.argNat i % 4 ≠ 0 ∧ e = .align) ∨
  (s.argNat i % 4 = 0 ∧ s.params.memSize < s.argNat i + 16 ∧ e = .addrRange) ∨
  (s.argNat i % 4 = 0 ∧ s.argNat i + 16 ≤ s.params.memSize ∧ s.BodyFails (s.pbdArg i) input e)

/-- The first check that the array operand of n input descriptors fails has code e, the descriptors taken in index order
(R134 step 2). -/
def State.ArrayFails (s : State) (n : Nat) (e : ErrCode) : Prop :=
  (s.argNat 0 % 4 ≠ 0 ∧ e = .align) ∨
  (s.argNat 0 % 4 = 0 ∧ ¬s.RegionIn (s.argNat 0) (16 * n) ∧ e = .addrRange) ∨
  (s.argNat 0 % 4 = 0 ∧ s.RegionIn (s.argNat 0) (16 * n) ∧
    ∃ k < n, (∀ j < k, s.StorageOk (s.arrayPbd j) ∧ (s.arrayPbd j).Fits) ∧ s.BodyFails (s.arrayPbd k) true e)

/-- The PixelBuffers of the array of n descriptors at ARG0. -/
def State.arrayBuffers (s : State) (n : Nat) : List PixelBuffer :=
  (List.range n).map fun k => loadBuffer s.lm (s.arrayPbd k)

/-- No two entries of the command's region list conflict (R87). -/
abbrev State.NoOverlap (s : State) (i : Instr) : Prop := noConflict (regionEntries s i) = true

/-- The region list of command i holds these regions, as r, as w and as u entries, and no others (R138). -/
def State.hasRegions (s : State) (i : Instr) (reads writes updates : List Region) : Prop :=
  (regionEntries s i).Perm
    (reads.map (RegionEntry.mk .read) ++ writes.map (RegionEntry.mk .write) ++ updates.map (RegionEntry.mk .update))

/-! ### What a command has written -/

/-- Every byte outside these regions reads as before. -/
def unchangedOutside (m m' : Memory) (rs : List Region) : Prop :=
  ∀ a, (∀ r ∈ rs, r.has a = false) → m'.read a = m.read a

/-- The pixels f x y stand at `base`, row-major and little-endian, in a buffer of width w and height h (R46). -/
def holdsPixels (m : Memory) (base w h : Nat) (f : Nat → Nat → Pixel) : Prop :=
  ∀ x y, x < w → y < h → m.readLe (base + 2 * (y * w + x)) 2 = (f x y).toNat

/-- From `m` to `m'`, the w x h buffer of pixels f was written to the output descriptor that operand i names, and nothing
else (R136). -/
def State.wroteBuffer (s : State) (m' : Memory) (i : Fin 8) (w h : Nat) (f : Nat → Nat → Pixel) : Prop :=
  m'.readLe (s.argNat i + 4) 4 = w ∧ m'.readLe (s.argNat i + 8) 4 = h ∧
    holdsPixels m' (s.pbdArg i).base w h f ∧
    unchangedOutside s.lm m' [⟨s.argNat i + 4, 8⟩, ⟨(s.pbdArg i).base, 2 * w * h⟩]

/-- From `m` to `m'`, the bytes were written at `a`, and nothing else. -/
def wroteBytes (m m' : Memory) (a : Nat) (bytes : List Byte) : Prop :=
  (∀ i < bytes.length, m'.read (a + i) = bytes.getD i 0#8) ∧ unchangedOutside m m' [⟨a, bytes.length⟩]

/-- The loop of 41_pixelbuffer.md R151 as it is written: for sy, for sx, skip a mask pixel of an alpha-aware blit, else
Set. -/
def blitLoop (D S : PixelBuffer) (dx dy : Int) (alpha : Bool) : PixelBuffer :=
  (List.range S.height).foldl (fun D sy => (List.range S.width).foldl (fun D sx =>
    let v := S.data.getD (sy * S.width + sx) 0#16
    if alpha && v == 0#16 then D else D.set (sx + dx) (sy + dy) v) D) D

/-- The loop of 43_blk.md R236 as it is written, over its variables Q and k. -/
def stitchLoop (bw bh : Nat) (tiles : List PixelBuffer) : PixelBuffer :=
  ((List.range bw).foldl (fun r x => (List.range bh).foldl (fun (r : PixelBuffer × Nat) y =>
    (r.1.blit (tiles.getD r.2 (PixelBuffer.zero 0 0)) (128 * x : Nat) (128 * y : Nat) false, r.2 + 1)) r)
    (PixelBuffer.zero (128 * bw) (128 * bh), 0)).1

/-- Row y of the loop of 42_frame_table.md R190 as it is written, from its variables P, pos, x and trunc: P, pos and trunc
when the row ends; none if it has not ended within `n` run headers. -/
def rleRowLoop (st : List Byte) (d : Descriptor) (y : Nat) :
    Nat → PixelBuffer → Nat → Nat → Bool → Option (PixelBuffer × Nat × Bool)
  | 0, _, _, _, _ => none
  | n + 1, P, pos, x, trunc =>
    let elm := in16 st d.big pos
    let trunc := trunc || decide (st.length ≤ pos + 1)
    let pos := pos + 2
    if elm = 0 then some (P, pos, trunc)
    else if elm % 2 = 1 then
      let r := (List.range (elm >>> 1)).foldl (fun (r : PixelBuffer × Nat × Bool) i =>
        (r.1.set (x + i : Nat) y (conv d (BitVec.ofNat 16 (in16 st d.big r.2.1))), r.2.1 + 2,
          r.2.2 || decide (st.length ≤ r.2.1 + 1))) (P, pos, trunc)
      rleRowLoop st d y n r.1 r.2.1 (x + (elm >>> 1)) r.2.2
    else rleRowLoop st d y n P pos (x + (elm >>> 1)) trunc

/-- The loop of 42_frame_table.md R190 over the rows, from a buffer of 0: the buffer and trunc; none if some row has not
ended within `n` run headers. -/
def rleLoop (n : Nat) (st : List Byte) (d : Descriptor) (off w h : Nat) : Option (PixelBuffer × Bool) :=
  ((List.range h).foldlM (fun r y => rleRowLoop st d y n r.1 r.2.1 0 r.2.2)
    (PixelBuffer.zero w h, off, false)).map fun r => (r.1, r.2.2)

/-- The bits of a pattern, row by row (44_quantizer.md R268). -/
def Pattern.rows (p : Pattern) : List (List Nat) :=
  (List.range p.height).map fun y => (List.range p.width).map fun x => (p.bit x y).toNat

/-- The threshold matrix of a set, its rows from top to bottom (44_quantizer.md R272; bayer2 and bayer4 are the spec's
general knowledge, log 22, and the blue-noise matrices open parameters, log 7); none for the sets of R270 and R271. -/
def thresholdRows : PatternSet → Option (List (List Nat))
  | .checkers => none
  | .alwaysCheckers => none
  | .bayer2 => some [[0, 2], [3, 1]]
  | .bayer4 => some [[0, 8, 2, 10], [12, 4, 14, 6], [3, 11, 1, 9], [15, 7, 13, 5]]
  | .bluenoise9 => some ((List.range 9).map fun y => (List.range 9).map fun x =>
      (Config.blueNoise9 (Fin.ofNat 81 (9 * y + x))).val)
  | .bluenoise15 => some ((List.range 15).map fun y => (List.range 15).map fun x =>
      (Config.blueNoise15 (Fin.ofNat 225 (15 * y + x))).val)

end Sys2Proof.Machine
end

