-- ==== Sys2Proof/Certificates/Slice0/Obligations.lean ====
section
/-! DEFINITION. The statements for the provers, from the numbered rules of spec/. Each docstring names its rules; a
statement about a free value holds for every value of the constants and fields it comes from. -/

open Sys2Proof Sys2Proof.Machine

/-! ### Encoding -/

/-- R101, R104: decoding an encoded command gives it back, with every field at every value. -/
def Obligations.DecodeEncodeRoundTrip : Prop := ∀ i : Instr, decode (encode i) = .ok i

/-- R102, R105: a word with a reserved bit set, or with an OP value outside the opcode map, ends with E_ILLEGAL_CMD; and
every word either is the encoding of one command and matches that command's row of the opcode table and no other row, or
matches no row and ends with E_ILLEGAL_CMD. -/
def Obligations.EveryWordIsOneRowOrIllegal : Prop :=
  (∀ (s : State) (rest : List Input), s.status.busy = true → s.inputs = .engine :: rest →
    (s.lcmd.extractLsb' 13 3 ≠ 0#3 ∨ s.lcmd.extractLsb' 22 2 ≠ 0#2 ∨ s.lcmd.extractLsb' 29 3 ≠ 0#3 ∨
      (s.lcmd.extractLsb' 0 8).toNat ∈ [0x07, 0x0C, 0x0D, 0x0E, 0x0F] ∨
      (0x16 ≤ (s.lcmd.extractLsb' 0 8).toNat ∧ (s.lcmd.extractLsb' 0 8).toNat ≤ 0x1F) ∨
      0x23 ≤ (s.lcmd.extractLsb' 0 8).toNat ∨ ∀ j : Instr, s.lcmd &&& j.row.mask ≠ j.row.word) →
    step s = .next (({ s with inputs := rest } : State).failedWith .illegalCmd)) ∧
  ∀ w : Word,
    (∃ i, decode w = .ok i ∧ encode i = w ∧ w &&& i.row.mask = i.row.word ∧
      ∀ j : Instr, w &&& j.row.mask = j.row.word → j.row = i.row) ∨
    ((∃ e, decode w = .error e) ∧ ∀ j : Instr, w &&& j.row.mask ≠ j.row.word)

/-- R101, R104: words written out field by field decode to the commands they stand for. -/
def Obligations.SpecWordsDecode : Prop :=
  decode 0x00000000#32 = .ok .nop ∧ decode 0x00000004#32 = .ok .decFrm ∧ decode 0x0000000B#32 = .ok .blkEnc ∧
  decode 0x00200014#32 = .ok (.pbBlit true) ∧ decode 0x00010A20#32 = .ok (.quant 10#5 1#4 false) ∧
  decode 0x00110A20#32 = .ok (.quant 10#5 1#4 true) ∧ decode 0x0A000021#32 = .ok (.pack565 0#5 10#5) ∧
  decode 0x00150022#32 = .ok (.qlookup 5#4 true) ∧ decode 0x00012020#32 = .error .reservedBits ∧
  decode 0x00000007#32 = .error .undefinedOp ∧ decode 0x00210020#32 = .error .unusedField

/-- R107, R108: NBITS 9 to 15 ends with E_BAD_BITS; the codes 6, 7, 14 to 23, 30 and 31 name no strategy and end with
E_INVALID_STRATEGY (for QUANT after the NBITS check of R134). -/
def Obligations.IllegalFieldValuesEndWithTheirError : Prop :=
  (∀ (s : State) (c : BitVec 5) (n : BitVec 4) (g : Bool), 9 ≤ n.toNat →
    exec (.quant c n g) s = .next (s.failedWith .badBits) ∧ exec (.qlookup n g) s = .next (s.failedWith .badBits)) ∧
  (∀ c : BitVec 5, Strategy.ofCode c = none ↔
    c.toNat ∈ [6, 7, 14, 15, 16, 17, 18, 19, 20, 21, 22, 23, 30, 31]) ∧
  (∀ (s : State) (c : BitVec 5) (n : BitVec 4) (g : Bool), n.toNat ≤ 8 → Strategy.ofCode c = none →
    exec (.quant c n g) s = .next (s.failedWith .invalidStrategy)) ∧
  ∀ (s : State) (c d : BitVec 5), Strategy.ofCode c = none ∨ Strategy.ofCode d = none →
    exec (.pack565 c d) s = .next (s.failedWith .invalidStrategy)

/-! ### The step and the Host port -/

/-- R131, R359: with a command pending, the Engine's turn runs the decoded command; with none pending it changes nothing.
The second clause is the model's convention for an exhausted schedule (log 1), the last one its way of placing a
command (log 2). -/
def Obligations.StepRunsDecodedCommand : Prop :=
  (∀ (s : State) (i : Instr) (rest : List Input), s.status.busy = true → decode s.lcmd = .ok i →
    s.inputs = .engine :: rest → step s = exec i { s with inputs := rest }) ∧
  (∀ (s : State) (i : Instr), s.status.busy = true → decode s.lcmd = .ok i → s.inputs = [] → step s = exec i s) ∧
  (∀ (s : State) (rest : List Input), s.status.busy = false → s.inputs = .engine :: rest →
    step s = .next { s with inputs := rest }) ∧
  (∀ s : State, s.status.busy = false → s.inputs = [] → step s = .next s) ∧
  ∀ (s : State) (w : Word) (i : Instr), decode w = .ok i →
    step (s.withFetchWord 32 w.toNat) = exec i (s.accept w) ∧ decodeTableWord 32 w.toNat = some i

/-- R389: a Host that only polls STATUS sees a pending command complete after finitely many steps. The schedule that
gives the Engine its turn when no input is left is the model's (log 1). -/
def Obligations.PendingCommandCompletesUnderPolling : Prop :=
  ∀ (s : State) (n : Nat), s.status.busy = true → s.inputs = List.replicate n (rd s.params 2) →
    ∃ t : State, Sys2Proof.core.run (n + 1) s = .next t ∧ t.status.busy = false ∧ t.status.done = true ∧ t.inputs = []

/-- R38: a Host write of CMD latches the word and the arguments when no command is pending, and is dropped with OVR set
when one is. -/
def Obligations.CmdWriteIssuesOrOverruns : Prop :=
  ∀ (s : State) (w : Word) (rest : List Input), s.inputs = .write (s.params.regBase + 0x0C) .word w :: rest →
    (s.status.busy = false → step s = .next { s with
      inputs := rest
      cmd := w
      lcmd := w
      larg := s.arg
      status := { s.status with busy := true, done := false, err := false, trunc := false, errcode := .none } }) ∧
    (s.status.busy = true → step s = .next { s with inputs := rest, status := { s.status with ovr := true } })

/-- R36, and the layout of R35: a Host write of STATUS clears the fields whose bit is 1; a read shows each field in its
place and 0 in the reserved ones. -/
def Obligations.StatusReadAndWriteOneToClear : Prop :=
  (∀ (s : State) (w : Word) (rest : List Input), s.inputs = .write (s.params.regBase + 0x08) .word w :: rest →
    step s = .next { s with
      inputs := rest
      status := { s.status with
        done := if w.getLsbD 1 then false else s.status.done
        err := if w.getLsbD 2 then false else s.status.err
        trunc := if w.getLsbD 3 then false else s.status.trunc
        ovr := if w.getLsbD 4 then false else s.status.ovr } }) ∧
  ∀ (s : State) (rest : List Input), s.inputs = .read (s.params.regBase + 0x08) .word :: rest →
    ∃ v : Word, step s = .next { s with inputs := rest, readData := v } ∧
      v.getLsbD 0 = s.status.busy ∧ v.getLsbD 1 = s.status.done ∧ v.getLsbD 2 = s.status.err ∧
      v.getLsbD 3 = s.status.trunc ∧ v.getLsbD 4 = s.status.ovr ∧ v.extractLsb' 5 3 = 0#3 ∧
      v.extractLsb' 8 8 = s.status.errcode.code ∧ v.extractLsb' 16 16 = 0#16

/-- R33, R37, R42, R43: ID, MEMTOP and the reserved offsets 0x44 to 0xFC read constants and ignore writes; CMD reads the
last accepted word. -/
def Obligations.FixedRegistersReadConstants : Prop :=
  ∀ (s : State) (rest : List Input),
    (s.inputs = .read s.params.regBase .word :: rest →
      step s = .next { s with inputs := rest, readData := 0x524C4507#32 }) ∧
    (s.inputs = .read (s.params.regBase + 0x0C) .word :: rest →
      step s = .next { s with inputs := rest, readData := s.cmd }) ∧
    (s.inputs = .read (s.params.regBase + 0x40) .word :: rest →
      step s = .next { s with inputs := rest, readData := BitVec.ofNat 32 (s.params.memSize - 1) }) ∧
    (∀ k, 17 ≤ k → k ≤ 63 → s.inputs = .read (s.params.regBase + 4 * k) .word :: rest →
      step s = .next { s with inputs := rest, readData := 0#32 }) ∧
    ∀ (k : Nat) (w : Word), k = 0 ∨ (16 ≤ k ∧ k ≤ 63) →
      s.inputs = .write (s.params.regBase + 4 * k) .word w :: rest → step s = .next { s with inputs := rest }

/-- R39, R41: ARG registers are plain read/write registers at any time, a pending command's latched arguments not
affected; RES registers are read and ignore writes. -/
def Obligations.ArgumentAndResultRegisters : Prop :=
  ∀ (s : State) (w : Word) (rest : List Input),
    (∀ i : Fin 8, s.inputs = .write (s.params.regBase + 0x10 + 4 * i) .word w :: rest →
      step s = .next { s with inputs := rest, arg := s.arg.set i w }) ∧
    (∀ i : Fin 8, s.inputs = .read (s.params.regBase + 0x10 + 4 * i) .word :: rest →
      step s = .next { s with inputs := rest, readData := s.arg[i] }) ∧
    (∀ i : Fin 4, s.inputs = .write (s.params.regBase + 0x30 + 4 * i) .word w :: rest →
      step s = .next { s with inputs := rest }) ∧
    ∀ i : Fin 4, s.inputs = .read (s.params.regBase + 0x30 + 4 * i) .word :: rest →
      step s = .next { s with inputs := rest, readData := s.res[i] }

/-- R34, R381: a Host write of CTRL sets IE; with SRST = 1 and no command pending it resets every register and the
latched state, IE included, and keeps LM. CTRL reads IE in bit 1 and 0 elsewhere. -/
def Obligations.CtrlWriteAndIdleSoftReset : Prop :=
  (∀ (s : State) (w : Word) (rest : List Input), s.inputs = .write (s.params.regBase + 0x04) .word w :: rest →
    (w.getLsbD 0 = false → step s = .next { s with inputs := rest, ie := w.getLsbD 1 }) ∧
    (w.getLsbD 0 = true → s.status.busy = false → step s = .next { s with
      inputs := rest
      ie := false
      status := ⟨false, false, false, false, false, .none⟩
      cmd := 0#32
      arg := Vector.replicate 8 0#32
      res := Vector.replicate 4 0#32
      lcmd := 0#32
      larg := Vector.replicate 8 0#32 })) ∧
  ∀ (s : State) (rest : List Input), s.inputs = .read (s.params.regBase + 0x04) .word :: rest →
    step s = .next { s with inputs := rest, readData := if s.ie then 2#32 else 0#32 }

/-- R382: a soft reset while a command is pending discards it; the bytes of its destination regions that lie in LM take
drawn values, a draw of its own for each byte, every other byte is kept, and a word that fails the word checks has no
destination regions. A descriptor that runs past the end of LM names no storage region: the model's choice (log 14). -/
def Obligations.SoftResetDiscardsPendingCommand : Prop :=
  (∀ (s : State) (w : Word) (rest : List Input), s.inputs = .write (s.params.regBase + 0x04) .word w :: rest →
    w.getLsbD 0 = true → s.status.busy = true → s.lm.wf = true →
    ∃ (lm' : Memory) (n : Nat) (k : Nat → Nat), step s = .next { s with
        inputs := rest
        ie := false
        status := ⟨false, false, false, false, false, .none⟩
        cmd := 0#32
        arg := Vector.replicate 8 0#32
        res := Vector.replicate 4 0#32
        lcmd := 0#32
        larg := Vector.replicate 8 0#32
        lm := lm'
        draws := n } ∧
      (∀ a, inPendingDestination s a = false ∨ s.params.memSize ≤ a → lm'.read a = s.lm.read a) ∧
      (∀ a, a < s.params.memSize → inPendingDestination s a = true →
        s.draws ≤ k a ∧ k a < n ∧ lm'.read a = Config.drawByte (k a)) ∧
      ∀ a b, a < s.params.memSize → b < s.params.memSize → inPendingDestination s a = true →
        inPendingDestination s b = true → k a = k b → a = b) ∧
  (∀ (s : State) (i : Instr), decode s.lcmd = .ok i → i.wellFormed = true →
    pendingDestinations s = destinations s i) ∧
  (∀ (s : State) (i : Instr), decode s.lcmd = .ok i → i.wellFormed = false → pendingDestinations s = []) ∧
  ∀ (s : State) (e : DecodeError), decode s.lcmd = .error e → pendingDestinations s = []

/-- R82: while a command is pending a Host write to LM is a fault; a Host read gives drawn values, a draw of its own for
each byte, for the bytes of its destination regions and the stored value for the others; register accesses are always
allowed. A descriptor that runs past the end of LM names no storage region: the model's choice (log 14). -/
def Obligations.HostAccessWhileCommandPending : Prop :=
  ∀ (s : State) (rest : List Input), s.status.busy = true → s.params.wf = true →
    (∀ (a : Nat) (wd : Width) (v : Word), a + wd.bytes ≤ s.params.memSize →
      s.inputs = .write (s.params.lmBase + a) wd v :: rest → step s = .fault .hostWriteWhileBusy) ∧
    (∀ (a : Nat) (wd : Width), a + wd.bytes ≤ s.params.memSize →
      s.inputs = .read (s.params.lmBase + a) wd :: rest →
      ∃ (v : Word) (n : Nat) (k : Nat → Nat), step s = .next { s with inputs := rest, readData := v, draws := n } ∧
        (∀ j < wd.bytes,
          (inPendingDestination s (a + j) = false → v.extractLsb' (8 * j) 8 = s.lm.read (a + j)) ∧
          (inPendingDestination s (a + j) = true →
            s.draws ≤ k j ∧ k j < n ∧ v.extractLsb' (8 * j) 8 = Config.drawByte (k j))) ∧
        ∀ j < wd.bytes, ∀ l < wd.bytes, inPendingDestination s (a + j) = true →
          inPendingDestination s (a + l) = true → k j = k l → j = l) ∧
    (∀ k < 64, s.inputs = .read (s.params.regBase + 4 * k) .word :: rest → ∃ t, step s = .next t) ∧
    ∀ (k : Nat) (v : Word), k < 64 → s.inputs = .write (s.params.regBase + 4 * k) .word v :: rest →
      ∃ t, step s = .next t

/-- R75: a Host access to the register block that is not an aligned word is refused, alignment being measured from
REG_BASE, the model's choice (log 24); Host accesses to the LM window are of 1, 2 or 4 bytes at any address inside it and
little-endian. -/
def Obligations.HostAccessWidthsAndByteOrder : Prop :=
  (∀ (s : State) (addr : Nat) (wd : Width) (v : Word) (rest : List Input),
    s.params.regBase ≤ addr → addr < s.params.regBase + 256 → ¬(wd = .word ∧ (addr - s.params.regBase) % 4 = 0) →
    (s.inputs = .read addr wd :: rest → step s = .refused .hostRegisterAccess) ∧
    (s.inputs = .write addr wd v :: rest → step s = .refused .hostRegisterAccess)) ∧
  ∀ (s : State) (a : Nat) (wd : Width) (rest : List Input), s.params.wf = true → s.status.busy = false →
    s.lm.wf = true → a + wd.bytes ≤ s.params.memSize →
    (∀ v : Word, s.inputs = .write (s.params.lmBase + a) wd v :: rest →
      ∃ lm', step s = .next { s with inputs := rest, lm := lm' } ∧
        lm'.readLe a wd.bytes = v.toNat % 256 ^ wd.bytes ∧ unchangedOutside s.lm lm' [⟨a, wd.bytes⟩]) ∧
    (s.inputs = .read (s.params.lmBase + a) wd :: rest →
      ∃ v : Word, step s = .next { s with inputs := rest, readData := v } ∧
        v.toNat % 256 ^ wd.bytes = s.lm.readLe a wd.bytes)

/-- R51, R348, R349: IRQ is the level IE and DONE, and IE is 0 after reset: completion of any command raises DONE, setting
IE while DONE = 1 asserts IRQ at once, clearing IE deasserts it without clearing DONE, and a STATUS write of bit 1, the
next command's acceptance or a soft reset clears it. -/
def Obligations.IrqFollowsEnableAndDone : Prop :=
  (∀ s : State, s.irq = true ↔ s.ie = true ∧ s.status.done = true) ∧ State.reset.ie = false ∧
  (∀ (i : Instr) (s t : State), exec i s = .next t → t.irq = s.ie) ∧
  ∀ (s : State) (w : Word) (rest : List Input),
    (s.inputs = .write (s.params.regBase + 0x04) .word w :: rest → w.getLsbD 0 = false →
      ∃ t, step s = .next t ∧ t.irq = (w.getLsbD 1 && s.status.done) ∧ t.status.done = s.status.done) ∧
    (s.inputs = .write (s.params.regBase + 0x04) .word w :: rest → w.getLsbD 0 = true →
      ∃ t, step s = .next t ∧ t.irq = false) ∧
    (s.inputs = .write (s.params.regBase + 0x08) .word w :: rest → w.getLsbD 1 = true →
      ∃ t, step s = .next t ∧ t.irq = false) ∧
    (s.inputs = .write (s.params.regBase + 0x0C) .word w :: rest → s.status.busy = false →
      ∃ t, step s = .next t ∧ t.irq = false)

/-- R346: a CMD write while BUSY = 1 is dropped and sets OVR and nothing else, raising no interrupt; OVR stays 1 until the
Host writes 1 to it or a reset. -/
def Obligations.OverrunIsFlaggedAndSticky : Prop :=
  (∀ (s : State) (w : Word) (rest : List Input), s.inputs = .write (s.params.regBase + 0x0C) .word w :: rest →
    s.status.busy = true → ∃ t, step s = .next t ∧
      t = { s with inputs := rest, status := { s.status with ovr := true } } ∧ t.irq = s.irq) ∧
  ∀ s t : State, step s = .next t → s.status.ovr = true → t.status.ovr = false →
    (∃ w rest, s.inputs = .write (s.params.regBase + 0x08) .word w :: rest ∧ w.getLsbD 4 = true) ∨
    (∃ w rest, s.inputs = .write (s.params.regBase + 0x04) .word w :: rest ∧ w.getLsbD 0 = true) ∨
    ∃ rest, s.inputs = .powerOn :: rest

/-- R31, R39, R42: no step changes the parameters; IE, the ARG registers and CMD change only by a Host write of that
register or a reset. -/
def Obligations.HostRegistersChangeOnlyByHost : Prop :=
  ∀ s t : State, step s = .next t →
    t.params = s.params ∧
    (t.ie = s.ie ∨ (∃ w rest, s.inputs = .write (s.params.regBase + 0x04) .word w :: rest) ∨
      ∃ rest, s.inputs = .powerOn :: rest) ∧
    (t.arg = s.arg ∨
      (∃ k w rest, 4 ≤ k ∧ k < 12 ∧ s.inputs = .write (s.params.regBase + 4 * k) .word w :: rest) ∨
      (∃ w rest, s.inputs = .write (s.params.regBase + 0x04) .word w :: rest ∧ w.getLsbD 0 = true) ∨
      ∃ rest, s.inputs = .powerOn :: rest) ∧
    (t.cmd = s.cmd ∨ (∃ rest, s.inputs = .write (s.params.regBase + 0x0C) .word t.cmd :: rest) ∨
      (∃ w rest, s.inputs = .write (s.params.regBase + 0x04) .word w :: rest ∧ w.getLsbD 0 = true) ∨
      ∃ rest, s.inputs = .powerOn :: rest)

/-- R380: power-on reset sets every register and the latched state to 0, with ID and MEMTOP hard-wired and IRQ 0; every
LM byte takes a drawn value (which draw is the model's, log 16); the state the model calls reset has those register
values. -/
def Obligations.PowerOnResetValues : Prop :=
  (∀ s : State, readReg s .id = 0x524C4507#32 ∧ readReg s .memtop = BitVec.ofNat 32 (s.params.memSize - 1)) ∧
  (∀ (s : State) (rest : List Input), s.inputs = .powerOn :: rest → s.lm.wf = true →
    ∃ (lm' : Memory) (n : Nat) (t : State), step s = .next t ∧ t.irq = false ∧ t = { s with
        inputs := rest
        ie := false
        status := ⟨false, false, false, false, false, .none⟩
        cmd := 0#32
        arg := Vector.replicate 8 0#32
        res := Vector.replicate 4 0#32
        lcmd := 0#32
        larg := Vector.replicate 8 0#32
        lm := lm'
        draws := n } ∧
      n = s.draws + s.params.memSize ∧ ∀ a, a < s.params.memSize → lm'.read a = Config.drawByte (s.draws + a)) ∧
  State.reset.ie = false ∧ State.reset.status = ⟨false, false, false, false, false, .none⟩ ∧ State.reset.cmd = 0#32 ∧
  State.reset.arg = Vector.replicate 8 0#32 ∧ State.reset.res = Vector.replicate 4 0#32 ∧ State.reset.lcmd = 0#32 ∧
  State.reset.larg = Vector.replicate 8 0#32 ∧ State.reset.irq = false

/-- R6, R44, R380: the reset state meets the invariant. -/
def Obligations.ResetMeetsInvariant : Prop := State.reset.Inv

/-- R6, R38, R44, R132: every step keeps the invariant: legal parameters, LM canonical and inside its MEM_SIZE bytes, CMD
the latched word, nothing reported while a command is pending. -/
def Obligations.StepKeepsInvariant : Prop := ∀ s t : State, s.Inv → step s = .next t → t.Inv

/-! ### Every command -/

/-- R340: every command completes: either with `ok`, or with an error code, and then STATUS alone changes: ERR 1, ERRCODE
the code, DONE 1, BUSY 0. -/
def Obligations.EveryCommandCompletes : Prop :=
  ∀ (i : Instr) (s : State),
    (∃ lm res trunc draws, exec i s = .next (s.completedWith lm res trunc draws)) ∨
    ∃ code, code ≠ .none ∧ exec i s = .next (s.failedWith code)

/-- R132, R276, R344: what no command changes: everything but LM, RES, STATUS and the draws; STATUS.OVR; TRUNC is raised
only by the two decoders; draws are taken only by QUANT and PACK565 with a drawing strategy. -/
def Obligations.CommandFrame : Prop :=
  ∀ (i : Instr) (s t : State), exec i s = .next t →
    t = { s with lm := t.lm, res := t.res, status := t.status, draws := t.draws } ∧
    t.status.ovr = s.status.ovr ∧ t.status.busy = false ∧ t.status.done = true ∧
    (t.status.errcode = .none → t.status.err = s.status.err) ∧
    (t.status.trunc = true → s.status.trunc = true ∨ i = .decFrm ∨ i = .blkDec) ∧
    s.draws ≤ t.draws ∧
    (t.draws = s.draws ∨ ∃ c st, Strategy.ofCode c = some st ∧ st.drawing = true ∧
      ((∃ n g, i = .quant c n g) ∨ ∃ d, i = .pack565 c d ∨ i = .pack565 d c))

/-- R41: RES registers are written only by a command that names them and succeeds, never by a Host access but a soft
reset. -/
def Obligations.OnlyNamedResultsChange : Prop :=
  (∀ (i : Instr) (s t : State) (k : Fin 4), exec i s = .next t →
    k ∉ i.namedResults ∨ t.status.errcode ≠ .none → t.res[k] = s.res[k]) ∧
  (∀ (s t : State) (addr : Nat) (wd : Width) (rest : List Input), s.inputs = .read addr wd :: rest →
    step s = .next t → t.res = s.res) ∧
  ∀ (s t : State) (addr : Nat) (wd : Width) (v : Word) (rest : List Input), s.inputs = .write addr wd v :: rest →
    step s = .next t → t.res = s.res ∨ (addr = s.params.regBase + 0x04 ∧ v.getLsbD 0 = true)

/-- R138: the destination regions of a command, its w and u entries, hold the only LM bytes it may change. -/
def Obligations.OnlyDestinationsChange : Prop :=
  ∀ (i : Instr) (s t : State), exec i s = .next t → unchangedOutside s.lm t.lm (destinations s i)

/-- R40, R131: a command's outcome is a function of the latched arguments, LM, the parameters and the draws: two states
that agree on those complete with the same outcome. -/
def Obligations.CommandReadsOnlyLatchedState : Prop :=
  ∀ (i : Instr) (s s' : State), s'.larg = s.larg → s'.lm = s.lm → s'.params = s.params → s'.draws = s.draws →
    ∃ o : CmdOutcome, exec i s = .next (s.complete o) ∧ exec i s' = .next (s'.complete o)

/-- R87, R138: when two entries conflict; no command completes without error while two entries of its list do; and which
regions each command's list holds, as r, as w and as u entries, for descriptors that lie in LM. -/
def Obligations.OverlappingRegionsAreRejected : Prop :=
  (∀ e f : RegionEntry, e.conflicts f = true ↔
    (1 ≤ e.region.size ∧ 1 ≤ f.region.size ∧ e.region.start < f.region.start + f.region.size ∧
      f.region.start < e.region.start + e.region.size) ∧ (e.use ≠ .read ∨ f.use ≠ .read)) ∧
  (∀ (i : Instr) (s t : State), exec i s = .next t → t.status.errcode = .none →
    (regionEntries s i).Pairwise fun e f => e.conflicts f = false) ∧
  ∀ s : State,
    let src : Region := ⟨s.argNat 0, s.argNat 1⟩
    let dst : Region := ⟨s.argNat 2, s.argNat 3⟩
    let pbd := fun k : Fin 8 => (⟨s.argNat k, 16⟩ : Region)
    let storage := fun k : Fin 8 => (⟨(s.pbdArg k).base, (s.pbdArg k).cap⟩ : Region)
    let inLm := fun k : Fin 8 => s.argNat k + 16 ≤ s.params.memSize
    let array := fun n => ⟨s.argNat 0, 16 * n⟩ ::
      (List.range n).map fun j => (⟨(s.arrayPbd j).base, (s.arrayPbd j).cap⟩ : Region)
    let tiles := s.argNat 1 * s.argNat 2
    let plane := fun (k : Fin 8) (w h : Fin 8) => (⟨s.argNat k, s.argNat w * s.argNat h⟩ : Region)
    s.hasRegions .nop [] [] [] ∧
    (∀ n g, s.hasRegions (.qlookup n g) [] [] []) ∧
    (∀ i ∈ [Instr.ident, .ftHdr, .ftEnt, .blkHdr], s.hasRegions i [src] [] []) ∧
    (inLm 3 → ∀ i ∈ [Instr.decFrm, .blkDec], s.hasRegions i [src] [storage 3] [pbd 3]) ∧
    (s.RegionIn (s.argNat 0) (16 * s.argNat 1) → ∀ i ∈ [Instr.encS16, .encC16],
      s.hasRegions i (array (s.argNat 1)) [dst] []) ∧
    (s.RegionIn (s.argNat 0) (16 * tiles) → inLm 5 → s.hasRegions .blkStitch (array tiles) [storage 5] [pbd 5]) ∧
    (inLm 0 → s.hasRegions .blkEnc [pbd 0, storage 0] [dst] []) ∧
    (inLm 0 → s.hasRegions .pbGet [pbd 0, storage 0] [] []) ∧
    (inLm 0 → s.hasRegions .pbSet [pbd 0] [storage 0] []) ∧
    (inLm 0 → inLm 5 → ∀ i ∈ [Instr.pbCrop, .pbShift], s.hasRegions i [pbd 0, storage 0] [storage 5] [pbd 5]) ∧
    (inLm 0 → inLm 5 → ∀ i ∈ [Instr.pbBlit false, .pbBlit true, .pbXplant],
      s.hasRegions i [pbd 0, storage 0, pbd 5] [] [storage 5]) ∧
    (∀ c n g, s.hasRegions (.quant c n g) [] [] [plane 0 1 2]) ∧
    (inLm 7 → ∀ c d, s.hasRegions (.pack565 c d) [plane 0 4 5, plane 1 4 5, plane 2 4 5, plane 3 4 5] [storage 7] [pbd 7])

/-- R74, R77, R134: the checks of a descriptor operand, in order, for every command whose first operand is an input
descriptor; those of a descriptor array, its descriptors in index order, for ENC_S16, ENC_C16 and BLK_STITCH; and no command
completes without error unless every descriptor it names, in an array or not, passes its checks and every region of its
list lies in LM. -/
def Obligations.DescriptorChecks : Prop :=
  (∀ (i : Instr) (s : State), 0 ∈ i.inputPbds →
    (s.argNat 0 % 4 ≠ 0 → exec i s = .next (s.failedWith .align)) ∧
    (s.argNat 0 % 4 = 0 → s.params.memSize < s.argNat 0 + 16 → exec i s = .next (s.failedWith .addrRange)) ∧
    (s.argNat 0 % 4 = 0 → s.argNat 0 + 16 ≤ s.params.memSize → (s.pbdArg 0).base % 2 ≠ 0 →
      exec i s = .next (s.failedWith .align)) ∧
    (s.argNat 0 % 4 = 0 → s.argNat 0 + 16 ≤ s.params.memSize → (s.pbdArg 0).base % 2 = 0 →
      ¬s.RegionIn (s.pbdArg 0).base (s.pbdArg 0).cap → exec i s = .next (s.failedWith .addrRange)) ∧
    (s.OutputPbd 0 → ¬(s.pbdArg 0).Fits → exec i s = .next (s.failedWith .capacity))) ∧
  (∀ (i : Instr) (s : State) (n : Nat), s.arrayCount i = some n →
    (s.argNat 0 % 4 ≠ 0 → exec i s = .next (s.failedWith .align)) ∧
    (s.argNat 0 % 4 = 0 → ¬s.RegionIn (s.argNat 0) (16 * n) → exec i s = .next (s.failedWith .addrRange)) ∧
    (s.argNat 0 % 4 = 0 → s.RegionIn (s.argNat 0) (16 * n) → ∀ k < n,
      (∀ j < k, s.StorageOk (s.arrayPbd j) ∧ (s.arrayPbd j).Fits) →
      ((s.arrayPbd k).base % 2 ≠ 0 → exec i s = .next (s.failedWith .align)) ∧
      ((s.arrayPbd k).base % 2 = 0 → ¬s.RegionIn (s.arrayPbd k).base (s.arrayPbd k).cap →
        exec i s = .next (s.failedWith .addrRange)) ∧
      (s.StorageOk (s.arrayPbd k) → ¬(s.arrayPbd k).Fits → exec i s = .next (s.failedWith .capacity)))) ∧
  ∀ (i : Instr) (s t : State), exec i s = .next t → t.status.errcode = .none →
    (∀ k ∈ i.inputPbds, s.InputPbd k) ∧ (∀ k ∈ i.outputPbds, s.OutputPbd k) ∧
    (∀ n, s.arrayCount i = some n → s.InputPbds n) ∧
    ∀ e ∈ regionEntries s i, s.RegionIn e.region.start e.region.size

/-! ### NOP and the raster pipeline -/

/-- R137: NOP completes with no write, no result and TRUNC 0. -/
def Obligations.NopResult : Prop := ∀ s : State, exec .nop s = .next (s.completedWith s.lm s.res false s.draws)

/-- R152: PB_GET gives the pixel at (x, y), 0 out of range, and writes nothing. -/
def Obligations.PbGetResult : Prop :=
  ∀ s : State, s.InputPbd 0 →
    let p := s.pbdArg 0
    let x := s.argInt 1
    let y := s.argInt 2
    exec .pbGet s = .next (s.completedWith s.lm (s.res.set 0 (BitVec.ofNat 32
      (if 0 ≤ x ∧ x < p.width ∧ 0 ≤ y ∧ y < p.height then s.lm.readLe (p.base + 2 * (y.toNat * p.width + x.toNat)) 2
       else 0))) false s.draws)

/-- R153: PB_SET stores the value at (x, y), 2 bytes at the pixel's address; out of range it completes and stores
nothing; a buffer whose storage overlaps its own descriptor ends with E_OVERLAP. -/
def Obligations.PbSetResult : Prop :=
  ∀ s : State, s.InputPbd 0 →
    let p := s.pbdArg 0
    let x := s.argInt 1
    let y := s.argInt 2
    (¬s.NoOverlap .pbSet → exec .pbSet s = .next (s.failedWith .overlap)) ∧
    (s.NoOverlap .pbSet → s.lm.wf = true →
      ∃ lm', exec .pbSet s = .next (s.completedWith lm' s.res false s.draws) ∧
        (0 ≤ x ∧ x < p.width ∧ 0 ≤ y ∧ y < p.height →
          lm'.readLe (pixelAddress p x y) 2 = (s.arg16 3).toNat ∧
            unchangedOutside s.lm lm' [⟨pixelAddress p x y, 2⟩]) ∧
        (¬(0 ≤ x ∧ x < p.width ∧ 0 ≤ y ∧ y < p.height) → lm' = s.lm))

/-- R154: PB_CROP's output descriptor, capacity and overlap checks; and the window of the source, 0 outside it, written
to the output descriptor. -/
def Obligations.PbCropResult : Prop :=
  ∀ s : State, s.InputPbd 0 →
    (∀ e, s.PbdFails 5 false e → exec .pbCrop s = .next (s.failedWith e)) ∧
    (s.OutputPbd 5 →
      ((s.pbdArg 5).cap < 2 * s.argNat 3 * s.argNat 4 → exec .pbCrop s = .next (s.failedWith .capacity)) ∧
      (2 * s.argNat 3 * s.argNat 4 ≤ (s.pbdArg 5).cap →
        (¬s.NoOverlap .pbCrop → exec .pbCrop s = .next (s.failedWith .overlap)) ∧
        (s.NoOverlap .pbCrop → s.lm.wf = true →
          ∃ lm', exec .pbCrop s = .next (s.completedWith lm' s.res false s.draws) ∧
            s.wroteBuffer lm' 5 (s.argNat 3) (s.argNat 4) fun x y =>
              (s.bufferArg 0).get (x + s.argInt 1) (y + s.argInt 2))))

/-- R155: PB_SHIFT's output descriptor, capacity and overlap checks; and the source moved by (dx, dy), in a buffer of the
same size, written to the output descriptor. -/
def Obligations.PbShiftResult : Prop :=
  ∀ s : State, s.InputPbd 0 →
    let p := s.pbdArg 0
    (∀ e, s.PbdFails 5 false e → exec .pbShift s = .next (s.failedWith e)) ∧
    (s.OutputPbd 5 →
      ((s.pbdArg 5).cap < 2 * p.width * p.height → exec .pbShift s = .next (s.failedWith .capacity)) ∧
      (2 * p.width * p.height ≤ (s.pbdArg 5).cap →
        (¬s.NoOverlap .pbShift → exec .pbShift s = .next (s.failedWith .overlap)) ∧
        (s.NoOverlap .pbShift → s.lm.wf = true →
          ∃ lm', exec .pbShift s = .next (s.completedWith lm' s.res false s.draws) ∧
            s.wroteBuffer lm' 5 p.width p.height fun x y =>
              (s.bufferArg 0).get (x - s.argInt 1) (y - s.argInt 2))))

/-- R156, R151: PB_BLIT's destination descriptor and overlap checks; and the source drawn into the destination's storage,
clipped; with ALPHA = 1 mask pixels of the source are not drawn. -/
def Obligations.PbBlitResult : Prop :=
  ∀ (s : State) (alpha : Bool), s.InputPbd 0 →
    let D := s.pbdArg 5
    (∀ e, s.PbdFails 5 true e → exec (.pbBlit alpha) s = .next (s.failedWith e)) ∧
    (s.InputPbd 5 → ¬s.NoOverlap (.pbBlit alpha) → exec (.pbBlit alpha) s = .next (s.failedWith .overlap)) ∧
    (s.InputPbd 5 → s.NoOverlap (.pbBlit alpha) → s.lm.wf = true →
      ∃ lm', exec (.pbBlit alpha) s = .next (s.completedWith lm' s.res false s.draws) ∧
        holdsPixels lm' D.base D.width D.height (fun x y =>
          if (s.bufferArg 0).inside (x - s.argInt 1) (y - s.argInt 2) = true ∧
              ¬(alpha = true ∧ (s.bufferArg 0).get (x - s.argInt 1) (y - s.argInt 2) = 0#16) then
            (s.bufferArg 0).get (x - s.argInt 1) (y - s.argInt 2)
          else (s.bufferArg 5).get x y) ∧
        unchangedOutside s.lm lm' [⟨D.base, 2 * D.width * D.height⟩])

/-- R157: PB_XPLANT's destination descriptor and overlap checks; and an opaque pixel of the destination given the source's
colour where that is in range and not 0, every other pixel left. -/
def Obligations.PbXplantResult : Prop :=
  ∀ s : State, s.InputPbd 0 →
    let D := s.pbdArg 5
    (∀ e, s.PbdFails 5 true e → exec .pbXplant s = .next (s.failedWith e)) ∧
    (s.InputPbd 5 → ¬s.NoOverlap .pbXplant → exec .pbXplant s = .next (s.failedWith .overlap)) ∧
    (s.InputPbd 5 → s.NoOverlap .pbXplant → s.lm.wf = true →
      ∃ lm', exec .pbXplant s = .next (s.completedWith lm' s.res false s.draws) ∧
        holdsPixels lm' D.base D.width D.height (fun x y =>
          if (s.bufferArg 5).get x y ≠ 0#16 ∧ (s.bufferArg 0).get (x - s.argInt 1) (y - s.argInt 2) ≠ 0#16 then
            (s.bufferArg 0).get (x - s.argInt 1) (y - s.argInt 2)
          else (s.bufferArg 5).get x y) ∧
        unchangedOutside s.lm lm' [⟨D.base, 2 * D.width * D.height⟩])

/-- R151: the blit the model computes pixel by pixel is the loop of the rule, and keeps the destination's size. -/
def Obligations.BlitIsTheLoopOfTheRule : Prop :=
  ∀ (D S : PixelBuffer) (dx dy : Int) (alpha : Bool), D.wf = true →
    blitLoop D S dx dy alpha = D.blit S dx dy alpha ∧
    (blitLoop D S dx dy alpha).width = D.width ∧ (blitLoop D S dx dy alpha).height = D.height

/-- R158: the five laws of the raster pipeline. -/
def Obligations.RasterLaws : Prop :=
  (∀ s t : State, s.InputPbd 0 → s.lm.wf = true → exec .pbSet s = .next t → t.status.errcode = .none →
    0 ≤ s.argInt 1 ∧ s.argInt 1 < (s.pbdArg 0).width ∧ 0 ≤ s.argInt 2 ∧ s.argInt 2 < (s.pbdArg 0).height →
    ∃ u, exec .pbGet t = .next u ∧ u.res[(0 : Fin 4)] = (s.arg16 3).setWidth 32) ∧
  (∀ S : PixelBuffer, S.wf = true → S.crop 0 0 S.width S.height = S) ∧
  (∀ (S : PixelBuffer) (dx dy : Int) (x y : Nat), x < S.width → y < S.height →
    ((S.shift dx dy).shift (-dx) (-dy)).get x y = if S.inside (x + dx) (y + dy) = true then S.get x y else 0#16) ∧
  (∀ (D S : PixelBuffer) (dx dy : Int) (x y : Nat), x < D.width → y < D.height →
    ((D.transplant S dx dy).get x y = 0#16 ↔ D.get x y = 0#16)) ∧
  ∀ (D S : PixelBuffer) (dx dy : Int), D.wf = true → (∀ p ∈ S.data, p = 0#16) → D.blit S dx dy true = D

/-! ### Frame table and RLE codec -/

/-- R182, R192: IDENT gives the descriptor word of the stream's magic, 0 when it is none of the six or the stream has
fewer than 4 bytes; only the stream region can be in error. -/
def Obligations.IdentResult : Prop :=
  (∀ s : State, s.RegionIn (s.argNat 0) (s.argNat 1) →
    exec .ident s = .next (s.completedWith s.lm (s.res.set 0 (identifyWord s.stream)) false s.draws)) ∧
  (∀ s : State, ¬s.RegionIn (s.argNat 0) (s.argNat 1) → exec .ident s = .next (s.failedWith .addrRange)) ∧
  ∀ st : List Byte,
    (st.length < 4 → identifyWord st = 0#32) ∧
    (4 ≤ st.length → in32 st false 0 = 0x00000000 → identifyWord st = 0x80000000#32) ∧
    (4 ≤ st.length → in32 st false 0 = 0x00000001 → identifyWord st = 0x80000002#32) ∧
    (4 ≤ st.length → in32 st false 0 = 0x00000002 → identifyWord st = 0x80000001#32) ∧
    (4 ≤ st.length → in32 st false 0 = 0x00000003 → identifyWord st = 0x80000003#32) ∧
    (4 ≤ st.length → in32 st false 0 = 0x01000000 → identifyWord st = 0x8000000A#32) ∧
    (4 ≤ st.length → in32 st false 0 = 0x03000000 → identifyWord st = 0x8000000B#32) ∧
    (in32 st false 0 ∉ [0x00000000, 0x00000001, 0x00000002, 0x00000003, 0x01000000, 0x03000000] →
      identifyWord st = 0#32)

/-- R193: FT_HDR's checks in their order, and its results: the descriptor word and the frame count in the stream's byte
order. -/
def Obligations.FtHdrResult : Prop :=
  ∀ s : State,
    (¬s.RegionIn (s.argNat 0) (s.argNat 1) → exec .ftHdr s = .next (s.failedWith .addrRange)) ∧
    (s.RegionIn (s.argNat 0) (s.argNat 1) →
      (s.argNat 1 < 4 → exec .ftHdr s = .next (s.failedWith .truncatedHeader)) ∧
      (4 ≤ s.argNat 1 → identify s.stream = none → exec .ftHdr s = .next (s.failedWith .unknownFormat)) ∧
      ∀ d, identify s.stream = some d →
        (s.argNat 1 < 6 → exec .ftHdr s = .next (s.failedWith .truncatedHeader)) ∧
        (6 ≤ s.argNat 1 → exec .ftHdr s = .next (s.completedWith s.lm
          ((s.res.set 0 d.word).set 1 (BitVec.ofNat 32 (in16 s.stream d.big 4))) false s.draws)))

/-- R184, R185, R186, R194: where entry k stands, FT_ENT's checks in their order, and its results. -/
def Obligations.FtEntResult : Prop :=
  (∀ (st : List Byte) (d : Descriptor) (k : Nat), d.compressed = false → entryPosition st d k = 6 + 8 * k) ∧
  (∀ (st : List Byte) (d : Descriptor) (k : Nat), d.compressed = true → entryPosition st d 0 = 6 ∧
    entryPosition st d (k + 1) =
      entryPosition st d k + 8 + 4 * (in16 st d.big (entryPosition st d k + 6) - 1)) ∧
  ∀ s : State,
    (¬s.RegionIn (s.argNat 0) (s.argNat 1) → exec .ftEnt s = .next (s.failedWith .addrRange)) ∧
    (s.RegionIn (s.argNat 0) (s.argNat 1) →
      (s.argNat 1 < 4 → exec .ftEnt s = .next (s.failedWith .truncatedHeader)) ∧
      (4 ≤ s.argNat 1 → identify s.stream = none → exec .ftEnt s = .next (s.failedWith .unknownFormat)) ∧
      ∀ d, identify s.stream = some d →
        let k := s.argNat 2
        let p := entryPosition s.stream d k
        (s.argNat 1 < 6 → exec .ftEnt s = .next (s.failedWith .truncatedHeader)) ∧
        (6 ≤ s.argNat 1 → in16 s.stream d.big 4 ≤ k → exec .ftEnt s = .next (s.failedWith .frameIndex)) ∧
        (6 ≤ s.argNat 1 → k < in16 s.stream d.big 4 → s.argNat 1 < p + 8 →
          exec .ftEnt s = .next (s.failedWith .truncatedHeader)) ∧
        (6 ≤ s.argNat 1 → k < in16 s.stream d.big 4 → p + 8 ≤ s.argNat 1 →
          exec .ftEnt s = .next (s.completedWith s.lm
            ((((s.res.set 0 (BitVec.ofNat 32 (in32 s.stream d.big p))).set 1
              (BitVec.ofNat 32 (in16 s.stream d.big (p + 4)))).set 2
              (BitVec.ofNat 32 (in16 s.stream d.big (p + 6)))).set 3 (BitVec.ofNat 32 p)) false s.draws)))

/-- R187, R189, R190, R191, R195: DEC_FRM's checks in their order; the decoded frame written to the output descriptor and
reported with its descriptor word, width and height; a raw frame's pixels are the stream's samples, converted, with 0 past
its end; a compressed frame is what the loop of R190 gives, on every stream; RGB555 samples move to the RGB565 layout, the
green field's top bit copied to its new low bit and bit 15 dropped, and RGB565 samples stay. -/
def Obligations.DecFrmResult : Prop :=
  (∀ s : State,
    (¬s.RegionIn (s.argNat 0) (s.argNat 1) → exec .decFrm s = .next (s.failedWith .addrRange)) ∧
    (s.RegionIn (s.argNat 0) (s.argNat 1) →
      (∀ e, s.PbdFails 3 false e → exec .decFrm s = .next (s.failedWith e)) ∧
      (s.OutputPbd 3 →
        (s.argNat 1 < 4 → exec .decFrm s = .next (s.failedWith .truncatedHeader)) ∧
        (4 ≤ s.argNat 1 → identify s.stream = none → exec .decFrm s = .next (s.failedWith .unknownFormat)) ∧
        ∀ d, identify s.stream = some d →
          let k := s.argNat 2
          let count := in16 s.stream d.big 4
          let p := entryPosition s.stream d k
          let e := entryAt s.stream d p
          let P := decodeEntry s.stream d e
          (s.argNat 1 < 6 → exec .decFrm s = .next (s.failedWith .truncatedHeader)) ∧
          (6 ≤ s.argNat 1 → count ≤ k → exec .decFrm s = .next (s.failedWith .frameIndex)) ∧
          (6 ≤ s.argNat 1 → k < count → s.argNat 1 < p + 8 →
            exec .decFrm s = .next (s.failedWith .truncatedHeader)) ∧
          (6 ≤ s.argNat 1 → k < count → p + 8 ≤ s.argNat 1 →
            ((s.pbdArg 3).cap < 2 * e.width * e.height → exec .decFrm s = .next (s.failedWith .capacity)) ∧
            (2 * e.width * e.height ≤ (s.pbdArg 3).cap →
              (¬s.NoOverlap .decFrm → exec .decFrm s = .next (s.failedWith .overlap)) ∧
              (s.NoOverlap .decFrm → s.lm.wf = true →
                ∃ lm', exec .decFrm s = .next (s.completedWith lm'
                    (((s.res.set 0 d.word).set 1 (BitVec.ofNat 32 e.width)).set 2 (BitVec.ofNat 32 e.height)) P.2
                    s.draws) ∧
                  s.wroteBuffer lm' 3 e.width e.height fun x y => P.1.data.getD (y * e.width + x) 0#16)))))) ∧
  (∀ (st : List Byte) (d : Descriptor) (e : FrameEntry), d.compressed = false →
    (∀ i < e.width * e.height, (decodeEntry st d e).1.data.getD i 0#16 =
      conv d (BitVec.ofNat 16 (in16 st d.big (e.offset + 2 * i)))) ∧
    ((decodeEntry st d e).2 = true ↔ 0 < e.width * e.height ∧ st.length < e.offset + 2 * (e.width * e.height))) ∧
  (∀ (st : List Byte) (d : Descriptor) (e : FrameEntry), d.compressed = true →
    rleLoop (st.length + 1) st d e.offset e.width e.height = some (decodeEntry st d e)) ∧
  ∀ (d : Descriptor) (v : Pixel),
    (d.layout = .rgb555 →
      (conv d v).extractLsb' 11 5 = v.extractLsb' 10 5 ∧ (conv d v).extractLsb' 6 5 = v.extractLsb' 5 5 ∧
      (conv d v).getLsbD 5 = v.getLsbD 9 ∧ (conv d v).extractLsb' 0 5 = v.extractLsb' 0 5) ∧
    (d.layout = .rgb565 → conv d v = v)

/-- R190, R139: the RLE decoder's bound on the runs of a row is never used up: any larger bound gives the same row (the
bound is the model's, log 15). -/
def Obligations.RleRunBoundIsNeverReached : Prop :=
  ∀ (st : List Byte) (d : Descriptor) (fuel pos : Nat), st.length + 1 ≤ fuel →
    decodeRuns st d fuel pos = decodeRuns st d (st.length + 1) pos

/-- R197, R200: ENC_S16 and ENC_C16 on input arrays that pass the operand checks: the range check of the output region,
the size check, the capacity check, the overlap check, and then the bytes of the container at dst with their number in
RES0. -/
def Obligations.EncoderResults : Prop :=
  ∀ (i : Instr) (bytesOf : List PixelBuffer → List Byte),
    (i = .encS16 ∧ bytesOf = s16Bytes) ∨ (i = .encC16 ∧ bytesOf = c16Bytes) →
    ∀ s : State, s.InputPbds (s.argNat 1) →
      let b := bytesOf (s.arrayBuffers (s.argNat 1))
      let fits := s.argNat 1 ≤ 65535 ∧
        ∀ k < s.argNat 1, (s.arrayPbd k).width ≤ 65535 ∧ (s.arrayPbd k).height ≤ 65535
      (¬s.RegionIn (s.argNat 2) (s.argNat 3) → exec i s = .next (s.failedWith .addrRange)) ∧
      (s.RegionIn (s.argNat 2) (s.argNat 3) →
        (¬fits → exec i s = .next (s.failedWith .dimOverflow)) ∧
        (fits → s.argNat 3 < b.length → exec i s = .next (s.failedWith .capacity)) ∧
        (fits → b.length ≤ s.argNat 3 → ¬s.NoOverlap i → exec i s = .next (s.failedWith .overlap)) ∧
        (fits → b.length ≤ s.argNat 3 → s.NoOverlap i → s.lm.wf = true →
          ∃ lm', exec i s = .next
              (s.completedWith lm' (s.res.set 0 (BitVec.ofNat 32 b.length)) false s.draws) ∧
            wroteBytes s.lm lm' (s.argNat 2) b))

/-- R202, R196: every frame written raw decodes to itself, nothing read past the end, whatever frames stand beside it, and
the length of the container. A frame that starts at or past byte 2^32 has a stored offset that wraps, so its start bounds
the claim; the first frame of a container starts before it. -/
def Obligations.RawFrameRoundTrip : Prop :=
  ∀ fs : List PixelBuffer, fs.length ≤ 65535 → (∀ F ∈ fs, F.wf = true ∧ F.width ≤ 65535 ∧ F.height ≤ 65535) →
    let start := fun k => 6 + 8 * fs.length + ((fs.take k).map fun F => 2 * F.width * F.height).sum
    (s16Bytes fs).length = start fs.length ∧ start 0 < 2 ^ 32 ∧
    ∀ (k : Nat) (hk : k < fs.length), start k < 2 ^ 32 → decodeFrame (s16Bytes fs) k = .ok (fs[k], false)

/-- R202, R199: every frame written run-length compressed decodes to itself, nothing read past the end, whatever frames
stand beside it. A frame that starts at or past byte 2^32 has a stored offset that wraps, so its start bounds the claim;
the only frame of a container of one starts before it. -/
def Obligations.RleFrameRoundTrip : Prop :=
  ∀ fs : List PixelBuffer, fs.length ≤ 65535 → (∀ F ∈ fs, F.wf = true ∧ F.width ≤ 65535 ∧ F.height ≤ 65535) →
    let start := fun k => c16TableSize fs + ((fs.take k).map fun F => (rleData F).length).sum
    (fs.length = 1 → start 0 < 2 ^ 32) ∧
    ∀ (k : Nat) (hk : k < fs.length), start k < 2 ^ 32 → decodeFrame (c16Bytes fs) k = .ok (fs[k], false)

/-- R203, R198: a row's runs are the row cut where the class changes; the runs of a row are those of each maximal run, in
order, each of one class and of 1 to 16383 pixels; a maximal run of length L is ceil(L / 16383) headers, all of 16383
pixels but the last, so 20000 equal opaque pixels are two or more. -/
def Obligations.RunsAreSplitAndBounded : Prop :=
  ∀ row : List Pixel,
    rowRle row = (rowChunks row).flatMap chunkBytes ++ [0#8, 0#8] ∧ (rowChunks row).flatten = row ∧
    (maximalRuns row).flatten = row ∧
    (∀ run ∈ maximalRuns row, run ≠ [] ∧ ∀ p ∈ run, opaquePixel p = opaqueChunk run) ∧
    (maximalRuns row).IsChain (fun r q => opaqueChunk r ≠ opaqueChunk q) ∧
    rowChunks row = (maximalRuns row).flatMap rowChunks ∧
    (∀ run ∈ maximalRuns row, (rowChunks run).flatten = run ∧ (rowChunks run).length = (run.length + 16382) / 16383 ∧
      ∀ c ∈ (rowChunks run).dropLast, c.length = 16383) ∧
    (∀ c ∈ rowChunks row, 1 ≤ c.length ∧ c.length ≤ 16383 ∧ (∀ p ∈ c, opaquePixel p = opaqueChunk c) ∧
      runHeader c ≠ 0 ∧ runHeader c / 2 = c.length ∧ (runHeader c % 2 = 1 ↔ opaqueChunk c = true)) ∧
    (rowChunks row).length = ((maximalRuns row).map fun run => (run.length + 16382) / 16383).sum ∧
    ∀ p : Pixel, p ≠ 0#16 → row = List.replicate 20000 p → 2 ≤ (rowChunks row).length

/-- R199, R201: the RLE writer's magic and frame count; its header and table have exactly the computed size, and the
first frame's data begins there; every frame's table entry, with where its data starts, its size, and where each row after
the first starts; the rows stand where they should and end with a 2-byte zero marker. A stored position is taken modulo
2^32, a stored size or count modulo 2^16. -/
def Obligations.C16TableHasItsComputedSize : Prop :=
  ∀ fs : List PixelBuffer,
    let st := c16Bytes fs
    let rowsSize := fun rows : List (List Pixel) => (rows.map fun r => (rowRle r).length).sum
    let entry := fun k => 6 + ((fs.take k).map fun F => 8 + 4 * (F.height - 1)).sum
    let start := fun k => entry fs.length + ((fs.take k).map fun F => rowsSize F.rows + 2).sum
    c16TableSize fs = entry fs.length ∧
    (leBytes 4 3 ++ leBytes 2 fs.length ++ c16Table (c16TableSize fs) fs).length = c16TableSize fs ∧
    st.length = start fs.length ∧ in32 st false 0 = 3 ∧ in16 st false 4 = fs.length % 2 ^ 16 ∧
    ∀ (k : Nat) (F : PixelBuffer), fs[k]? = some F →
      let row := fun y => start k + rowsSize (F.rows.take y)
      in32 st false (entry k) = start k % 2 ^ 32 ∧
      in16 st false (entry k + 4) = F.width % 2 ^ 16 ∧ in16 st false (entry k + 6) = F.height % 2 ^ 16 ∧
      (∀ y, 1 ≤ y → y < F.height → in32 st false (entry k + 8 + 4 * (y - 1)) = row y % 2 ^ 32) ∧
      (∀ y, y < F.height → (st.drop (row y)).take (rowRle (F.row y)).length = rowRle (F.row y)) ∧
      (st.drop (row F.height)).take 2 = [0#8, 0#8]

/-! ### BLK -/

/-- R231, R234: BLK_HDR's checks in their order, and its results. -/
def Obligations.BlkHdrResult : Prop :=
  ∀ s : State,
    (¬s.RegionIn (s.argNat 0) (s.argNat 1) → exec .blkHdr s = .next (s.failedWith .addrRange)) ∧
    (s.RegionIn (s.argNat 0) (s.argNat 1) →
      (s.argNat 1 < 4 → exec .blkHdr s = .next (s.failedWith .truncatedHeader)) ∧
      (4 ≤ s.argNat 1 → identify s.stream = none → exec .blkHdr s = .next (s.failedWith .unknownFormat)) ∧
      ∀ d, identify s.stream = some d →
        (d.big = true → exec .blkHdr s = .next (s.failedWith .unsupportedByteOrder)) ∧
        (d.big = false → d.compressed = true → exec .blkHdr s = .next (s.failedWith .unknownFormat)) ∧
        (d.big = false → d.compressed = false → s.argNat 1 < 10 →
          exec .blkHdr s = .next (s.failedWith .truncatedHeader)) ∧
        (d.big = false → d.compressed = false → 10 ≤ s.argNat 1 →
          exec .blkHdr s = .next (s.completedWith s.lm
            ((((s.res.set 0 d.word).set 1 (BitVec.ofNat 32 (in16 s.stream false 4))).set 2
              (BitVec.ofNat 32 (in16 s.stream false 6))).set 3 (BitVec.ofNat 32 (in16 s.stream false 8)))
            false s.draws)))

/-- R231, R233, R235: BLK_DEC's checks in their order, those of BLK_HDR first; then tile k, whose data starts after the
data of tiles 0 to k - 1, written to the output descriptor. -/
def Obligations.BlkDecResult : Prop :=
  ∀ s : State,
    (¬s.RegionIn (s.argNat 0) (s.argNat 1) → exec .blkDec s = .next (s.failedWith .addrRange)) ∧
    (s.RegionIn (s.argNat 0) (s.argNat 1) →
      (∀ e, s.PbdFails 3 false e → exec .blkDec s = .next (s.failedWith e)) ∧
      (s.OutputPbd 3 →
        (s.argNat 1 < 4 → exec .blkDec s = .next (s.failedWith .truncatedHeader)) ∧
        (4 ≤ s.argNat 1 → identify s.stream = none → exec .blkDec s = .next (s.failedWith .unknownFormat)) ∧
        ∀ d, identify s.stream = some d →
          (d.big = true → exec .blkDec s = .next (s.failedWith .unsupportedByteOrder)) ∧
          (d.big = false → d.compressed = true → exec .blkDec s = .next (s.failedWith .unknownFormat)) ∧
          (d.big = false → d.compressed = false → s.argNat 1 < 10 →
            exec .blkDec s = .next (s.failedWith .truncatedHeader)) ∧
          (d.big = false → d.compressed = false → 10 ≤ s.argNat 1 →
            let k := s.argNat 2
            let count := in16 s.stream false 8
            let w := in16 s.stream false (14 + 8 * k)
            let h := in16 s.stream false (16 + 8 * k)
            let q := 10 + 8 * count + ((List.range k).map fun j =>
              2 * (in16 s.stream false (14 + 8 * j) * in16 s.stream false (16 + 8 * j))).sum
            (count ≤ k → exec .blkDec s = .next (s.failedWith .frameIndex)) ∧
            (k < count → s.argNat 1 < 18 + 8 * k → exec .blkDec s = .next (s.failedWith .truncatedHeader)) ∧
            (k < count → 18 + 8 * k ≤ s.argNat 1 →
              ((s.pbdArg 3).cap < 2 * w * h → exec .blkDec s = .next (s.failedWith .capacity)) ∧
              (2 * w * h ≤ (s.pbdArg 3).cap →
                (¬s.NoOverlap .blkDec → exec .blkDec s = .next (s.failedWith .overlap)) ∧
                (s.NoOverlap .blkDec → s.lm.wf = true →
                  ∃ lm', exec .blkDec s = .next (s.completedWith lm'
                      ((s.res.set 0 (BitVec.ofNat 32 w)).set 1 (BitVec.ofNat 32 h))
                      (decide (0 < w * h ∧ s.argNat 1 < q + 2 * (w * h))) s.draws) ∧
                    s.wroteBuffer lm' 3 w h fun x y =>
                      conv d (BitVec.ofNat 16 (in16 s.stream false (q + 2 * (y * w + x))))))))))

/-- R237, R136: BLK_STITCH's output descriptor, capacity and overlap checks; and the stitched tiles written to the output
descriptor, with the size reported. A dimension past 2^32 - 1, possible beside a zero one, ends with E_CAPACITY: the
model's reading of R136 (log 13). -/
def Obligations.BlkStitchResult : Prop :=
  ∀ s : State, s.InputPbds (s.argNat 1 * s.argNat 2) →
    let w := 128 * s.argNat 1
    let h := 128 * s.argNat 2
    let fits := w < 2 ^ 32 ∧ h < 2 ^ 32 ∧ 2 * w * h ≤ (s.pbdArg 5).cap
    (∀ e, s.PbdFails 5 false e → exec .blkStitch s = .next (s.failedWith e)) ∧
    (s.OutputPbd 5 →
      (¬fits → exec .blkStitch s = .next (s.failedWith .capacity)) ∧
      (fits → ¬s.NoOverlap .blkStitch → exec .blkStitch s = .next (s.failedWith .overlap)) ∧
      (fits → s.NoOverlap .blkStitch → s.lm.wf = true →
        ∃ lm', exec .blkStitch s = .next (s.completedWith lm'
            ((s.res.set 0 (BitVec.ofNat 32 w)).set 1 (BitVec.ofNat 32 h)) false s.draws) ∧
          s.wroteBuffer lm' 5 w h fun x y =>
            (stitch (s.argNat 1) (s.argNat 2) (s.arrayBuffers (s.argNat 1 * s.argNat 2))).get x y))

/-- R236: the stitching the model computes is the loop of the rule, whatever the tiles' sizes; so a pixel is that of the
last tile, in column-major order, that reaches it from its cell's origin, and 0 where none does; stitching 128 x 128 tiles
puts tile k = x * bh + y in cell (x, y). -/
def Obligations.StitchIsColumnMajor : Prop :=
  ∀ (bw bh : Nat) (tiles : List PixelBuffer), tiles.length = bw * bh →
    let Q := stitch bw bh tiles
    let reaches := fun (k : Nat) (T : PixelBuffer) (x y : Nat) =>
      128 * (k / bh) ≤ x ∧ x < 128 * (k / bh) + T.width ∧ 128 * (k % bh) ≤ y ∧ y < 128 * (k % bh) + T.height
    stitchLoop bw bh tiles = Q ∧ Q.width = 128 * bw ∧ Q.height = 128 * bh ∧
    (∀ x y : Nat, x < 128 * bw → y < 128 * bh →
      (∀ (k : Nat) (T : PixelBuffer), tiles[k]? = some T → reaches k T x y →
        (∀ (j : Nat) (U : PixelBuffer), k < j → tiles[j]? = some U → ¬reaches j U x y) →
        Q.get x y = T.get (x - 128 * (k / bh) : Nat) (y - 128 * (k % bh) : Nat)) ∧
      ((∀ (k : Nat) (T : PixelBuffer), tiles[k]? = some T → ¬reaches k T x y) → Q.get x y = 0#16)) ∧
    ((∀ T ∈ tiles, T.wf = true ∧ T.width = 128 ∧ T.height = 128) →
      ∀ x y : Nat, x < 128 * bw → y < 128 * bh →
        ∃ T, tiles[x / 128 * bh + y / 128]? = some T ∧ Q.get x y = T.get (x % 128 : Nat) (y % 128 : Nat))

/-- R239: BLK_ENC on an input descriptor that passes the operand checks: the range check of the output region, the size
check, the capacity check, the overlap check, and then the BLK bytes at dst with their number and the tile counts in RES0
to RES3. -/
def Obligations.BlkEncResult : Prop :=
  ∀ s : State, s.InputPbd 0 →
    let bw := ((s.pbdArg 0).width + 127) / 128
    let bh := ((s.pbdArg 0).height + 127) / 128
    let b := blkBytes (s.bufferArg 0)
    let fits := bw ≤ 65535 ∧ bh ≤ 65535 ∧ bw * bh ≤ 65535
    (¬s.RegionIn (s.argNat 2) (s.argNat 3) → exec .blkEnc s = .next (s.failedWith .addrRange)) ∧
    (s.RegionIn (s.argNat 2) (s.argNat 3) →
      (¬fits → exec .blkEnc s = .next (s.failedWith .dimOverflow)) ∧
      (fits → s.argNat 3 < b.length → exec .blkEnc s = .next (s.failedWith .capacity)) ∧
      (fits → b.length ≤ s.argNat 3 → ¬s.NoOverlap .blkEnc → exec .blkEnc s = .next (s.failedWith .overlap)) ∧
      (fits → b.length ≤ s.argNat 3 → s.NoOverlap .blkEnc → s.lm.wf = true →
        ∃ lm', exec .blkEnc s = .next (s.completedWith lm'
            ((((s.res.set 0 (BitVec.ofNat 32 b.length)).set 1 (BitVec.ofNat 32 bw)).set 2 (BitVec.ofNat 32 bh)).set 3
              (BitVec.ofNat 32 (bw * bh))) false s.draws) ∧
          wroteBytes s.lm lm' (s.argNat 2) b))

/-- R238, R240: the BLK bytes of an image: their length, their header, and the stored offset of each tile, 4 less than
where its pixels stand; each tile is 128 x 128 and decodes from them with nothing read past the end, and the tiles stitched
are the image, padded with 0 to the next multiple of 128. -/
def Obligations.BlkRoundTrip : Prop :=
  ∀ I : PixelBuffer, I.wf = true →
    let bw := (I.width + 127) / 128
    let bh := (I.height + 127) / 128
    bw ≤ 65535 → bh ≤ 65535 → bw * bh ≤ 65535 →
    (blkBytes I).length = 10 + 32776 * (bw * bh) ∧
    blkHeader (blkBytes I) = .ok ⟨⟨false, .rgb565, false⟩, bw, bh, bw * bh⟩ ∧
    (∀ k < bw * bh, in32 (blkBytes I) false (10 + 8 * k) = 6 + 8 * (bw * bh) + 32768 * k ∧
      tilePosition (blkBytes I) (bw * bh) k = 10 + 8 * (bw * bh) + 32768 * k) ∧
    ∃ tiles : List PixelBuffer, tiles.length = bw * bh ∧ (∀ T ∈ tiles, T.width = 128 ∧ T.height = 128) ∧
      (∀ (k : Nat) (hk : k < tiles.length), decodeTile (blkBytes I) k = .ok (tiles[k], false)) ∧
      stitch bw bh tiles = I.crop 0 0 (128 * bw) (128 * bh) ∧
      (I.width = 128 * bw → I.height = 128 * bh → stitch bw bh tiles = I)

/-! ### Quantizer -/

/-- R286, R287: QUANT with legal fields: the range check of the plane; and the samples of the plane replaced in row-major
order, each by the strategy's output for that sample at its column and row, each taking the draws that follow those of the
sample before it, and nothing else changed. -/
def Obligations.QuantResult : Prop :=
  ∀ (s : State) (c : BitVec 5) (n : BitVec 4) (g : Bool) (st : Strategy), n.toNat ≤ 8 → Strategy.ofCode c = some st →
    let a := s.argNat 0
    let w := s.argNat 1
    let h := s.argNat 2
    let out := fun i k => quantise st g n.toNat (s.lm.read (a + i)).toNat (i % w) (i / w) k
    (¬s.RegionIn a (w * h) → exec (.quant c n g) s = .next (s.failedWith .addrRange)) ∧
    (s.RegionIn a (w * h) → s.lm.wf = true →
      ∃ (lm' : Memory) (before : Nat → Nat),
        exec (.quant c n g) s = .next (s.completedWith lm' s.res false (before (w * h))) ∧
        before 0 = s.draws ∧ (∀ i < w * h, before (i + 1) = (out i (before i)).2) ∧
        (∀ i < w * h, lm'.read (a + i) = BitVec.ofNat 8 (out i (before i)).1) ∧
        unchangedOutside s.lm lm' [⟨a, w * h⟩])

/-- R288: QLOOKUP reads out one entry of the tables for v = ARG0[7:0]. -/
def Obligations.QlookupResult : Prop :=
  ∀ (s : State) (n : BitVec 4) (g : Bool), n.toNat ≤ 8 →
    let v := s.argNat 0 % 256
    exec (.qlookup n g) s = .next (s.completedWith s.lm
      ((((s.res.set 0 (BitVec.ofNat 32 (trunc n.toNat v))).set 1 (BitVec.ofNat 32 (lowOf n.toNat v))).set 2
        (BitVec.ofNat 32 (highOf n.toNat v))).set 3
        (BitVec.ofNat 32 (if g then gammaFraction n.toNat v else linearFraction n.toNat v))) false s.draws)

/-- R261, R263 to R266, R289 (1) to (3): the truncation table repeats the top N bits of v downward, is 0 for N = 0, is
idempotent, keeps the top N bits and lies in the bracket; low is the greatest representable value at or below v, high, for N >= 1, the least at or above it; the linear
fraction is the floor of 65536 (v - low) / (high - low); both fractions are 0 where low = high; the gamma fractions obey
their three laws whatever the table. -/
def Obligations.BitDepthTableLaws : Prop :=
  (∀ N v : Nat, N ≤ 8 → v < 256 →
    (∀ j < 8, (trunc N v).testBit (7 - j) = (decide (1 ≤ N) && v.testBit (7 - j % N))) ∧ trunc N v < 256 ∧
    trunc N (trunc N v) = trunc N v ∧ (trunc N v = lowOf N v ∨ trunc N v = highOf N v) ∧
    (1 ≤ N → trunc N v >>> (8 - N) = v >>> (8 - N) ∧ trunc N ((v >>> (8 - N)) <<< (8 - N)) = trunc N v) ∧
    lowOf N v ≤ v ∧ (∃ u < 256, trunc N u = lowOf N v) ∧ (∀ u < 256, trunc N u ≤ v → trunc N u ≤ lowOf N v) ∧
    (1 ≤ N → v ≤ highOf N v ∧ (∃ u < 256, trunc N u = highOf N v) ∧
      ∀ u < 256, v ≤ trunc N u → highOf N v ≤ trunc N u) ∧
    highOf 0 v = 0 ∧
    (lowOf N v < highOf N v →
      linearFraction N v * (highOf N v - lowOf N v) ≤ 65536 * (v - lowOf N v) ∧
      65536 * (v - lowOf N v) < (linearFraction N v + 1) * (highOf N v - lowOf N v) ∧ linearFraction N v ≤ 65535)) ∧
  (∀ N v : Nat, lowOf N v = highOf N v → linearFraction N v = 0 ∧ gammaFraction N v = 0) ∧
  (∀ N v : Nat, gammaFraction N v ≤ 65535) ∧
  ∀ N v w : Nat, lowOf N v = lowOf N w → highOf N v = highOf N w → v ≤ w → gammaFraction N v ≤ gammaFraction N w

/-- R268 to R272: in every pattern set all patterns have one size, each is scored by its number of ones, and the scores
strictly increase; `checkers` is all 0, the checkerboard and all 1; `always-checkers` is the checkerboard; a threshold set
has a permutation of 0 to k * k - 1 as its matrix M, and its pattern t is 1 where M[y][x] < t, for t = 0 to k * k. The
matrices of bayer2 and bayer4 are the spec's general knowledge (log 22), those of the blue-noise sets free (log 7). -/
def Obligations.PatternSetsAreScoredAndOrdered : Prop :=
  (∀ set : PatternSet,
    (∀ p ∈ patterns set, p.ones = (List.range (p.width * p.height)).countP fun i => p.bit (i % p.width) (i / p.width)) ∧
    (∀ p ∈ patterns set, ∀ q ∈ patterns set, p.width = q.width ∧ p.height = q.height) ∧
    (patterns set).Pairwise fun p q => p.ones < q.ones) ∧
  (patterns .checkers).map Pattern.rows = [[[0, 0], [0, 0]], [[0, 1], [1, 0]], [[1, 1], [1, 1]]] ∧
  (patterns .alwaysCheckers).map Pattern.rows = [[[0, 1], [1, 0]]] ∧
  ∀ (set : PatternSet) (M : List (List Nat)), thresholdRows set = some M →
    M.flatten.Perm (List.range (M.length * M.length)) ∧ (∀ row ∈ M, row.length = M.length) ∧
    (∀ p ∈ patterns set, p.width = M.length ∧ p.height = M.length) ∧
    (patterns set).map Pattern.rows = (List.range (M.length * M.length + 1)).map fun t =>
      M.map fun row => row.map fun m => if m < t then 1 else 0

/-- R273, R274: with f = F / 65536 and a pattern's value its part of ones, the deterministic selection is the nearest
pattern, the smaller index on a tie, so f = 0 selects the first, all-zero, and the largest f the last, all-one, pattern of
the sets of R270 and R272;
the random selection is the last pattern at most f, where there is one, and draws nothing when that is the last of the set
or exactly f; otherwise one draw takes it or the next. -/
def Obligations.PatternSelection : Prop :=
  (∀ (set : PatternSet) (F : Nat), F ≤ 65535 →
    let ps := patterns set
    let value := fun p : Pattern => (p.ones : ℚ) / (p.width * p.height)
    (∃ h : select ps F < ps.length, ∀ (j : Nat) (hj : j < ps.length),
      |(F : ℚ) / 65536 - value (ps[select ps F]'h)| ≤ |(F : ℚ) / 65536 - value (ps[j]'hj)| ∧
      (j < select ps F → |(F : ℚ) / 65536 - value (ps[select ps F]'h)| < |(F : ℚ) / 65536 - value (ps[j]'hj)|)) ∧
    ∀ (i n : Nat) (hi : i < ps.length), value (ps[i]'hi) ≤ (F : ℚ) / 65536 →
      (∀ (j : Nat) (hj : j < ps.length), i < j → (F : ℚ) / 65536 < value (ps[j]'hj)) →
      (i + 1 = ps.length ∨ value (ps[i]'hi) = (F : ℚ) / 65536 → selectRandom ps F n = (i, n)) ∧
      (¬(i + 1 = ps.length ∨ value (ps[i]'hi) = (F : ℚ) / 65536) →
        selectRandom ps F n = (if Config.drawBit n then i + 1 else i, n + 1))) ∧
  ∀ set : PatternSet, set ≠ .alwaysCheckers →
    select (patterns set) 0 = 0 ∧ select (patterns set) 65535 + 1 = (patterns set).length ∧
    (∃ p, (patterns set).head? = some p ∧ p.ones = 0 ∧ ∀ x y, p.bit x y = false) ∧
    ∃ p, (patterns set).getLast? = some p ∧ p.ones = p.width * p.height ∧
      ∀ x y, x < p.width → y < p.height → p.bit x y = true

/-- R278 to R285, R289 (4): the output of each strategy with its draws; nearest, random and every pattern strategy give low
or high. Of the two treatments of random-borked the model takes the drawn byte (log 8). -/
def Obligations.StrategyOutputs : Prop :=
  (∀ (g : Bool) (N v x y n : Nat),
    quantise .floor g N v x y n = (trunc N v, n) ∧
    quantise .nearest g N v x y n = (if 32768 ≤ fraction g N v then highOf N v else lowOf N v, n) ∧
    quantise .debug1bit g N v x y n = (if 128 ≤ v then 255 else 0, n) ∧
    (N ≤ 8 → ∃ r ≤ 256 >>> N - 1, quantise .randomFloor g N v x y n = (trunc N (min 255 (v + r)), n + 1)) ∧
    quantise .random g N v x y n =
      (if 0 < fraction g N v ∧ Config.drawBit n = true then highOf N v else lowOf N v, n + 1) ∧
    quantise .randomBorked g N v x y n = ((Config.drawByte n).toNat, n + 1)) ∧
  (∀ (set : PatternSet) (g : Bool) (N v x y n : Nat) (p : Pattern),
    let F := fraction g N v
    ((patterns set)[select (patterns set) F]? = some p →
      quantise (.pattern set false) g N v x y n =
        (if p.bit (x % p.width) (y % p.height) = true then highOf N v else lowOf N v, n)) ∧
    ((patterns set)[(selectRandom (patterns set) F n).1]? = some p →
      quantise (.pattern set true) g N v x y n =
        (if p.bit (x % p.width) (y % p.height) = true then highOf N v else lowOf N v,
          (selectRandom (patterns set) F n).2))) ∧
  ∀ (st : Strategy) (g : Bool) (N v x y n : Nat),
    (st = .nearest ∨ st = .random ∨ ∃ set r, st = .pattern set r) →
    (quantise st g N v x y n).1 = lowOf N v ∨ (quantise st g N v x y n).1 = highOf N v

/-! ### Colour packer -/

/-- R320 to R324: PACK565's plane, output descriptor, capacity and overlap checks; it dithers copies of the four planes in
the order R, G, B, A, the colours with the gamma table and alpha with the linear one, and writes the assembled pixels to
the output descriptor and nothing else. -/
def Obligations.Pack565Result : Prop :=
  ∀ (s : State) (c d : BitVec 5) (cd ad : Strategy), Strategy.ofCode c = some cd → Strategy.ofCode d = some ad →
    let w := s.argNat 4
    let h := s.argNat 5
    let r := ditherChannel cd true 5 w (s.lm.bytes (s.argNat 0) (w * h)) s.draws
    let g := ditherChannel cd true 6 w (s.lm.bytes (s.argNat 1) (w * h)) r.2
    let b := ditherChannel cd true 5 w (s.lm.bytes (s.argNat 2) (w * h)) g.2
    let a := ditherChannel ad false 1 w (s.lm.bytes (s.argNat 3) (w * h)) b.2
    ((∃ k : Fin 8, k.val < 4 ∧ ¬s.RegionIn (s.argNat k) (w * h)) →
      exec (.pack565 c d) s = .next (s.failedWith .addrRange)) ∧
    ((∀ k : Fin 8, k.val < 4 → s.RegionIn (s.argNat k) (w * h)) →
      (∀ e, s.PbdFails 7 false e → exec (.pack565 c d) s = .next (s.failedWith e)) ∧
      (s.OutputPbd 7 →
        ((s.pbdArg 7).cap < 2 * w * h → exec (.pack565 c d) s = .next (s.failedWith .capacity)) ∧
        (2 * w * h ≤ (s.pbdArg 7).cap →
          (¬s.NoOverlap (.pack565 c d) → exec (.pack565 c d) s = .next (s.failedWith .overlap)) ∧
          (s.NoOverlap (.pack565 c d) → s.lm.wf = true →
            ∃ lm', exec (.pack565 c d) s = .next (s.completedWith lm' s.res false a.2) ∧
              s.wroteBuffer lm' 7 w h fun x y =>
                let i := y * w + x
                let pack := (r.1.getD i 0 >>> 3) <<< 11 ||| (g.1.getD i 0 >>> 2) <<< 5 ||| (b.1.getD i 0 >>> 3)
                if 128 ≤ a.1.getD i 0 then (if pack ≠ 0 then BitVec.ofNat 16 pack else s.arg16 6) else 0#16))))

/-- R325 (1) to (3): with a non-zero escape colour alone alpha decides the mask; with `floor` a colour packs to its top
bits, and a pixel is opaque exactly when its alpha is at least 128. -/
def Obligations.PackerLaws : Prop :=
  (∀ (fb : Pixel) (r g b a : Nat), fb ≠ 0#16 → r < 256 → g < 256 → b < 256 →
    (packPixel fb r g b a = 0#16 ↔ a < 128)) ∧
  (∀ r g b : Nat, r < 256 → g < 256 → b < 256 →
    packColour (trunc 5 r) (trunc 6 g) (trunc 5 b) = (r >>> 3) <<< 11 ||| (g >>> 2) <<< 5 ||| (b >>> 3)) ∧
  ∀ a : Nat, a < 256 → (128 ≤ trunc 1 a ↔ 128 ≤ a)
end

