-- ==== Sys2Proof/Laws/Memory.lean ====
section
/-! SUPPORT. Laws of local memory: a read after a write, the canonical form, and the bytes that a run of cells puts in
place. -/

namespace Sys2Proof.Machine

/-! ### Canonical form -/

theorem canonicalCells_cons (c : Host.Cell) (rest : List Host.Cell) :
    canonicalCells (c :: rest) = true ↔
      c.2 ≠ fillByte ∧ (∀ d ∈ rest, c.1 < d.1) ∧ canonicalCells rest = true := by
  induction rest generalizing c with
  | nil => simp [canonicalCells]
  | cons d rest ih =>
    have hd := ih d
    simp only [canonicalCells, Bool.and_eq_true, decide_eq_true_eq, List.mem_cons, forall_eq_or_imp]
    constructor
    · rintro ⟨⟨h1, h2⟩, h3⟩
      refine ⟨h1, ⟨h2, fun e he => ?_⟩, h3⟩
      exact h2.trans ((hd.mp h3).2.1 e he)
    · rintro ⟨h1, ⟨h2, _⟩, h3⟩
      exact ⟨⟨h1, h2⟩, h3⟩

/-- A cell that lists an address below every listed one is absent. -/
theorem readCells_of_lt (cells : List Host.Cell) (a : Nat) (h : ∀ d ∈ cells, a < d.1) :
    readCells cells a = fillByte := by
  induction cells with
  | nil => rfl
  | cons c rest ih =>
    obtain ⟨b, v⟩ := c
    have hb : a < b := h (b, v) (by simp)
    rw [readCells, if_neg (by omega)]
    exact ih fun d hd => h d (by simp [hd])

theorem readCells_writeCells_same (cells : List Host.Cell) (a : Nat) (v : Byte) (h : canonicalCells cells = true) :
    readCells (writeCells cells a v) a = v := by
  induction cells with
  | nil => by_cases hv : v = fillByte <;> simp [writeCells, readCells, hv]
  | cons c rest ih =>
    obtain ⟨b, u⟩ := c
    obtain ⟨_, hlt, hrest⟩ := (canonicalCells_cons _ _).mp h
    have hlow : ∀ x, x ≤ b → readCells rest x = fillByte := fun x hx =>
      readCells_of_lt rest x fun d hd => lt_of_le_of_lt hx (hlt d hd)
    unfold writeCells
    by_cases h1 : a < b
    · by_cases hv : v = fillByte
      · simp [h1, hv, readCells, h1.ne, hlow a h1.le]
      · simp [h1, hv, readCells]
    · by_cases h2 : a = b
      · by_cases hv : v = fillByte
        · simp [h2, hv, hlow b le_rfl]
        · simp [h2, hv, readCells]
      · simp [h1, h2, readCells, ih hrest]

theorem readCells_writeCells_other (cells : List Host.Cell) (a c : Nat) (v : Byte) (h : c ≠ a) :
    readCells (writeCells cells a v) c = readCells cells c := by
  induction cells with
  | nil => by_cases hv : v = fillByte <;> simp [writeCells, readCells, hv, h]
  | cons e rest ih =>
    obtain ⟨b, u⟩ := e
    unfold writeCells
    split_ifs <;> simp_all [readCells]

/-- The addresses after a write are the old ones and the written one. -/
theorem mem_writeCells {cells : List Host.Cell} {a : Nat} {v : Byte} {d : Host.Cell}
    (h : d ∈ writeCells cells a v) : d ∈ cells ∨ d = (a, v) := by
  induction cells with
  | nil => unfold writeCells at h; split_ifs at h <;> simp_all
  | cons e rest ih =>
    obtain ⟨b, u⟩ := e
    unfold writeCells at h
    split_ifs at h <;> simp only [List.mem_cons] at h ⊢ <;> tauto

theorem canonicalCells_writeCells (cells : List Host.Cell) (a : Nat) (v : Byte) (h : canonicalCells cells = true) :
    canonicalCells (writeCells cells a v) = true := by
  induction cells with
  | nil => by_cases hv : v = fillByte <;> simp [writeCells, canonicalCells, hv]
  | cons e rest ih =>
    obtain ⟨b, u⟩ := e
    obtain ⟨hu, hlt, hrest⟩ := (canonicalCells_cons _ _).mp h
    unfold writeCells
    by_cases h1 : a < b
    · by_cases hv : v = fillByte
      · simpa [h1, hv] using h
      · simp only [h1, hv, if_true, if_false]
        refine (canonicalCells_cons _ _).mpr ⟨hv, fun d hd => ?_, h⟩
        rcases List.mem_cons.mp hd with rfl | hd
        · exact h1
        · exact h1.trans (hlt d hd)
    · by_cases h2 : a = b
      · subst h2
        by_cases hv : v = fillByte
        · simpa [hv] using hrest
        · simp only [lt_irrefl, hv, if_true, if_false]
          exact (canonicalCells_cons _ _).mpr ⟨hv, hlt, hrest⟩
      · simp only [h1, h2, if_false]
        refine (canonicalCells_cons _ _).mpr ⟨hu, fun d hd => ?_, ih hrest⟩
        rcases mem_writeCells hd with hd | rfl
        · exact hlt d hd
        · show b < a
          omega

/-! ### One byte -/

@[simp] theorem Memory.read_nil (a : Nat) : Memory.read ⟨[]⟩ a = fillByte := rfl

theorem Memory.read_write_same {m : Memory} (h : m.wf = true) (a : Nat) (v : Byte) : (m.write a v).read a = v :=
  readCells_writeCells_same m.cells a v h

theorem Memory.read_write_other (m : Memory) {a c : Nat} (v : Byte) (h : c ≠ a) :
    (m.write a v).read c = m.read c :=
  readCells_writeCells_other m.cells a c v h

theorem Memory.wf_write {m : Memory} (h : m.wf = true) (a : Nat) (v : Byte) : (m.write a v).wf = true :=
  canonicalCells_writeCells m.cells a v h

theorem Memory.within_iff {m : Memory} {size : Nat} : m.within size = true ↔ ∀ d ∈ m.cells, d.1 < size := by
  simp [Memory.within]

theorem Memory.within_write {m : Memory} {size a : Nat} (h : m.within size = true) (v : Byte) (ha : a < size) :
    (m.write a v).within size = true := by
  rw [Memory.within_iff] at h ⊢
  intro d hd
  rcases mem_writeCells hd with hd | rfl
  · exact h d hd
  · exact ha

/-- Equal reads, equal data: the canonical form is one list per memory. -/
theorem canonicalCells_ext {xs ys : List Host.Cell} (hx : canonicalCells xs = true) (hy : canonicalCells ys = true)
    (h : ∀ a, readCells xs a = readCells ys a) : xs = ys := by
  induction xs generalizing ys with
  | nil =>
    cases ys with
    | nil => rfl
    | cons d ys =>
      have := h d.1
      simp only [readCells, if_true] at this
      exact absurd this.symm ((canonicalCells_cons _ _).mp hy).1
  | cons c xs ih =>
    obtain ⟨a, u⟩ := c
    obtain ⟨hu, hlt, hxs⟩ := (canonicalCells_cons _ _).mp hx
    cases ys with
    | nil =>
      have := h a
      simp only [readCells, if_true] at this
      exact absurd this hu
    | cons d ys =>
      obtain ⟨b, w⟩ := d
      obtain ⟨hw, hlt', hys⟩ := (canonicalCells_cons _ _).mp hy
      have hab : a = b := by
        rcases lt_trichotomy a b with hab | hab | hab
        · have := h a
          simp only [readCells, if_true, if_neg hab.ne] at this
          rw [readCells_of_lt ys a fun e he => hab.trans (hlt' e he)] at this
          exact absurd this hu
        · exact hab
        · have := h b
          simp only [readCells, if_true, if_neg hab.ne] at this
          rw [readCells_of_lt xs b fun e he => hab.trans (hlt e he)] at this
          exact absurd this.symm hw
      subst hab
      have huw : u = w := by simpa [readCells] using h a
      subst huw
      congr 1
      refine ih hxs hys fun x => ?_
      by_cases hxa : x = a
      · subst hxa
        rw [readCells_of_lt xs x hlt, readCells_of_lt ys x hlt']
      · simpa [readCells, hxa] using h x

theorem Memory.ext_of_read {m n : Memory} (hm : m.wf = true) (hn : n.wf = true) (h : ∀ a, m.read a = n.read a) :
    m = n := by
  cases m
  cases n
  exact congrArg Memory.mk (canonicalCells_ext hm hn h)

/-! ### Runs of bytes -/

theorem Memory.writeAll_nil (m : Memory) : m.writeAll [] = m := rfl

theorem Memory.writeAll_cons (m : Memory) (c : Host.Cell) (cs : List Host.Cell) :
    m.writeAll (c :: cs) = (m.write c.1 c.2).writeAll cs := rfl

theorem Memory.writeAll_append (m : Memory) (cs ds : List Host.Cell) :
    m.writeAll (cs ++ ds) = (m.writeAll cs).writeAll ds := List.foldl_append

theorem Memory.wf_writeAll {m : Memory} (h : m.wf = true) (cs : List Host.Cell) : (m.writeAll cs).wf = true := by
  induction cs generalizing m with
  | nil => exact h
  | cons c cs ih => exact ih (Memory.wf_write h c.1 c.2)

theorem Memory.within_writeAll {m : Memory} {size : Nat} (h : m.within size = true) (cs : List Host.Cell)
    (hc : ∀ c ∈ cs, c.1 < size) : (m.writeAll cs).within size = true := by
  induction cs generalizing m with
  | nil => exact h
  | cons c cs ih =>
    exact ih (Memory.within_write h c.2 (hc c (by simp))) fun d hd => hc d (by simp [hd])

theorem Memory.read_writeAll_other (m : Memory) (cs : List Host.Cell) (a : Nat) (h : ∀ c ∈ cs, a ≠ c.1) :
    (m.writeAll cs).read a = m.read a := by
  induction cs generalizing m with
  | nil => rfl
  | cons c cs ih =>
    rw [Memory.writeAll_cons, ih (m.write c.1 c.2) fun d hd => h d (by simp [hd]),
      Memory.read_write_other m c.2 (h c (by simp))]

theorem mem_cellsAt {a : Nat} {bs : List Byte} {c : Host.Cell} (h : c ∈ cellsAt a bs) :
    a ≤ c.1 ∧ c.1 < a + bs.length := by
  induction bs generalizing a with
  | nil => simp [cellsAt] at h
  | cons b bs ih =>
    simp only [cellsAt, List.mem_cons] at h
    rcases h with rfl | h
    · simp
    · have := ih h
      simp only [List.length_cons]
      omega

/-- Writing bytes at `a` leaves every address outside [a, a + length) alone. -/
theorem Memory.read_writeAll_cellsAt_other (m : Memory) (a : Nat) (bs : List Byte) (x : Nat)
    (h : x < a ∨ a + bs.length ≤ x) : (m.writeAll (cellsAt a bs)).read x = m.read x := by
  refine Memory.read_writeAll_other m _ x fun c hc => ?_
  have := mem_cellsAt hc
  omega

/-- Writing bytes at `a` puts byte i at a + i. -/
theorem Memory.read_writeAll_cellsAt {m : Memory} (h : m.wf = true) (a : Nat) (bs : List Byte) (i : Nat)
    (hi : i < bs.length) : (m.writeAll (cellsAt a bs)).read (a + i) = bs[i] := by
  induction bs generalizing a m i with
  | nil => simp at hi
  | cons b bs ih =>
    rw [cellsAt, Memory.writeAll_cons]
    cases i with
    | zero =>
      rw [Memory.read_writeAll_cellsAt_other _ _ _ _ (by omega)]
      exact Memory.read_write_same h a b
    | succ i =>
      rw [show a + (i + 1) = a + 1 + i by omega, ih (Memory.wf_write h _ _) (a + 1) i (by simpa using hi)]
      rfl

@[simp] theorem length_leBytes (n v : Nat) : (leBytes n v).length = n := by
  induction n generalizing v with
  | zero => rfl
  | succ n ih => simp [leBytes, ih]

@[simp] theorem length_cellsAt (a : Nat) (bs : List Byte) : (cellsAt a bs).length = bs.length := by
  induction bs generalizing a with
  | nil => rfl
  | cons b bs ih => simp [cellsAt, ih]

theorem cellsAt_append (a : Nat) (bs cs : List Byte) :
    cellsAt a (bs ++ cs) = cellsAt a bs ++ cellsAt (a + bs.length) cs := by
  induction bs generalizing a with
  | nil => simp [cellsAt]
  | cons b bs ih =>
    simp only [List.cons_append, cellsAt, ih, List.length_cons]
    rw [show a + 1 + bs.length = a + (bs.length + 1) by omega]

/-- A little-endian read depends on its n bytes only. -/
theorem Memory.readLe_congr {m k : Memory} {a b : Nat} (n : Nat) (h : ∀ i < n, m.read (a + i) = k.read (b + i)) :
    m.readLe a n = k.readLe b n := by
  induction n generalizing a b with
  | zero => rfl
  | succ n ih =>
    have h0 := h 0 (by omega)
    have hs : m.readLe (a + 1) n = k.readLe (b + 1) n := by
      refine ih fun i hi => ?_
      have := h (i + 1) (by omega)
      rwa [show a + (i + 1) = a + 1 + i by omega, show b + (i + 1) = b + 1 + i by omega] at this
    simp only [Nat.add_zero] at h0
    rw [Memory.readLe, Memory.readLe, h0, hs]

theorem Memory.readLe_lt (m : Memory) (a n : Nat) : m.readLe a n < 256 ^ n := by
  induction n generalizing a with
  | zero => simp [Memory.readLe]
  | succ n ih =>
    have := ih (a + 1)
    have hb := (m.read a).isLt
    rw [Memory.readLe, Nat.pow_succ]
    omega

/-- `MemRead(a, n)` after `MemWrite(a, n, v)` is v modulo 2^(8n). -/
theorem Memory.readLe_writeLe {m : Memory} (h : m.wf = true) (a n v : Nat) :
    (m.writeAll (cellsLe a n v)).readLe a n = v % 256 ^ n := by
  induction n generalizing a v m with
  | zero => simp [Memory.readLe, Nat.mod_one]
  | succ n ih =>
    rw [cellsLe, leBytes, cellsAt, Memory.writeAll_cons, Memory.readLe]
    have := ih (Memory.wf_write h a (BitVec.ofNat 8 v)) (a + 1) (v / 256)
    rw [cellsLe] at this
    rw [this, Memory.read_writeAll_cellsAt_other _ _ _ _ (by omega), Memory.read_write_same h, BitVec.toNat_ofNat,
      show (256 : Nat) ^ (n + 1) = 2 ^ 8 * 256 ^ n by ring, Nat.mod_mul]
    simp only [Nat.reducePow]

@[simp] theorem Memory.length_bytes (m : Memory) (a n : Nat) : (m.bytes a n).length = n := by simp [Memory.bytes]

/-! ### Overlap -/

/-- Two regions overlap exactly when some address lies in both. -/
theorem Region.overlaps_iff (r q : Region) : r.overlaps q = true ↔ ∃ a, r.has a = true ∧ q.has a = true := by
  simp only [Region.overlaps, Region.has, Bool.and_eq_true, decide_eq_true_eq]
  constructor
  · rintro ⟨⟨⟨h1, h2⟩, h3⟩, h4⟩
    exact ⟨max r.start q.start, by omega, by omega⟩
  · rintro ⟨a, h1, h2⟩
    omega

end Sys2Proof.Machine
end

