-- ==== Sys2Proof/Laws/PixelBuffer.lean ====
section
/-! SUPPORT. Laws of PixelBuffers: bounds, the pixels of a buffer given by a function, and pixels in local memory. -/

namespace Sys2Proof.Machine

namespace PixelBuffer

theorem inside_iff (P : PixelBuffer) (x y : Int) :
    P.inside x y = true ↔ 0 ≤ x ∧ x < P.width ∧ 0 ≤ y ∧ y < P.height := by
  simp [inside, and_assoc]

@[simp] theorem inside_natCast (P : PixelBuffer) (x y : Nat) :
    P.inside (x : Int) (y : Int) = (decide (x < P.width) && decide (y < P.height)) := by
  simp [inside]

/-- Out of range reads the mask colour (00_scope.md R10). -/
theorem get_outside {P : PixelBuffer} {x y : Int} (h : P.inside x y = false) : P.get x y = 0#16 := by
  simp [get, h]

theorem get_natCast {P : PixelBuffer} {x y : Nat} (hx : x < P.width) (hy : y < P.height) :
    P.get (x : Int) (y : Int) = P.data.getD (y * P.width + x) 0#16 := by
  simp [get, hx, hy]

/-- Out of range writes nothing (00_scope.md R10). -/
theorem set_outside {P : PixelBuffer} {x y : Int} (v : Pixel) (h : P.inside x y = false) : P.set x y v = P := by
  simp [set, h]

@[simp] theorem set_width (P : PixelBuffer) (x y : Int) (v : Pixel) : (P.set x y v).width = P.width := by
  unfold set; split <;> rfl

@[simp] theorem set_height (P : PixelBuffer) (x y : Int) (v : Pixel) : (P.set x y v).height = P.height := by
  unfold set; split <;> rfl

@[simp] theorem set_length (P : PixelBuffer) (x y : Int) (v : Pixel) :
    (P.set x y v).data.length = P.data.length := by
  unfold set; split <;> simp

@[simp] theorem ofFn_width (w h : Nat) (f : Nat → Nat → Pixel) : (ofFn w h f).width = w := rfl
@[simp] theorem ofFn_height (w h : Nat) (f : Nat → Nat → Pixel) : (ofFn w h f).height = h := rfl
@[simp] theorem ofFn_length (w h : Nat) (f : Nat → Nat → Pixel) : (ofFn w h f).data.length = w * h := by simp [ofFn]
@[simp] theorem ofFn_wf (w h : Nat) (f : Nat → Nat → Pixel) : (ofFn w h f).wf = true := by simp [wf]

@[simp] theorem zero_width (w h : Nat) : (zero w h).width = w := rfl
@[simp] theorem zero_height (w h : Nat) : (zero w h).height = h := rfl
@[simp] theorem zero_wf (w h : Nat) : (zero w h).wf = true := by simp [wf, zero]

/-- Index arithmetic of row-major order: (x, y) is at an index below w * h, and comes back from it. -/
theorem rowMajor {w h x y : Nat} (hx : x < w) (hy : y < h) :
    y * w + x < w * h ∧ (y * w + x) % w = x ∧ (y * w + x) / w = y := by
  refine ⟨?_, ?_, ?_⟩
  · calc y * w + x < y * w + w := by omega
      _ = (y + 1) * w := by ring
      _ ≤ h * w := Nat.mul_le_mul_right w hy
      _ = w * h := Nat.mul_comm h w
  · rw [Nat.add_comm, Nat.add_mul_mod_self_right, Nat.mod_eq_of_lt hx]
  · rw [Nat.add_comm, Nat.add_mul_div_right _ _ (by omega), Nat.div_eq_of_lt hx, Nat.zero_add]

theorem rowMajor_index {w h i : Nat} (hi : i < w * h) : i % w < w ∧ i / w < h ∧ i / w * w + i % w = i := by
  have hw : 0 < w := Nat.pos_of_ne_zero fun h0 => by simp [h0] at hi
  exact ⟨Nat.mod_lt _ hw, Nat.div_lt_of_lt_mul (by linarith), by rw [Nat.mul_comm]; exact Nat.div_add_mod i w⟩

theorem ofFn_getD (w h : Nat) (f : Nat → Nat → Pixel) {i : Nat} (hi : i < w * h) :
    (ofFn w h f).data.getD i 0#16 = f (i % w) (i / w) := by
  simp [ofFn, List.getD, List.getElem?_map, List.getElem?_range hi]

/-- The pixel of a buffer given by a function. -/
theorem ofFn_get {w h : Nat} (f : Nat → Nat → Pixel) {x y : Nat} (hx : x < w) (hy : y < h) :
    (ofFn w h f).get (x : Int) (y : Int) = f x y := by
  obtain ⟨hi, hm, hd⟩ := rowMajor hx hy
  rw [get_natCast (by simpa using hx) (by simpa using hy), ofFn_width, ofFn_getD w h f hi, hm, hd]

/-- Two well-formed buffers of one size with the same pixels are equal. -/
theorem ext_get {P Q : PixelBuffer} (hP : P.wf = true) (hQ : Q.wf = true) (hw : P.width = Q.width)
    (hh : P.height = Q.height) (h : ∀ x y : Nat, x < P.width → y < P.height → P.get x y = Q.get x y) : P = Q := by
  obtain ⟨w, ht, d⟩ := P
  obtain ⟨w', ht', d'⟩ := Q
  obtain rfl : w = w' := hw
  obtain rfl : ht = ht' := hh
  simp only [wf, decide_eq_true_eq] at hP hQ
  congr 1
  refine List.ext_getElem (hP.trans hQ.symm) fun i h1 h2 => ?_
  have hi : i < w * ht := hP ▸ h1
  obtain ⟨hx, hy, hxy⟩ := rowMajor_index hi
  have := h (i % w) (i / w) hx hy
  rw [get_natCast hx hy, get_natCast hx hy] at this
  simpa [hxy, List.getD, h1, h2] using this

@[simp] theorem blit_width (D S : PixelBuffer) (dx dy : Int) (a : Bool) : (D.blit S dx dy a).width = D.width := rfl
@[simp] theorem blit_height (D S : PixelBuffer) (dx dy : Int) (a : Bool) : (D.blit S dx dy a).height = D.height := rfl
@[simp] theorem blit_wf (D S : PixelBuffer) (dx dy : Int) (a : Bool) : (D.blit S dx dy a).wf = true := ofFn_wf ..
@[simp] theorem crop_width (S : PixelBuffer) (x y : Int) (w h : Nat) : (S.crop x y w h).width = w := rfl
@[simp] theorem crop_height (S : PixelBuffer) (x y : Int) (w h : Nat) : (S.crop x y w h).height = h := rfl
@[simp] theorem crop_wf (S : PixelBuffer) (x y : Int) (w h : Nat) : (S.crop x y w h).wf = true := ofFn_wf ..
@[simp] theorem shift_width (S : PixelBuffer) (x y : Int) : (S.shift x y).width = S.width := rfl
@[simp] theorem shift_height (S : PixelBuffer) (x y : Int) : (S.shift x y).height = S.height := rfl
@[simp] theorem shift_wf (S : PixelBuffer) (x y : Int) : (S.shift x y).wf = true := ofFn_wf ..
@[simp] theorem transplant_width (D S : PixelBuffer) (x y : Int) : (D.transplant S x y).width = D.width := rfl
@[simp] theorem transplant_height (D S : PixelBuffer) (x y : Int) : (D.transplant S x y).height = D.height := rfl
@[simp] theorem transplant_wf (D S : PixelBuffer) (x y : Int) : (D.transplant S x y).wf = true := ofFn_wf ..

end PixelBuffer

/-! ### Pixels in local memory -/

@[simp] theorem length_pixelBytes (ps : List Pixel) : (pixelBytes ps).length = 2 * ps.length := by
  induction ps with
  | nil => rfl
  | cons p ps ih =>
    simp only [pixelBytes] at ih
    simp [pixelBytes, ih]
    omega

@[simp] theorem loadBuffer_width (m : Memory) (p : Pbd) : (loadBuffer m p).width = p.width := rfl
@[simp] theorem loadBuffer_height (m : Memory) (p : Pbd) : (loadBuffer m p).height = p.height := rfl
@[simp] theorem loadBuffer_wf (m : Memory) (p : Pbd) : (loadBuffer m p).wf = true := by
  simp [PixelBuffer.wf, loadBuffer]

/-- A pixel of an input buffer is the little-endian value at its address (10_state.md R46). -/
theorem loadBuffer_get (m : Memory) (p : Pbd) {x y : Nat} (hx : x < p.width) (hy : y < p.height) :
    (loadBuffer m p).get (x : Int) (y : Int) = BitVec.ofNat 16 (m.readLe (p.base + 2 * (y * p.width + x)) 2) := by
  rw [PixelBuffer.get_natCast (by simpa using hx) (by simpa using hy)]
  obtain ⟨hi, _, _⟩ := PixelBuffer.rowMajor hx hy
  simp [loadBuffer, List.getD, List.getElem?_map, List.getElem?_range hi]

/-- Writing pixels at `a` puts pixel i at a + 2i, little-endian. -/
theorem Memory.readLe_writeAll_pixels {m : Memory} (h : m.wf = true) (a : Nat) (ps : List Pixel) (i : Nat)
    (hi : i < ps.length) : (m.writeAll (cellsAt a (pixelBytes ps))).readLe (a + 2 * i) 2 = ps[i].toNat := by
  induction ps generalizing a m i with
  | nil => simp at hi
  | cons p ps ih =>
    have hsplit : cellsAt a (pixelBytes (p :: ps)) = cellsLe a 2 p.toNat ++ cellsAt (a + 2) (pixelBytes ps) := by
      rw [cellsLe]
      simp only [pixelBytes, List.flatMap_cons]
      rw [cellsAt_append, length_leBytes]
    rw [hsplit, Memory.writeAll_append]
    cases i with
    | zero =>
      have hc : ((m.writeAll (cellsLe a 2 p.toNat)).writeAll (cellsAt (a + 2) (pixelBytes ps))).readLe (a + 2 * 0) 2
          = (m.writeAll (cellsLe a 2 p.toNat)).readLe a 2 :=
        Memory.readLe_congr 2 fun j hj => Memory.read_writeAll_cellsAt_other _ _ _ _ (by omega)
      rw [hc, Memory.readLe_writeLe h]
      exact Nat.mod_eq_of_lt p.isLt
    | succ i =>
      rw [show a + 2 * (i + 1) = a + 2 + 2 * i by omega,
        ih (Memory.wf_writeAll h _) (a + 2) i (by simpa using hi)]
      rfl

end Sys2Proof.Machine
end

