-- ==== Sys2Proof/Laws/Checks.lean ====
section
/-! SUPPORT. One lemma per shared check: exactly when it passes, and what it then gives. -/

namespace Sys2Proof.Machine

/-- A sequence of two outcomes succeeds exactly when both do. -/
theorem bind_eq_ok {α β : Type} {x : Except ErrCode α} {f : α → Except ErrCode β} {b : β} :
    (x >>= f) = .ok b ↔ ∃ a, x = .ok a ∧ f a = .ok b := by
  cases x with
  | error e => simp [bind, Except.bind]
  | ok a => simp [bind, Except.bind]

theorem pure_eq_ok {α : Type} {a b : α} : (pure a : Except ErrCode α) = .ok b ↔ a = b := by
  simp [pure, Except.pure]

@[simp] theorem require_eq_ok (c : Bool) (e : ErrCode) (u : Unit) : require c e = .ok u ↔ c = true := by
  cases c <;> simp [require]

theorem checkBits_eq_ok (n : BitVec 4) (u : Unit) : checkBits n = .ok u ↔ n.toNat ≤ 8 := by
  simp [checkBits]

theorem checkStrategy_eq_ok (c : BitVec 5) (st : Strategy) : checkStrategy c = .ok st ↔ Strategy.ofCode c = some st := by
  unfold checkStrategy
  split <;> simp_all

theorem Region.inLm_iff (r : Region) (size : Nat) : r.inLm size = true ↔ r.size = 0 ∨ r.start + r.size ≤ size := by
  simp [Region.inLm]

theorem checkRegion_eq_ok (s : State) (r : Region) (u : Unit) :
    checkRegion s r = .ok u ↔ r.size = 0 ∨ r.start + r.size ≤ s.params.memSize := by
  rw [checkRegion, require_eq_ok, Region.inLm_iff]

theorem checkPbdBody_eq_ok (s : State) (d : Nat) (input : Bool) (p : Pbd) :
    checkPbdBody s d input = .ok p ↔
      p = readPbd s.lm d ∧ p.base % 2 = 0 ∧ (p.cap = 0 ∨ p.base + p.cap ≤ s.params.memSize) ∧
        (input = true → 2 * p.width * p.height ≤ p.cap) := by
  simp only [checkPbdBody, bind_eq_ok, require_eq_ok, checkRegion_eq_ok, pure_eq_ok, decide_eq_true_eq,
    Bool.or_eq_true, Bool.not_eq_true', Pbd.storage]
  constructor
  · rintro ⟨_, h1, _, h2, _, h3, rfl⟩
    exact ⟨rfl, h1, h2, fun hi => h3.resolve_left (by simp [hi])⟩
  · rintro ⟨rfl, h1, h2, h3⟩
    refine ⟨(), h1, (), h2, (), ?_, rfl⟩
    cases input with
    | false => exact .inl rfl
    | true => exact .inr (h3 rfl)

theorem checkPbd_eq_ok (s : State) (d : Nat) (input : Bool) (p : Pbd) :
    checkPbd s d input = .ok p ↔
      d % 4 = 0 ∧ d + 16 ≤ s.params.memSize ∧ p = readPbd s.lm d ∧ p.base % 2 = 0 ∧
        (p.cap = 0 ∨ p.base + p.cap ≤ s.params.memSize) ∧ (input = true → 2 * p.width * p.height ≤ p.cap) := by
  simp only [checkPbd, bind_eq_ok, require_eq_ok, checkRegion_eq_ok, checkPbdBody_eq_ok, decide_eq_true_eq, pbdRegion]
  constructor
  · rintro ⟨_, h1, _, h2, h3⟩
    exact ⟨h1, h2.resolve_left (by omega), h3⟩
  · rintro ⟨h1, h2, h3⟩
    exact ⟨(), h1, (), .inr h2, h3⟩

theorem checkPbdBodies_eq_ok (s : State) (d n : Nat) (ps : List Pbd) :
    checkPbdBodies s d n = .ok ps ↔
      ps = (List.range n).map (fun i => readPbd s.lm (d + 16 * i)) ∧
        ∀ i < n, checkPbdBody s (d + 16 * i) true = .ok (readPbd s.lm (d + 16 * i)) := by
  induction n generalizing d ps with
  | zero => simp [checkPbdBodies, eq_comm]
  | succ n ih =>
    have hshift : ∀ i, d + 16 + 16 * i = d + 16 * (i + 1) := fun i => by omega
    simp only [checkPbdBodies, bind_eq_ok, ih, pure_eq_ok, List.range_succ_eq_map, List.map_cons, List.map_map,
      Nat.mul_zero, Nat.add_zero, hshift]
    constructor
    · rintro ⟨p, hp, qs, ⟨rfl, hq⟩, rfl⟩
      obtain rfl := ((checkPbdBody_eq_ok _ _ _ _).mp hp).1
      refine ⟨rfl, fun i hi => ?_⟩
      cases i with
      | zero => simpa using hp
      | succ i => exact hq i (by omega)
    · rintro ⟨rfl, h⟩
      exact ⟨_, by simpa using h 0 (by omega), _, ⟨rfl, fun i hi => h (i + 1) (by omega)⟩, rfl⟩

theorem checkPbdArray_eq_ok (s : State) (d n : Nat) (ps : List Pbd) :
    checkPbdArray s d n = .ok ps ↔
      d % 4 = 0 ∧ (n = 0 ∨ d + 16 * n ≤ s.params.memSize) ∧
        ps = (List.range n).map (fun i => readPbd s.lm (d + 16 * i)) ∧
        ∀ i < n, checkPbdBody s (d + 16 * i) true = .ok (readPbd s.lm (d + 16 * i)) := by
  simp only [checkPbdArray, bind_eq_ok, require_eq_ok, checkRegion_eq_ok, checkPbdBodies_eq_ok, decide_eq_true_eq]
  constructor
  · rintro ⟨_, h1, _, h2, h3⟩
    exact ⟨h1, h2.imp (by omega) id, h3⟩
  · rintro ⟨h1, h2, h3⟩
    exact ⟨(), h1, (), h2.imp (by omega) id, h3⟩

theorem checkOverlap_eq_ok (s : State) (i : Instr) (u : Unit) :
    checkOverlap s i = .ok u ↔ noConflict (regionEntries s i) = true := by
  simp [checkOverlap]

/-- No conflict in a list is no conflict between any two of its entries. -/
theorem noConflict_iff (es : List RegionEntry) :
    noConflict es = true ↔ es.Pairwise fun e f => e.conflicts f = false := by
  induction es with
  | nil => simp [noConflict]
  | cons e es ih => simp [noConflict, ih]

/-- When an output buffer is written, and what is written. -/
theorem emitBuffer_eq_ok (s : State) (i : Instr) (d : Nat) (p : Pbd) (Q : PixelBuffer) (rs : List (Fin 4 × Word))
    (e : Effect) :
    emitBuffer s i d p Q rs = .ok e ↔
      p.Takes Q.width Q.height ∧ noConflict (regionEntries s i) = true ∧ e = s.effect (bufferCells d p Q) rs := by
  simp only [emitBuffer, bind_eq_ok, require_eq_ok, checkOverlap_eq_ok, pure_eq_ok, decide_eq_true_eq]
  constructor
  · rintro ⟨_, h1, _, h2, h3⟩
    exact ⟨h1, h2, h3.symm⟩
  · rintro ⟨h1, h2, h3⟩
    exact ⟨(), h1, (), h2, h3.symm⟩

/-- When output bytes are written, and what is written. -/
theorem emitBytes_eq_ok (s : State) (i : Instr) (bs : List Byte) (rs : List (Fin 4 × Word)) (e : Effect) :
    emitBytes s i bs rs = .ok e ↔
      bs.length ≤ s.argNat 3 ∧ noConflict (regionEntries s i) = true ∧ e = s.effect (cellsAt (s.argNat 2) bs) rs := by
  simp only [emitBytes, bind_eq_ok, require_eq_ok, checkOverlap_eq_ok, pure_eq_ok, decide_eq_true_eq]
  constructor
  · rintro ⟨_, h1, _, h2, h3⟩
    exact ⟨h1, h2, h3.symm⟩
  · rintro ⟨h1, h2, h3⟩
    exact ⟨(), h1, (), h2, h3.symm⟩

/-- When an encoder has its frames, and which they are. -/
theorem encoderFrames_eq_ok (s : State) (fs : List PixelBuffer) :
    encoderFrames s = .ok fs ↔
      ∃ ps, checkPbdArray s (s.argNat 0) (s.argNat 1) = .ok ps ∧
        (s.argNat 3 = 0 ∨ s.argNat 2 + s.argNat 3 ≤ s.params.memSize) ∧ s.argNat 1 ≤ 65535 ∧
        (∀ p ∈ ps, p.width ≤ 65535 ∧ p.height ≤ 65535) ∧ fs = ps.map (loadBuffer s.lm) := by
  simp only [encoderFrames, bind_eq_ok, require_eq_ok, checkRegion_eq_ok, pure_eq_ok, decide_eq_true_eq,
    Bool.and_eq_true, List.all_eq_true, State.outputEntry]
  constructor
  · rintro ⟨ps, h1, _, h2, _, ⟨h3, h4⟩, h5⟩
    exact ⟨ps, h1, h2, h3, h4, h5.symm⟩
  · rintro ⟨ps, h1, h2, h3, h4, h5⟩
    exact ⟨ps, h1, (), h2, (), ⟨h3, h4⟩, h5.symm⟩

/-! ### Sizes of what the commands write -/

/-- Writing an output buffer stays inside its descriptor's WIDTH and HEIGHT and its first 2 * W * H storage bytes. -/
theorem mem_bufferCells {d : Nat} {p : Pbd} {Q : PixelBuffer} {c : Host.Cell} (h : c ∈ bufferCells d p Q) :
    (d + 4 ≤ c.1 ∧ c.1 < d + 12) ∨ (p.base ≤ c.1 ∧ c.1 < p.base + 2 * Q.data.length) := by
  simp only [bufferCells, cellsLe, List.mem_append] at h
  rcases h with (h | h) | h
  all_goals
    have := mem_cellsAt h
    simp only [length_leBytes, length_pixelBytes] at this
    omega

@[simp] theorem length_samples (st : List Byte) (d : Descriptor) (pos n : Nat) :
    (samples st d pos n).length = n := by simp [samples]

@[simp] theorem length_fitRow (w : Nat) (ps : List Pixel) : (fitRow w ps).length = w := by
  simp [fitRow]
  omega

theorem length_decodeRows (st : List Byte) (d : Descriptor) (w h pos : Nat) :
    (decodeRows st d w h pos).1.length = w * h := by
  induction h generalizing pos with
  | zero => rfl
  | succ h ih => simp [decodeRows, ih, Nat.mul_succ, Nat.add_comm]

/-- A decoded frame has the size its entry gives, and is well formed (R191). -/
theorem decodeEntry_size (st : List Byte) (d : Descriptor) (e : FrameEntry) :
    (decodeEntry st d e).1.width = e.width ∧ (decodeEntry st d e).1.height = e.height ∧
      (decodeEntry st d e).1.data.length = e.width * e.height := by
  unfold decodeEntry
  split
  · exact ⟨rfl, rfl, length_decodeRows ..⟩
  · exact ⟨rfl, rfl, length_samples ..⟩

theorem stitchTiles_size (bh k : Nat) (tiles : List PixelBuffer) (Q : PixelBuffer) :
    (stitchTiles bh k tiles Q).width = Q.width ∧ (stitchTiles bh k tiles Q).height = Q.height ∧
      (Q.wf = true → (stitchTiles bh k tiles Q).wf = true) := by
  induction tiles generalizing k Q with
  | nil => exact ⟨rfl, rfl, id⟩
  | cons T tiles ih =>
    obtain ⟨h1, h2, h3⟩ := ih (k + 1) (Q.blit T (tileSide * (k / bh) : Nat) (tileSide * (k % bh) : Nat) false)
    exact ⟨h1, h2, fun _ => h3 (PixelBuffer.blit_wf ..)⟩

theorem ditherFrom_length (st : Strategy) (gamma : Bool) (N w i n : Nat) (plane : List Byte) :
    (ditherFrom st gamma N w i n plane).1.length = plane.length := by
  induction plane generalizing i n with
  | nil => rfl
  | cons v rest ih => simp [ditherFrom, ih]

@[simp] theorem ditherChannel_length (st : Strategy) (gamma : Bool) (N w n : Nat) (plane : List Byte) :
    (ditherChannel st gamma N w plane n).1.length = plane.length := ditherFrom_length ..

theorem packPixels_length (fb : Pixel) (rs gs bs as : List Nat) (hg : gs.length = rs.length)
    (hb : bs.length = rs.length) (ha : as.length = rs.length) :
    (packPixels fb rs gs bs as).length = rs.length := by
  induction rs generalizing gs bs as with
  | nil => simp [packPixels]
  | cons r rs ih =>
    cases gs with
    | nil => simp at hg
    | cons g gs =>
      cases bs with
      | nil => simp at hb
      | cons b bs =>
        cases as with
        | nil => simp at ha
        | cons a as =>
          simp only [packPixels, List.length_cons, Nat.add_right_cancel_iff] at hg hb ha ⊢
          exact ih gs bs as hg hb ha

@[simp] theorem State.planeArg_length (s : State) (i : Fin 8) (w h : Nat) : (s.planeArg i w h).length = w * h := by
  simp [State.planeArg]

end Sys2Proof.Machine
end

