-- ==== Sys2Proof/Laws/State.lean ====
section
/-! SUPPORT. One lemma per field per update of State: what each shared update leaves as it was. -/

namespace Sys2Proof.Machine

namespace State

/-! ### Results -/

@[simp] theorem setRes_params (s : State) (i : Fin 4) (v : Word) : (s.setRes i v).params = s.params := rfl
@[simp] theorem setRes_ie (s : State) (i : Fin 4) (v : Word) : (s.setRes i v).ie = s.ie := rfl
@[simp] theorem setRes_status (s : State) (i : Fin 4) (v : Word) : (s.setRes i v).status = s.status := rfl
@[simp] theorem setRes_cmd (s : State) (i : Fin 4) (v : Word) : (s.setRes i v).cmd = s.cmd := rfl
@[simp] theorem setRes_arg (s : State) (i : Fin 4) (v : Word) : (s.setRes i v).arg = s.arg := rfl
@[simp] theorem setRes_res (s : State) (i : Fin 4) (v : Word) : (s.setRes i v).res = s.res.set i v := rfl
@[simp] theorem setRes_lcmd (s : State) (i : Fin 4) (v : Word) : (s.setRes i v).lcmd = s.lcmd := rfl
@[simp] theorem setRes_larg (s : State) (i : Fin 4) (v : Word) : (s.setRes i v).larg = s.larg := rfl
@[simp] theorem setRes_lm (s : State) (i : Fin 4) (v : Word) : (s.setRes i v).lm = s.lm := rfl
@[simp] theorem setRes_draws (s : State) (i : Fin 4) (v : Word) : (s.setRes i v).draws = s.draws := rfl
@[simp] theorem setRes_inputs (s : State) (i : Fin 4) (v : Word) : (s.setRes i v).inputs = s.inputs := rfl
@[simp] theorem setRes_readData (s : State) (i : Fin 4) (v : Word) : (s.setRes i v).readData = s.readData := rfl

/-- Results change the result registers only. -/
theorem setResults_eq (s : State) (rs : List (Fin 4 × Word)) :
    s.setResults rs = { s with res := rs.foldl (fun v r => v.set r.1 r.2) s.res } := by
  induction rs generalizing s with
  | nil => rfl
  | cons r rs ih => exact ih (s.setRes r.1 r.2)

@[simp] theorem setResults_nil (s : State) : s.setResults [] = s := rfl

@[simp] theorem setResults_cons (s : State) (r : Fin 4 × Word) (rs : List (Fin 4 × Word)) :
    s.setResults (r :: rs) = (s.setRes r.1 r.2).setResults rs := rfl

/-! ### Completion with an error -/

@[simp] theorem raiseError_params (s : State) (c : ErrCode) : (s.raiseError c).params = s.params := rfl
@[simp] theorem raiseError_ie (s : State) (c : ErrCode) : (s.raiseError c).ie = s.ie := rfl
@[simp] theorem raiseError_status (s : State) (c : ErrCode) : (s.raiseError c).status = s.status.completeErr c := rfl
@[simp] theorem raiseError_cmd (s : State) (c : ErrCode) : (s.raiseError c).cmd = s.cmd := rfl
@[simp] theorem raiseError_arg (s : State) (c : ErrCode) : (s.raiseError c).arg = s.arg := rfl
@[simp] theorem raiseError_res (s : State) (c : ErrCode) : (s.raiseError c).res = s.res := rfl
@[simp] theorem raiseError_lcmd (s : State) (c : ErrCode) : (s.raiseError c).lcmd = s.lcmd := rfl
@[simp] theorem raiseError_larg (s : State) (c : ErrCode) : (s.raiseError c).larg = s.larg := rfl
@[simp] theorem raiseError_lm (s : State) (c : ErrCode) : (s.raiseError c).lm = s.lm := rfl
@[simp] theorem raiseError_draws (s : State) (c : ErrCode) : (s.raiseError c).draws = s.draws := rfl
@[simp] theorem raiseError_inputs (s : State) (c : ErrCode) : (s.raiseError c).inputs = s.inputs := rfl
@[simp] theorem raiseError_readData (s : State) (c : ErrCode) : (s.raiseError c).readData = s.readData := rfl

/-! ### Successful completion -/

/-- Everything a successful completion changes. -/
theorem succeed_eq (s : State) (e : Effect) :
    s.succeed e = { s with
      res := e.results.foldl (fun v r => v.set r.1 r.2) s.res
      lm := s.lm.writeAll e.writes
      status := s.status.completeOk e.trunc
      draws := e.draws } := by
  rw [succeed, setResults_eq]

@[simp] theorem succeed_params (s : State) (e : Effect) : (s.succeed e).params = s.params := by rw [succeed_eq]
@[simp] theorem succeed_ie (s : State) (e : Effect) : (s.succeed e).ie = s.ie := by rw [succeed_eq]
@[simp] theorem succeed_status (s : State) (e : Effect) : (s.succeed e).status = s.status.completeOk e.trunc := rfl
@[simp] theorem succeed_cmd (s : State) (e : Effect) : (s.succeed e).cmd = s.cmd := by rw [succeed_eq]
@[simp] theorem succeed_arg (s : State) (e : Effect) : (s.succeed e).arg = s.arg := by rw [succeed_eq]
@[simp] theorem succeed_lcmd (s : State) (e : Effect) : (s.succeed e).lcmd = s.lcmd := by rw [succeed_eq]
@[simp] theorem succeed_larg (s : State) (e : Effect) : (s.succeed e).larg = s.larg := by rw [succeed_eq]
@[simp] theorem succeed_lm (s : State) (e : Effect) : (s.succeed e).lm = s.lm.writeAll e.writes := rfl
@[simp] theorem succeed_draws (s : State) (e : Effect) : (s.succeed e).draws = e.draws := rfl
@[simp] theorem succeed_inputs (s : State) (e : Effect) : (s.succeed e).inputs = s.inputs := by rw [succeed_eq]
@[simp] theorem succeed_readData (s : State) (e : Effect) : (s.succeed e).readData = s.readData := by rw [succeed_eq]

theorem succeed_res (s : State) (e : Effect) :
    (s.succeed e).res = e.results.foldl (fun v r => v.set r.1 r.2) s.res := by rw [succeed_eq]

/-- Setting registers other than k leaves register k. -/
theorem getElem_setAll (rs : List (Fin 4 × Word)) (v : Vector Word 4) (k : Fin 4) (h : ∀ r ∈ rs, r.1 ≠ k) :
    (rs.foldl (fun v r => v.set r.1 r.2) v)[k] = v[k] := by
  induction rs generalizing v with
  | nil => rfl
  | cons r rs ih =>
    rw [List.foldl_cons, ih _ fun q hq => h q (by simp [hq])]
    have hv : (r.1 : Nat) ≠ (k : Nat) := fun he => h r (by simp) (Fin.ext he)
    show (v.set r.1 r.2)[(k : Nat)] = v[(k : Nat)]
    exact Vector.getElem_set_ne _ _ hv

/-- A result register that the results do not name keeps its value. -/
theorem succeed_res_other (s : State) (e : Effect) (k : Fin 4) (h : ∀ r ∈ e.results, r.1 ≠ k) :
    (s.succeed e).res[k] = s.res[k] := by
  rw [succeed_res]
  exact getElem_setAll e.results s.res k h

/-! ### Acceptance -/

@[simp] theorem accept_params (s : State) (w : Word) : (s.accept w).params = s.params := rfl
@[simp] theorem accept_ie (s : State) (w : Word) : (s.accept w).ie = s.ie := rfl
@[simp] theorem accept_status (s : State) (w : Word) : (s.accept w).status = s.status.accept := rfl
@[simp] theorem accept_cmd (s : State) (w : Word) : (s.accept w).cmd = w := rfl
@[simp] theorem accept_arg (s : State) (w : Word) : (s.accept w).arg = s.arg := rfl
@[simp] theorem accept_res (s : State) (w : Word) : (s.accept w).res = s.res := rfl
@[simp] theorem accept_lcmd (s : State) (w : Word) : (s.accept w).lcmd = w := rfl
@[simp] theorem accept_larg (s : State) (w : Word) : (s.accept w).larg = s.arg := rfl
@[simp] theorem accept_lm (s : State) (w : Word) : (s.accept w).lm = s.lm := rfl
@[simp] theorem accept_draws (s : State) (w : Word) : (s.accept w).draws = s.draws := rfl
@[simp] theorem accept_inputs (s : State) (w : Word) : (s.accept w).inputs = s.inputs := rfl
@[simp] theorem accept_readData (s : State) (w : Word) : (s.accept w).readData = s.readData := rfl

/-! ### Acknowledgement -/

@[simp] theorem acknowledge_params (s : State) (w : Word) : (s.acknowledge w).params = s.params := rfl
@[simp] theorem acknowledge_status (s : State) (w : Word) : (s.acknowledge w).status = s.status.clear w := rfl
@[simp] theorem acknowledge_cmd (s : State) (w : Word) : (s.acknowledge w).cmd = s.cmd := rfl
@[simp] theorem acknowledge_lcmd (s : State) (w : Word) : (s.acknowledge w).lcmd = s.lcmd := rfl
@[simp] theorem acknowledge_lm (s : State) (w : Word) : (s.acknowledge w).lm = s.lm := rfl
@[simp] theorem acknowledge_inputs (s : State) (w : Word) : (s.acknowledge w).inputs = s.inputs := rfl

/-! ### Reset -/

@[simp] theorem resetRegisters_params (s : State) : s.resetRegisters.params = s.params := rfl
@[simp] theorem resetRegisters_status (s : State) : s.resetRegisters.status = Status.zero := rfl
@[simp] theorem resetRegisters_cmd (s : State) : s.resetRegisters.cmd = 0#32 := rfl
@[simp] theorem resetRegisters_lcmd (s : State) : s.resetRegisters.lcmd = 0#32 := rfl
@[simp] theorem resetRegisters_lm (s : State) : s.resetRegisters.lm = s.lm := rfl
@[simp] theorem resetRegisters_draws (s : State) : s.resetRegisters.draws = s.draws := rfl
@[simp] theorem resetRegisters_inputs (s : State) : s.resetRegisters.inputs = s.inputs := rfl
@[simp] theorem resetRegisters_readData (s : State) : s.resetRegisters.readData = s.readData := rfl

@[simp] theorem softReset_params (s : State) : s.softReset.params = s.params := by
  unfold softReset; split <;> rfl
@[simp] theorem softReset_status (s : State) : s.softReset.status = Status.zero := by
  unfold softReset; split <;> rfl
@[simp] theorem softReset_inputs (s : State) : s.softReset.inputs = s.inputs := by
  unfold softReset; split <;> rfl
@[simp] theorem softReset_cmd (s : State) : s.softReset.cmd = 0#32 := by
  unfold softReset; split <;> rfl
@[simp] theorem softReset_lcmd (s : State) : s.softReset.lcmd = 0#32 := by
  unfold softReset; split <;> rfl

/-- A request is one at IRQ_LINE, and there is one exactly while IRQ is 1 (R348). -/
@[simp] theorem irqRequest_eq_some (s : State) (l : IrqLine) :
    s.irqRequest = some l ↔ s.irq = true ∧ s.params.irqLine = l := by
  unfold irqRequest
  split <;> simp_all

end State

/-! ### STATUS -/

@[simp] theorem Status.accept_busy (s : Status) : s.accept.busy = true := rfl
@[simp] theorem Status.accept_ovr (s : Status) : s.accept.ovr = s.ovr := rfl
@[simp] theorem Status.completeOk_busy (s : Status) (t : Bool) : (s.completeOk t).busy = false := rfl
@[simp] theorem Status.completeOk_done (s : Status) (t : Bool) : (s.completeOk t).done = true := rfl
@[simp] theorem Status.completeOk_trunc (s : Status) (t : Bool) : (s.completeOk t).trunc = t := rfl
@[simp] theorem Status.completeOk_err (s : Status) (t : Bool) : (s.completeOk t).err = s.err := rfl
@[simp] theorem Status.completeOk_ovr (s : Status) (t : Bool) : (s.completeOk t).ovr = s.ovr := rfl
@[simp] theorem Status.completeErr_busy (s : Status) (c : ErrCode) : (s.completeErr c).busy = false := rfl
@[simp] theorem Status.completeErr_done (s : Status) (c : ErrCode) : (s.completeErr c).done = true := rfl
@[simp] theorem Status.completeErr_err (s : Status) (c : ErrCode) : (s.completeErr c).err = true := rfl
@[simp] theorem Status.completeErr_errcode (s : Status) (c : ErrCode) : (s.completeErr c).errcode = c := rfl
@[simp] theorem Status.completeErr_trunc (s : Status) (c : ErrCode) : (s.completeErr c).trunc = s.trunc := rfl
@[simp] theorem Status.completeErr_ovr (s : Status) (c : ErrCode) : (s.completeErr c).ovr = s.ovr := rfl
@[simp] theorem Status.clear_busy (s : Status) (w : Word) : (s.clear w).busy = s.busy := rfl
@[simp] theorem Status.clear_errcode (s : Status) (w : Word) : (s.clear w).errcode = s.errcode := rfl
@[simp] theorem Status.overrun_busy (s : Status) : s.overrun.busy = s.busy := rfl
@[simp] theorem Status.overrun_ovr (s : Status) : s.overrun.ovr = true := rfl

end Sys2Proof.Machine
end

