-- ==== Sys2Proof/Laws/Commands.lean ====
section
/-! SUPPORT. Everything a command can do, said once: `exec` is `finish` of an outcome, and an outcome that succeeds is
bounded by `Bounded`. A proof about every command cites `exec_cases` and `outcome_bounded`, and unfolds no command. -/

namespace Sys2Proof.Machine

/-- The outcome of each command. -/
def outcome (s : State) : Instr → CmdOutcome
  | .nop => nopOutcome s
  | .ident => identOutcome s
  | .ftHdr => ftHdrOutcome s
  | .ftEnt => ftEntOutcome s
  | .decFrm => decFrmOutcome s
  | .encS16 => encS16Outcome s
  | .encC16 => encC16Outcome s
  | .blkHdr => blkHdrOutcome s
  | .blkDec => blkDecOutcome s
  | .blkStitch => blkStitchOutcome s
  | .blkEnc => blkEncOutcome s
  | .pbGet => pbGetOutcome s
  | .pbSet => pbSetOutcome s
  | .pbCrop => pbCropOutcome s
  | .pbShift => pbShiftOutcome s
  | .pbBlit alpha => pbBlitOutcome alpha s
  | .pbXplant => pbXplantOutcome s
  | .quant strat nbits gamma => quantOutcome strat nbits gamma s
  | .pack565 cdmode admode => pack565Outcome cdmode admode s
  | .qlookup nbits gamma => qlookupOutcome nbits gamma s

theorem exec_eq (i : Instr) (s : State) : exec i s = .next (s.complete (outcome s i)) := by cases i <;> rfl

/-! ### The two ends of a command -/

/-- Successful completion in the terms of the claims. -/
theorem succeed_eq_completedWith (s : State) (e : Effect) :
    s.succeed e = s.completedWith (s.lm.writeAll e.writes) (e.results.foldl (fun v r => v.set r.1 r.2) s.res) e.trunc
      e.draws := by
  rw [State.succeed_eq]
  rfl

theorem raiseError_eq_failedWith (s : State) (c : ErrCode) : s.raiseError c = s.failedWith c := rfl

/-- The inversion of `exec`: an effect or an error code. -/
theorem exec_cases {i : Instr} {s t : State} (h : exec i s = .next t) :
    (∃ e, outcome s i = .ok e ∧ t = s.succeed e) ∨ ∃ c, outcome s i = .error c ∧ t = s.raiseError c := by
  rw [exec_eq] at h
  cases ho : outcome s i with
  | ok e =>
    rw [ho] at h
    exact .inl ⟨e, rfl, (Host.Outcome.next.inj h).symm⟩
  | error c =>
    rw [ho] at h
    exact .inr ⟨c, rfl, (Host.Outcome.next.inj h).symm⟩

/-! ### What an outcome that succeeds is bounded by -/

/-- Draws are taken only by QUANT and PACK565 with a drawing strategy (44_quantizer.md R276). -/
def Instr.mayDraw (i : Instr) : Prop :=
  ∃ c st, Strategy.ofCode c = some st ∧ st.drawing = true ∧
    ((∃ n g, i = .quant c n g) ∨ ∃ d, i = .pack565 c d ∨ i = .pack565 d c)

/-- Everything that holds of the effect of a command. -/
structure Bounded (i : Instr) (s : State) (e : Effect) : Prop where
  /-- It writes only bytes of its destination regions (R138). -/
  dest : ∀ c ∈ e.writes, ∃ r ∈ destinations s i, r.has c.1 = true
  /-- Every entry of its region list lies in LM (R77). -/
  regions : ∀ f ∈ regionEntries s i, s.RegionIn f.region.start f.region.size
  /-- No two entries conflict (R87). -/
  noOverlap : s.NoOverlap i
  /-- It writes only the results it names (R41). -/
  results : ∀ r ∈ e.results, r.1 ∈ i.namedResults
  trunc : e.trunc = true → i = .decFrm ∨ i = .blkDec
  draws : s.draws ≤ e.draws
  drawing : e.draws = s.draws ∨ Instr.mayDraw i
  inputs : ∀ k ∈ i.inputPbds, s.InputPbd k
  outputs : ∀ k ∈ i.outputPbds, s.OutputPbd k

/-! ### The operand checks, in the terms of the claims -/

theorem checkPbd_input {s : State} {i : Fin 8} {p : Pbd} (h : checkPbd s (s.argNat i) true = .ok p) :
    p = s.pbdArg i ∧ s.InputPbd i := by
  obtain ⟨h1, h2, rfl, h4, h5, h6⟩ := (checkPbd_eq_ok ..).mp h
  exact ⟨rfl, ⟨h1, h2, h4, h5⟩, h6 rfl⟩

theorem checkPbd_output {s : State} {i : Fin 8} {p : Pbd} (h : checkPbd s (s.argNat i) false = .ok p) :
    p = s.pbdArg i ∧ s.OutputPbd i := by
  obtain ⟨h1, h2, rfl, h4, h5, -⟩ := (checkPbd_eq_ok ..).mp h
  exact ⟨rfl, h1, h2, h4, h5⟩

theorem checkPbd_of_input {s : State} {i : Fin 8} (h : s.InputPbd i) :
    checkPbd s (s.argNat i) true = .ok (s.pbdArg i) :=
  (checkPbd_eq_ok ..).mpr ⟨h.1.1, h.1.2.1, rfl, h.1.2.2.1, h.1.2.2.2, fun _ => h.2⟩

theorem checkPbd_of_output {s : State} {i : Fin 8} (h : s.OutputPbd i) :
    checkPbd s (s.argNat i) false = .ok (s.pbdArg i) :=
  (checkPbd_eq_ok ..).mpr ⟨h.1, h.2.1, rfl, h.2.2.1, h.2.2.2, fun h => nomatch h⟩

/-- An array operand that passes is the array the claims name. -/
theorem checkPbdArray_input {s : State} {n : Nat} {ps : List Pbd} (h : checkPbdArray s (s.argNat 0) n = .ok ps) :
    ps = (List.range n).map s.arrayPbd ∧ s.InputPbds n := by
  obtain ⟨h1, h2, rfl, h4⟩ := (checkPbdArray_eq_ok ..).mp h
  refine ⟨rfl, h1, h2.imp (by omega) id, fun k hk => ?_⟩
  obtain ⟨-, h5, h6, h7⟩ := (checkPbdBody_eq_ok ..).mp (h4 k hk)
  exact ⟨⟨h5, h6⟩, h7 rfl⟩

theorem checkPbdArray_of_input {s : State} {n : Nat} (h : s.InputPbds n) :
    checkPbdArray s (s.argNat 0) n = .ok ((List.range n).map s.arrayPbd) := by
  obtain ⟨h1, h2, h3⟩ := h
  refine (checkPbdArray_eq_ok ..).mpr ⟨h1, h2.imp (by omega) id, rfl, fun k hk => ?_⟩
  exact (checkPbdBody_eq_ok ..).mpr ⟨rfl, (h3 k hk).1.1, (h3 k hk).1.2, fun _ => (h3 k hk).2⟩

/-- The storage of a descriptor that lies in LM is the storage it names. -/
theorem storageAt_arg {s : State} {i : Fin 8} (h : s.argNat i + 16 ≤ s.params.memSize) :
    s.storageAt (s.argNat i) = (s.pbdArg i).storage := by simp [State.storageAt, h, State.pbdArg]

/-- The entries of a descriptor operand that passes lie in LM. -/
theorem pbdEntries_regions {s : State} {i : Fin 8} {du su : RegionUse} (h : s.OutputPbd i) :
    ∀ f ∈ s.pbdEntries i du su, s.RegionIn f.region.start f.region.size := by
  intro f hf
  rw [State.pbdEntries, storageAt_arg h.2.1] at hf
  simp only [List.mem_cons, List.not_mem_nil, or_false] at hf
  rcases hf with rfl | rfl
  · exact .inr h.2.1
  · exact h.2.2.2

/-- The storage entries of an array operand that passes lie in LM. -/
theorem arrayStorage_regions {s : State} {n : Nat} (h : s.InputPbds n) :
    ∀ f ∈ s.arrayStorage (s.argNat 0) n, s.RegionIn f.region.start f.region.size := by
  intro f hf
  simp only [State.arrayStorage, List.mem_map, List.mem_range] at hf
  obtain ⟨k, hk, rfl⟩ := hf
  simp only [State.storageAt]
  split
  · exact (h.2.2 k hk).1.2
  · exact .inl rfl

theorem mem_destinations {s : State} {i : Instr} {f : RegionEntry} (hf : f ∈ regionEntries s i)
    (hw : f.use ≠ .read) : f.region ∈ destinations s i :=
  List.mem_map_of_mem (List.mem_filter.mpr ⟨hf, by simpa [RegionEntry.writes] using hw⟩)

theorem has_iff (r : Region) (a : Nat) : r.has a = true ↔ r.start ≤ a ∧ a < r.start + r.size := by simp [Region.has]

/-! ### Bounds, shape by shape -/

/-- A command that writes no LM byte and draws nothing. -/
theorem bounded_readOnly {s : State} {i : Instr} {rs : List (Fin 4 × Word)}
    (hreg : ∀ f ∈ regionEntries s i, s.RegionIn f.region.start f.region.size) (hno : s.NoOverlap i)
    (hres : ∀ r ∈ rs, r.1 ∈ i.namedResults) (hin : ∀ k ∈ i.inputPbds, s.InputPbd k)
    (hout : ∀ k ∈ i.outputPbds, s.OutputPbd k) : Bounded i s (s.effect [] rs) where
  dest := by simp [State.effect]
  regions := hreg
  noOverlap := hno
  results := hres
  trunc := by simp [State.effect]
  draws := le_rfl
  drawing := .inl rfl
  inputs := hin
  outputs := hout

/-- The cells of an output buffer lie in its descriptor and its storage. -/
theorem bufferCells_dest {s : State} {k : Fin 8} {Q : PixelBuffer} {es : List RegionEntry} (hp : s.OutputPbd k)
    (hsub : ∀ f ∈ s.pbdEntries k .update .write, f ∈ es) (hQ : Q.wf = true)
    (hcap : 2 * Q.width * Q.height ≤ (s.pbdArg k).cap) :
    ∀ c ∈ bufferCells (s.argNat k) (s.pbdArg k) Q, ∃ f ∈ es, f.use ≠ .read ∧ f.region.has c.1 = true := by
  intro c hc
  have hlen : Q.data.length = Q.width * Q.height := by simpa [PixelBuffer.wf] using hQ
  rw [Nat.mul_assoc, ← hlen] at hcap
  rcases mem_bufferCells hc with h | h
  · exact ⟨_, hsub _ (List.mem_cons_self ..), by simp, (has_iff _ _).mpr (by simp only [pbdRegion]; omega)⟩
  · refine ⟨_, hsub _ (List.mem_cons_of_mem _ (List.mem_cons_self ..)), by simp, (has_iff _ _).mpr ?_⟩
    rw [storageAt_arg hp.2.1]
    simp only [Pbd.storage]
    omega

/-- A cell in a written entry lies in a destination region. -/
theorem dest_of_entries {s : State} {i : Instr} {cells : List Host.Cell}
    (h : ∀ c ∈ cells, ∃ f ∈ regionEntries s i, f.use ≠ .read ∧ f.region.has c.1 = true) :
    ∀ c ∈ cells, ∃ r ∈ destinations s i, r.has c.1 = true := fun c hc =>
  let ⟨f, hf, hu, hh⟩ := h c hc
  ⟨f.region, mem_destinations hf hu, hh⟩

/-! ### Bounds, command by command -/

theorem streamEntry_region {s : State} {u : Unit} (h : checkRegion s s.streamEntry.region = .ok u) :
    s.RegionIn s.streamEntry.region.start s.streamEntry.region.size := (checkRegion_eq_ok ..).mp h

/-- A command whose one region is its input stream. -/
theorem bounded_stream {s : State} {i : Instr} {u : Unit} {rs : List (Fin 4 × Word)}
    (hi : regionEntries s i = [s.streamEntry]) (h : checkRegion s s.streamEntry.region = .ok u)
    (hres : ∀ r ∈ rs, r.1 ∈ i.namedResults) (hin : i.inputPbds = []) (hout : i.outputPbds = []) :
    Bounded i s (s.effect [] rs) :=
  bounded_readOnly (by simpa [hi] using streamEntry_region h) (by simp [State.NoOverlap, hi, noConflict]) hres
    (by simp [hin]) (by simp [hout])

theorem bounded_nop {s : State} {e : Effect} (h : nopOutcome s = .ok e) : Bounded .nop s e := by
  obtain rfl := Except.ok.inj h
  exact bounded_readOnly (by simp [regionEntries]) rfl (by simp) (by simp [Instr.inputPbds]) (by simp [Instr.outputPbds])

theorem bounded_ident {s : State} {e : Effect} (h : identOutcome s = .ok e) : Bounded .ident s e := by
  simp only [identOutcome, bind_eq_ok, pure_eq_ok] at h
  obtain ⟨_, h1, rfl⟩ := h
  exact bounded_stream rfl h1 (by simp [Instr.namedResults]) rfl rfl

theorem bounded_ftHdr {s : State} {e : Effect} (h : ftHdrOutcome s = .ok e) : Bounded .ftHdr s e := by
  simp only [ftHdrOutcome, bind_eq_ok, pure_eq_ok] at h
  obtain ⟨_, h1, _, _, rfl⟩ := h
  exact bounded_stream rfl h1 (by simp [Instr.namedResults]) rfl rfl

theorem bounded_ftEnt {s : State} {e : Effect} (h : ftEntOutcome s = .ok e) : Bounded .ftEnt s e := by
  simp only [ftEntOutcome, bind_eq_ok, pure_eq_ok] at h
  obtain ⟨_, h1, _, _, rfl⟩ := h
  exact bounded_stream rfl h1 (by simp [Instr.namedResults]) rfl rfl

theorem bounded_blkHdr {s : State} {e : Effect} (h : blkHdrOutcome s = .ok e) : Bounded .blkHdr s e := by
  simp only [blkHdrOutcome, bind_eq_ok, pure_eq_ok] at h
  obtain ⟨_, h1, _, _, rfl⟩ := h
  exact bounded_stream rfl h1 (by simp [Instr.namedResults]) rfl rfl

theorem bounded_qlookup {s : State} {e : Effect} {n : BitVec 4} {g : Bool} (h : qlookupOutcome n g s = .ok e) :
    Bounded (.qlookup n g) s e := by
  simp only [qlookupOutcome, bind_eq_ok, pure_eq_ok] at h
  obtain ⟨_, _, rfl⟩ := h
  exact bounded_readOnly (by simp [regionEntries]) rfl (by simp [Instr.namedResults]) (by simp [Instr.inputPbds])
    (by simp [Instr.outputPbds])

theorem bounded_pbGet {s : State} {e : Effect} (h : pbGetOutcome s = .ok e) : Bounded .pbGet s e := by
  simp only [pbGetOutcome, bind_eq_ok, pure_eq_ok] at h
  obtain ⟨p, kp, rfl⟩ := h
  obtain ⟨rfl, hp⟩ := checkPbd_input kp
  refine bounded_readOnly (pbdEntries_regions hp.1) ?_ (by simp [Instr.namedResults]) (by simpa [Instr.inputPbds] using hp)
    (by simp [Instr.outputPbds])
  simp [State.NoOverlap, regionEntries, State.pbdEntries, noConflict, RegionEntry.conflicts, RegionEntry.writes]

/-- The cells of a pixel lie in its buffer's storage. -/
theorem pbSetCells_mem {p : Pbd} {x y : Int} {v : Pixel} {c : Host.Cell} (h : c ∈ pbSetCells p x y v) (hp : p.Fits) :
    p.base ≤ c.1 ∧ c.1 < p.base + p.cap := by
  unfold pbSetCells at h
  split at h
  · rename_i hr
    have hm := mem_cellsAt h
    rw [length_leBytes] at hm
    obtain ⟨hi, -, -⟩ := PixelBuffer.rowMajor (w := p.width) (h := p.height) (x := x.toNat) (y := y.toNat)
      (by omega) (by omega)
    simp only [pixelAddress] at hm
    have := hp
    rw [Pbd.Fits, Nat.mul_assoc] at this
    omega
  · simp at h

theorem bounded_pbSet {s : State} {e : Effect} (h : pbSetOutcome s = .ok e) : Bounded .pbSet s e := by
  simp only [pbSetOutcome, bind_eq_ok, pure_eq_ok, checkOverlap_eq_ok] at h
  obtain ⟨p, kp, _, hno, rfl⟩ := h
  obtain ⟨rfl, hp⟩ := checkPbd_input kp
  exact {
    dest := dest_of_entries fun c hc => ⟨_, List.mem_cons_of_mem _ (List.mem_cons_self ..), by simp, by
      rw [has_iff, storageAt_arg hp.1.2.1]
      exact pbSetCells_mem hc hp.2⟩
    regions := pbdEntries_regions hp.1
    noOverlap := hno
    results := by simp [State.effect]
    trunc := by simp [State.effect]
    draws := le_rfl
    drawing := .inl rfl
    inputs := by simpa [Instr.inputPbds] using hp
    outputs := by simp [Instr.outputPbds] }

/-- Writing an output buffer, with everything but its cells at an effect's default. -/
theorem bounded_emitBuffer {s : State} {i : Instr} {k : Fin 8} {Q : PixelBuffer} {rs : List (Fin 4 × Word)} {e : Effect}
    (h : emitBuffer s i (s.argNat k) (s.pbdArg k) Q rs = .ok e) (hQ : Q.wf = true) (hp : s.OutputPbd k)
    (hsub : ∀ f ∈ s.pbdEntries k .update .write, f ∈ regionEntries s i)
    (hreg : ∀ f ∈ regionEntries s i, s.RegionIn f.region.start f.region.size)
    (hres : ∀ r ∈ rs, r.1 ∈ i.namedResults) (hin : ∀ k ∈ i.inputPbds, s.InputPbd k)
    (hout : ∀ k ∈ i.outputPbds, s.OutputPbd k) : Bounded i s e := by
  obtain ⟨hcap, hno, rfl⟩ := (emitBuffer_eq_ok ..).mp h
  exact {
    dest := dest_of_entries (bufferCells_dest hp hsub hQ hcap.2.2)
    regions := hreg
    noOverlap := hno
    results := hres
    trunc := by simp [State.effect]
    draws := le_rfl
    drawing := .inl rfl
    inputs := hin
    outputs := hout }

theorem bounded_pbCrop {s : State} {e : Effect} (h : pbCropOutcome s = .ok e) : Bounded .pbCrop s e := by
  simp only [pbCropOutcome, bind_eq_ok] at h
  obtain ⟨p, kp, q, kq, h⟩ := h
  obtain ⟨rfl, hp⟩ := checkPbd_input kp
  obtain ⟨rfl, hq⟩ := checkPbd_output kq
  refine bounded_emitBuffer h (PixelBuffer.crop_wf ..) hq (fun f hf => List.mem_append_right _ hf) ?_ (by simp)
    (by simpa [Instr.inputPbds] using hp) (by simpa [Instr.outputPbds] using hq)
  exact List.forall_mem_append.mpr ⟨pbdEntries_regions hp.1, pbdEntries_regions hq⟩

theorem bounded_pbShift {s : State} {e : Effect} (h : pbShiftOutcome s = .ok e) : Bounded .pbShift s e := by
  simp only [pbShiftOutcome, bind_eq_ok] at h
  obtain ⟨p, kp, q, kq, h⟩ := h
  obtain ⟨rfl, hp⟩ := checkPbd_input kp
  obtain ⟨rfl, hq⟩ := checkPbd_output kq
  refine bounded_emitBuffer h (PixelBuffer.shift_wf ..) hq (fun f hf => List.mem_append_right _ hf) ?_ (by simp)
    (by simpa [Instr.inputPbds] using hp) (by simpa [Instr.outputPbds] using hq)
  exact List.forall_mem_append.mpr ⟨pbdEntries_regions hp.1, pbdEntries_regions hq⟩

/-- The in-place write of a destination's storage. -/
theorem bounded_storage {s : State} {i : Instr} {Q : PixelBuffer}
    (hi : regionEntries s i = s.pbdEntries 0 .read .read ++ s.pbdEntries 5 .read .update) (hno : s.NoOverlap i)
    (h0 : s.InputPbd 0) (h5 : s.InputPbd 5) (hQ : Q.wf = true) (hw : Q.width = (s.pbdArg 5).width)
    (hh : Q.height = (s.pbdArg 5).height) (hin : i.inputPbds = [0, 5]) (hout : i.outputPbds = []) :
    Bounded i s (s.effect (storageCells (s.pbdArg 5) Q) []) where
  dest := dest_of_entries fun c hc => ⟨⟨.update, s.storageAt (s.argNat 5)⟩, by simp [hi, State.pbdEntries], by simp, by
    have hlen : Q.data.length = Q.width * Q.height := by simpa [PixelBuffer.wf] using hQ
    have hm := mem_cellsAt hc
    rw [length_pixelBytes, hlen, hw, hh] at hm
    have hf := h5.2
    rw [Pbd.Fits, Nat.mul_assoc] at hf
    rw [has_iff, storageAt_arg h5.1.2.1]
    simp only [Pbd.storage]
    omega⟩
  regions := by
    rw [hi]
    exact List.forall_mem_append.mpr ⟨pbdEntries_regions h0.1, pbdEntries_regions h5.1⟩
  noOverlap := hno
  results := by simp [State.effect]
  trunc := by simp [State.effect]
  draws := le_rfl
  drawing := .inl rfl
  inputs := by
    rw [hin]
    simpa using ⟨h0, h5⟩
  outputs := by simp [hout]

theorem bounded_pbBlit {s : State} {e : Effect} {a : Bool} (h : pbBlitOutcome a s = .ok e) : Bounded (.pbBlit a) s e := by
  simp only [pbBlitOutcome, bind_eq_ok, pure_eq_ok, checkOverlap_eq_ok] at h
  obtain ⟨p, kp, q, kq, _, hno, rfl⟩ := h
  obtain ⟨rfl, hp⟩ := checkPbd_input kp
  obtain ⟨rfl, hq⟩ := checkPbd_input kq
  exact bounded_storage rfl hno hp hq (PixelBuffer.blit_wf ..) rfl rfl rfl rfl

theorem bounded_pbXplant {s : State} {e : Effect} (h : pbXplantOutcome s = .ok e) : Bounded .pbXplant s e := by
  simp only [pbXplantOutcome, bind_eq_ok, pure_eq_ok, checkOverlap_eq_ok] at h
  obtain ⟨p, kp, q, kq, _, hno, rfl⟩ := h
  obtain ⟨rfl, hp⟩ := checkPbd_input kp
  obtain ⟨rfl, hq⟩ := checkPbd_input kq
  exact bounded_storage rfl hno hp hq (PixelBuffer.transplant_wf ..) rfl rfl rfl rfl

/-- The effect with its TRUNC flag set by a decoder. -/
theorem Bounded.withTrunc {i : Instr} {s : State} {e : Effect} (h : Bounded i s e) (b : Bool)
    (hi : i = .decFrm ∨ i = .blkDec) : Bounded i s { e with trunc := b } :=
  { h with trunc := fun _ => hi }

theorem bounded_decFrm {s : State} {e : Effect} (h : decFrmOutcome s = .ok e) : Bounded .decFrm s e := by
  simp only [decFrmOutcome, bind_eq_ok, pure_eq_ok] at h
  obtain ⟨_, h1, p, kp, de, -, e, h, rfl⟩ := h
  obtain ⟨rfl, hp⟩ := checkPbd_output kp
  obtain ⟨hw, hh, hl⟩ := decodeEntry_size s.stream de.1 de.2
  refine (bounded_emitBuffer h (by simp [PixelBuffer.wf, hw, hh, hl]) hp (fun f hf => List.mem_cons_of_mem _ hf) ?_
    (by simp [Instr.namedResults]) (by simp [Instr.inputPbds]) (by simpa [Instr.outputPbds] using hp)).withTrunc _ (.inl rfl)
  exact List.forall_mem_cons.mpr ⟨streamEntry_region h1, pbdEntries_regions hp⟩

theorem decodeTile_wf {st : List Byte} {k : Nat} {T : PixelBuffer × Bool} (h : decodeTile st k = .ok T) :
    T.1.wf = true := by
  simp only [decodeTile, bind_eq_ok, pure_eq_ok] at h
  obtain ⟨_, _, _, _, _, _, rfl⟩ := h
  simp [decodeRaw, PixelBuffer.wf]

theorem bounded_blkDec {s : State} {e : Effect} (h : blkDecOutcome s = .ok e) : Bounded .blkDec s e := by
  simp only [blkDecOutcome, bind_eq_ok, pure_eq_ok] at h
  obtain ⟨_, h1, p, kp, T, hT, e, h, rfl⟩ := h
  obtain ⟨rfl, hp⟩ := checkPbd_output kp
  refine (bounded_emitBuffer h (decodeTile_wf hT) hp (fun f hf => List.mem_cons_of_mem _ hf) ?_
    (by simp [Instr.namedResults]) (by simp [Instr.inputPbds]) (by simpa [Instr.outputPbds] using hp)).withTrunc _ (.inr rfl)
  exact List.forall_mem_cons.mpr ⟨streamEntry_region h1, pbdEntries_regions hp⟩

theorem bounded_blkStitch {s : State} {e : Effect} (h : blkStitchOutcome s = .ok e) : Bounded .blkStitch s e := by
  simp only [blkStitchOutcome, bind_eq_ok] at h
  obtain ⟨ps, kps, q, kq, h⟩ := h
  obtain ⟨rfl, hps⟩ := checkPbdArray_input kps
  obtain ⟨rfl, hq⟩ := checkPbd_output kq
  refine bounded_emitBuffer h ((stitchTiles_size ..).2.2 (PixelBuffer.zero_wf ..)) hq
    (fun f hf => List.mem_cons_of_mem _ (List.mem_append_left _ hf)) ?_ (by simp [Instr.namedResults])
    (by simp [Instr.inputPbds]) (by simpa [Instr.outputPbds] using hq)
  refine List.forall_mem_cons.mpr ⟨hps.2.1, List.forall_mem_append.mpr
    ⟨pbdEntries_regions hq, arrayStorage_regions hps⟩⟩

/-- Writing output bytes. -/
theorem bounded_emitBytes {s : State} {i : Instr} {bs : List Byte} {rs : List (Fin 4 × Word)} {e : Effect}
    (h : emitBytes s i bs rs = .ok e) (hsub : s.outputEntry ∈ regionEntries s i)
    (hreg : ∀ f ∈ regionEntries s i, s.RegionIn f.region.start f.region.size)
    (hres : ∀ r ∈ rs, r.1 ∈ i.namedResults) (hin : ∀ k ∈ i.inputPbds, s.InputPbd k)
    (hout : ∀ k ∈ i.outputPbds, s.OutputPbd k) : Bounded i s e := by
  obtain ⟨hcap, hno, rfl⟩ := (emitBytes_eq_ok ..).mp h
  exact {
    dest := dest_of_entries fun c hc => ⟨_, hsub, by simp [State.outputEntry], by
      have := mem_cellsAt hc
      simp only [has_iff, State.outputEntry]
      omega⟩
    regions := hreg
    noOverlap := hno
    results := hres
    trunc := by simp [State.effect]
    draws := le_rfl
    drawing := .inl rfl
    inputs := hin
    outputs := hout }

theorem encoder_regions {s : State} {fs : List PixelBuffer} (h : encoderFrames s = .ok fs) :
    ∀ f ∈ (⟨.read, ⟨s.argNat 0, 16 * s.argNat 1⟩⟩ :: s.outputEntry :: s.arrayStorage (s.argNat 0) (s.argNat 1) :
      List RegionEntry), s.RegionIn f.region.start f.region.size := by
  obtain ⟨ps, kps, hout, -⟩ := (encoderFrames_eq_ok ..).mp h
  obtain ⟨rfl, hps⟩ := checkPbdArray_input kps
  exact List.forall_mem_cons.mpr ⟨hps.2.1, List.forall_mem_cons.mpr ⟨hout, arrayStorage_regions hps⟩⟩

theorem bounded_encS16 {s : State} {e : Effect} (h : encS16Outcome s = .ok e) : Bounded .encS16 s e := by
  simp only [encS16Outcome, bind_eq_ok] at h
  obtain ⟨fs, hf, h⟩ := h
  exact bounded_emitBytes h (by simp [regionEntries]) (encoder_regions hf) (by simp [Instr.namedResults])
    (by simp [Instr.inputPbds]) (by simp [Instr.outputPbds])

theorem bounded_encC16 {s : State} {e : Effect} (h : encC16Outcome s = .ok e) : Bounded .encC16 s e := by
  simp only [encC16Outcome, bind_eq_ok] at h
  obtain ⟨fs, hf, h⟩ := h
  exact bounded_emitBytes h (by simp [regionEntries]) (encoder_regions hf) (by simp [Instr.namedResults])
    (by simp [Instr.inputPbds]) (by simp [Instr.outputPbds])

theorem bounded_blkEnc {s : State} {e : Effect} (h : blkEncOutcome s = .ok e) : Bounded .blkEnc s e := by
  simp only [blkEncOutcome, bind_eq_ok, checkRegion_eq_ok] at h
  obtain ⟨p, kp, _, hr, _, _, h⟩ := h
  obtain ⟨rfl, hp⟩ := checkPbd_input kp
  exact bounded_emitBytes h (by simp [regionEntries])
    (List.forall_mem_cons.mpr ⟨hr, pbdEntries_regions hp.1⟩) (by simp [Instr.namedResults])
    (by simpa [Instr.inputPbds] using hp) (by simp [Instr.outputPbds])

/-! ### Draws -/

theorem quantise_draws (st : Strategy) (g : Bool) (N v x y n : Nat) :
    n ≤ (quantise st g N v x y n).2 ∧ (st.drawing = false → (quantise st g N v x y n).2 = n) := by
  unfold quantise
  split <;> first
    | exact ⟨le_rfl, fun _ => rfl⟩
    | exact ⟨Nat.le_succ n, fun h => by simp [Strategy.drawing] at h⟩
    | skip
  refine ⟨?_, fun h => by simp [Strategy.drawing] at h⟩
  simp only [selectRandom]
  split <;> simp

theorem ditherFrom_draws (st : Strategy) (g : Bool) (N w i n : Nat) (plane : List Byte) :
    n ≤ (ditherFrom st g N w i n plane).2 ∧ (st.drawing = false → (ditherFrom st g N w i n plane).2 = n) := by
  induction plane generalizing i n with
  | nil => exact ⟨le_rfl, fun _ => rfl⟩
  | cons v rest ih =>
    simp only [ditherFrom]
    obtain ⟨h1, h2⟩ := quantise_draws st g N v.toNat (i % w) (i / w) n
    obtain ⟨h3, h4⟩ := ih (i + 1) (quantise st g N v.toNat (i % w) (i / w) n).2
    exact ⟨h1.trans h3, fun h => (h4 h).trans (h2 h)⟩

theorem ditherChannel_draws (st : Strategy) (g : Bool) (N w n : Nat) (plane : List Byte) :
    n ≤ (ditherChannel st g N w plane n).2 ∧ (st.drawing = false → (ditherChannel st g N w plane n).2 = n) :=
  ditherFrom_draws ..

theorem bounded_quant {s : State} {e : Effect} {c : BitVec 5} {n : BitVec 4} {g : Bool}
    (h : quantOutcome c n g s = .ok e) : Bounded (.quant c n g) s e := by
  simp only [quantOutcome, bind_eq_ok, pure_eq_ok, checkStrategy_eq_ok] at h
  obtain ⟨_, -, st, hst, _, hr, rfl⟩ := h
  obtain ⟨hd1, hd2⟩ := ditherChannel_draws st g n.toNat (s.argNat 1) s.draws (s.planeArg 0 (s.argNat 1) (s.argNat 2))
  exact {
    dest := dest_of_entries fun a ha => ⟨_, List.mem_cons_self .., by simp, by
      have := mem_cellsAt ha
      simp only [List.length_map, ditherChannel_length, State.planeArg_length] at this
      simp only [has_iff, State.planeRegion]
      omega⟩
    regions := by simpa [regionEntries] using (checkRegion_eq_ok ..).mp hr
    noOverlap := by simp [State.NoOverlap, regionEntries, noConflict]
    results := by simp
    trunc := by simp
    draws := hd1
    drawing := by
      cases hb : st.drawing with
      | false => exact .inl (hd2 hb)
      | true => exact .inr ⟨c, st, hst, hb, .inl ⟨n, g, rfl⟩⟩
    inputs := by simp [Instr.inputPbds]
    outputs := by simp [Instr.outputPbds] }

theorem bounded_pack565 {s : State} {e : Effect} {c d : BitVec 5} (h : pack565Outcome c d s = .ok e) :
    Bounded (.pack565 c d) s e := by
  simp only [pack565Outcome, bind_eq_ok, pure_eq_ok, checkStrategy_eq_ok, checkRegion_eq_ok] at h
  obtain ⟨cd, hcd, ad, had, _, h0, _, h1, _, h2, _, h3, p, kp, e, h, rfl⟩ := h
  obtain ⟨rfl, hp⟩ := checkPbd_output kp
  have hb := bounded_emitBuffer h (by
      rw [PixelBuffer.wf, decide_eq_true_eq]
      exact (packPixels_length _ _ _ _ _ (by simp) (by simp) (by simp)).trans (by simp)) hp
    (fun f hf => List.mem_cons_of_mem _ (List.mem_cons_of_mem _ (List.mem_cons_of_mem _ (List.mem_cons_of_mem _ hf))))
    (List.forall_mem_cons.mpr ⟨h0, List.forall_mem_cons.mpr ⟨h1, List.forall_mem_cons.mpr ⟨h2,
      List.forall_mem_cons.mpr ⟨h3, pbdEntries_regions hp⟩⟩⟩⟩) (by simp) (by simp [Instr.inputPbds])
    (by simpa [Instr.outputPbds] using hp)
  refine { hb with draws := ?_, drawing := ?_ }
  · simp only [packPlanes]
    exact (ditherChannel_draws ..).1.trans <| (ditherChannel_draws ..).1.trans <|
      (ditherChannel_draws ..).1.trans (ditherChannel_draws ..).1
  · cases hc : cd.drawing with
    | true => exact .inr ⟨c, cd, hcd, hc, .inr ⟨d, .inl rfl⟩⟩
    | false =>
      cases ha : ad.drawing with
      | true => exact .inr ⟨d, ad, had, ha, .inr ⟨c, .inr rfl⟩⟩
      | false =>
        refine .inl ?_
        simp only [packPlanes]
        rw [(ditherChannel_draws ..).2 ha, (ditherChannel_draws ..).2 hc, (ditherChannel_draws ..).2 hc,
          (ditherChannel_draws ..).2 hc]

/-- Every outcome that succeeds is bounded. -/
theorem outcome_bounded {i : Instr} {s : State} {e : Effect} (h : outcome s i = .ok e) : Bounded i s e := by
  cases i with
  | nop => exact bounded_nop h
  | ident => exact bounded_ident h
  | ftHdr => exact bounded_ftHdr h
  | ftEnt => exact bounded_ftEnt h
  | decFrm => exact bounded_decFrm h
  | encS16 => exact bounded_encS16 h
  | encC16 => exact bounded_encC16 h
  | blkHdr => exact bounded_blkHdr h
  | blkDec => exact bounded_blkDec h
  | blkStitch => exact bounded_blkStitch h
  | blkEnc => exact bounded_blkEnc h
  | pbGet => exact bounded_pbGet h
  | pbSet => exact bounded_pbSet h
  | pbCrop => exact bounded_pbCrop h
  | pbShift => exact bounded_pbShift h
  | pbBlit a => exact bounded_pbBlit h
  | pbXplant => exact bounded_pbXplant h
  | quant c n g => exact bounded_quant h
  | pack565 c d => exact bounded_pack565 h
  | qlookup n g => exact bounded_qlookup h

/-! ### An error carries a code -/

/-- An outcome that is not "error, code 0". -/
structure Coded {α : Type} (x : Except ErrCode α) : Prop where
  ne : x ≠ .error .none

theorem coded_ok {α : Type} (a : α) : Coded (.ok a : Except ErrCode α) := ⟨fun h => nomatch h⟩

theorem coded_pure {α : Type} (a : α) : Coded (pure a : Except ErrCode α) := coded_ok a

theorem coded_error {α : Type} {c : ErrCode} (h : c ≠ .none) : Coded (.error c : Except ErrCode α) :=
  ⟨fun he => h (Except.error.inj he)⟩

theorem coded_bind {α β : Type} {x : Except ErrCode α} {f : α → Except ErrCode β} (hx : Coded x)
    (hf : ∀ a, Coded (f a)) : Coded (x >>= f) := by
  cases x with
  | error c => exact ⟨fun h => hx.ne (by simpa [bind, Except.bind] using h)⟩
  | ok a => exact hf a

theorem coded_require {b : Bool} {c : ErrCode} (h : c ≠ .none) : Coded (require b c) := by
  cases b
  · exact coded_error h
  · exact coded_ok _

theorem coded_checkBits (n : BitVec 4) : Coded (checkBits n) := coded_require (by decide)

theorem coded_checkStrategy (c : BitVec 5) : Coded (checkStrategy c) := by
  unfold checkStrategy
  split
  · exact coded_ok _
  · exact coded_error (by decide)

theorem coded_checkRegion (s : State) (r : Region) : Coded (checkRegion s r) := coded_require (by decide)

theorem coded_checkOverlap (s : State) (i : Instr) : Coded (checkOverlap s i) := coded_require (by decide)

theorem coded_checkPbdBody (s : State) (d : Nat) (b : Bool) : Coded (checkPbdBody s d b) :=
  coded_bind (coded_require (by decide)) fun _ => coded_bind (coded_checkRegion ..) fun _ =>
    coded_bind (coded_require (by decide)) fun _ => coded_pure _

theorem coded_checkPbd (s : State) (d : Nat) (b : Bool) : Coded (checkPbd s d b) :=
  coded_bind (coded_require (by decide)) fun _ => coded_bind (coded_checkRegion ..) fun _ => coded_checkPbdBody ..

theorem coded_checkPbdBodies (s : State) (d n : Nat) : Coded (checkPbdBodies s d n) := by
  induction n generalizing d with
  | zero => exact coded_ok _
  | succ n ih => exact coded_bind (coded_checkPbdBody ..) fun _ => coded_bind (ih _) fun _ => coded_pure _

theorem coded_checkPbdArray (s : State) (d n : Nat) : Coded (checkPbdArray s d n) :=
  coded_bind (coded_require (by decide)) fun _ => coded_bind (coded_checkRegion ..) fun _ => coded_checkPbdBodies ..

theorem coded_emitBuffer (s : State) (i : Instr) (d : Nat) (p : Pbd) (Q : PixelBuffer) (rs : List (Fin 4 × Word)) :
    Coded (emitBuffer s i d p Q rs) :=
  coded_bind (coded_require (by decide)) fun _ => coded_bind (coded_checkOverlap ..) fun _ => coded_pure _

theorem coded_emitBytes (s : State) (i : Instr) (bs : List Byte) (rs : List (Fin 4 × Word)) :
    Coded (emitBytes s i bs rs) :=
  coded_bind (coded_require (by decide)) fun _ => coded_bind (coded_checkOverlap ..) fun _ => coded_pure _

theorem coded_header (st : List Byte) : Coded (header st) := by
  refine coded_bind (coded_require (by decide)) fun _ => ?_
  split
  · exact coded_error (by decide)
  · exact coded_bind (coded_require (by decide)) fun _ => coded_pure _

theorem coded_frameEntry (st : List Byte) (d : Descriptor) (c k : Nat) : Coded (frameEntry st d c k) :=
  coded_bind (coded_require (by decide)) fun _ => coded_bind (coded_require (by decide)) fun _ => coded_pure _

theorem coded_parseEntry (st : List Byte) (k : Nat) : Coded (parseEntry st k) :=
  coded_bind (coded_header _) fun _ => coded_bind (coded_frameEntry ..) fun _ => coded_pure _

theorem coded_encoderFrames (s : State) : Coded (encoderFrames s) :=
  coded_bind (coded_checkPbdArray ..) fun _ => coded_bind (coded_checkRegion ..) fun _ =>
    coded_bind (coded_require (by decide)) fun _ => coded_pure _

theorem coded_blkHeader (st : List Byte) : Coded (blkHeader st) := by
  refine coded_bind (coded_require (by decide)) fun _ => ?_
  split
  · exact coded_error (by decide)
  · exact coded_bind (coded_require (by decide)) fun _ => coded_bind (coded_require (by decide)) fun _ =>
      coded_bind (coded_require (by decide)) fun _ => coded_pure _

theorem coded_decodeTile (st : List Byte) (k : Nat) : Coded (decodeTile st k) :=
  coded_bind (coded_blkHeader _) fun _ => coded_bind (coded_require (by decide)) fun _ =>
    coded_bind (coded_require (by decide)) fun _ => coded_pure _

/-- A command that ends with an error reports a code other than 0 (60_exceptions.md R340, R341). -/
theorem outcome_coded (s : State) (i : Instr) : Coded (outcome s i) := by
  cases i with
  | nop => exact coded_ok _
  | ident => exact coded_bind (coded_checkRegion ..) fun _ => coded_pure _
  | ftHdr => exact coded_bind (coded_checkRegion ..) fun _ => coded_bind (coded_header _) fun _ => coded_pure _
  | ftEnt => exact coded_bind (coded_checkRegion ..) fun _ => coded_bind (coded_parseEntry ..) fun _ => coded_pure _
  | decFrm =>
    exact coded_bind (coded_checkRegion ..) fun _ => coded_bind (coded_checkPbd ..) fun _ =>
      coded_bind (coded_parseEntry ..) fun _ => coded_bind (coded_emitBuffer ..) fun _ => coded_pure _
  | encS16 => exact coded_bind (coded_encoderFrames _) fun _ => coded_emitBytes ..
  | encC16 => exact coded_bind (coded_encoderFrames _) fun _ => coded_emitBytes ..
  | blkHdr => exact coded_bind (coded_checkRegion ..) fun _ => coded_bind (coded_blkHeader _) fun _ => coded_pure _
  | blkDec =>
    exact coded_bind (coded_checkRegion ..) fun _ => coded_bind (coded_checkPbd ..) fun _ =>
      coded_bind (coded_decodeTile ..) fun _ => coded_bind (coded_emitBuffer ..) fun _ => coded_pure _
  | blkStitch =>
    exact coded_bind (coded_checkPbdArray ..) fun _ => coded_bind (coded_checkPbd ..) fun _ => coded_emitBuffer ..
  | blkEnc =>
    exact coded_bind (coded_checkPbd ..) fun _ => coded_bind (coded_checkRegion ..) fun _ =>
      coded_bind (coded_require (by decide)) fun _ => coded_emitBytes ..
  | pbGet => exact coded_bind (coded_checkPbd ..) fun _ => coded_pure _
  | pbSet => exact coded_bind (coded_checkPbd ..) fun _ => coded_bind (coded_checkOverlap ..) fun _ => coded_pure _
  | pbCrop => exact coded_bind (coded_checkPbd ..) fun _ => coded_bind (coded_checkPbd ..) fun _ => coded_emitBuffer ..
  | pbShift => exact coded_bind (coded_checkPbd ..) fun _ => coded_bind (coded_checkPbd ..) fun _ => coded_emitBuffer ..
  | pbBlit a =>
    exact coded_bind (coded_checkPbd ..) fun _ => coded_bind (coded_checkPbd ..) fun _ =>
      coded_bind (coded_checkOverlap ..) fun _ => coded_pure _
  | pbXplant =>
    exact coded_bind (coded_checkPbd ..) fun _ => coded_bind (coded_checkPbd ..) fun _ =>
      coded_bind (coded_checkOverlap ..) fun _ => coded_pure _
  | quant c n g =>
    exact coded_bind (coded_checkBits _) fun _ => coded_bind (coded_checkStrategy _) fun _ =>
      coded_bind (coded_checkRegion ..) fun _ => coded_pure _
  | pack565 c d =>
    exact coded_bind (coded_checkStrategy _) fun _ => coded_bind (coded_checkStrategy _) fun _ =>
      coded_bind (coded_checkRegion ..) fun _ => coded_bind (coded_checkRegion ..) fun _ =>
      coded_bind (coded_checkRegion ..) fun _ => coded_bind (coded_checkRegion ..) fun _ =>
      coded_bind (coded_checkPbd ..) fun _ => coded_bind (coded_emitBuffer ..) fun _ => coded_pure _
  | qlookup n g => exact coded_bind (coded_checkBits _) fun _ => coded_pure _

/-- The inversion of `exec` by the error code it reports: code 0 with an effect, another code with none. -/
theorem exec_inv {i : Instr} {s t : State} (h : exec i s = .next t) :
    (∃ e, outcome s i = .ok e ∧ t = s.succeed e ∧ t.status.errcode = .none ∧ Bounded i s e) ∨
      ∃ c, outcome s i = .error c ∧ t = s.raiseError c ∧ t.status.errcode = c ∧ c ≠ .none := by
  obtain ⟨e, ho, rfl⟩ | ⟨c, ho, rfl⟩ := exec_cases h
  · exact .inl ⟨e, ho, rfl, rfl, outcome_bounded ho⟩
  · exact .inr ⟨c, ho, rfl, rfl, fun hc => (outcome_coded s i).ne (hc ▸ ho)⟩

theorem Bounded.read {i : Instr} {s : State} {e : Effect} (h : Bounded i s e) {a : Nat}
    (ha : ∀ r ∈ destinations s i, r.has a = false) : (s.lm.writeAll e.writes).read a = s.lm.read a := by
  refine Memory.read_writeAll_other _ _ _ fun c hc hac => ?_
  obtain ⟨r, hr, hh⟩ := h.dest c hc
  rw [← hac, ha r hr] at hh
  cases hh

/-- Every byte written lies in LM. -/
theorem Bounded.writes_lt {i : Instr} {s : State} {e : Effect} (h : Bounded i s e) :
    ∀ c ∈ e.writes, c.1 < s.params.memSize := by
  intro c hc
  obtain ⟨r, hr, hh⟩ := h.dest c hc
  simp only [destinations, List.mem_map, List.mem_filter] at hr
  obtain ⟨f, ⟨hf, -⟩, rfl⟩ := hr
  rw [has_iff] at hh
  have := h.regions f hf
  omega

/-- What no completion changes. -/
theorem complete_frame (s : State) (o : CmdOutcome) :
    s.complete o = { s with
      lm := (s.complete o).lm, res := (s.complete o).res, status := (s.complete o).status,
      draws := (s.complete o).draws } := by
  cases o with
  | ok e => simp only [State.complete, State.succeed_eq]
  | error c => rfl

end Sys2Proof.Machine
end

