-- ==== Sys2Proof/Laws/Errors.lean ====
section
/-! SUPPORT. With which code each shared check fails, in the terms of the claims, and the bounds of the operands. -/

namespace Sys2Proof.Machine

/-- A sequence ends with the error of its first outcome. -/
theorem bind_error {α β : Type} {x : Except ErrCode α} {e : ErrCode} (h : x = .error e) (f : α → Except ErrCode β) :
    (x >>= f) = .error e := by rw [h]; rfl

/-- A sequence goes on from an outcome that succeeds. -/
theorem bind_ok {α β : Type} {x : Except ErrCode α} {a : α} (h : x = .ok a) (f : α → Except ErrCode β) :
    (x >>= f) = f a := by rw [h]; rfl

theorem require_eq_error {c : Bool} (e : ErrCode) (h : c = false) : require c e = .error e := by rw [h]; rfl

theorem require_pass {c : Bool} (e : ErrCode) (h : c = true) : require c e = .ok () := by rw [h]; rfl

theorem checkRegion_fails {s : State} {r : Region} (h : ¬s.RegionIn r.start r.size) :
    checkRegion s r = .error .addrRange :=
  require_eq_error _ (Bool.eq_false_iff.mpr fun hr => h ((Region.inLm_iff ..).mp hr))

theorem checkRegion_pass {s : State} {r : Region} (h : s.RegionIn r.start r.size) : checkRegion s r = .ok () :=
  (checkRegion_eq_ok ..).mpr h

/-- A descriptor whose body fails ends with the code of its first failing check (R134 step 2). -/
theorem checkPbdBody_fails {s : State} {d : Nat} {input : Bool} {e : ErrCode}
    (h : s.BodyFails (readPbd s.lm d) input e) : checkPbdBody s d input = .error e := by
  unfold checkPbdBody
  obtain ⟨hb, rfl⟩ | ⟨hb, hr, rfl⟩ | ⟨hs, rfl, hf, rfl⟩ := h
  · exact bind_error (require_eq_error _ (by simpa using hb)) _
  · exact (bind_ok (require_pass _ (by simpa using hb)) _).trans (bind_error (checkRegion_fails hr) _)
  · exact (bind_ok (require_pass _ (by simpa using hs.1)) _).trans <|
      (bind_ok (checkRegion_pass hs.2) _).trans (bind_error (require_eq_error _ (by simpa using hf)) _)

theorem checkPbd_fails {s : State} {i : Fin 8} {input : Bool} {e : ErrCode} (h : s.PbdFails i input e) :
    checkPbd s (s.argNat i) input = .error e := by
  unfold checkPbd
  obtain ⟨ha, rfl⟩ | ⟨ha, hr, rfl⟩ | ⟨ha, hr, hb⟩ := h
  · exact bind_error (require_eq_error _ (by simpa using ha)) _
  · refine (bind_ok (require_pass _ (by simpa using ha)) _).trans (bind_error (checkRegion_fails ?_) _)
    simp only [pbdRegion]
    omega
  · exact (bind_ok (require_pass _ (by simpa using ha)) _).trans <|
      (bind_ok (checkRegion_pass (r := pbdRegion (s.argNat i)) (.inr hr)) _).trans (checkPbdBody_fails hb)

theorem checkPbdBodies_fails {s : State} {d n k : Nat} {e : ErrCode} (hk : k < n)
    (hj : ∀ j < k, s.StorageOk (readPbd s.lm (d + 16 * j)) ∧ (readPbd s.lm (d + 16 * j)).Fits)
    (h : s.BodyFails (readPbd s.lm (d + 16 * k)) true e) : checkPbdBodies s d n = .error e := by
  induction n generalizing d k with
  | zero => omega
  | succ n ih =>
    cases k with
    | zero => exact bind_error (checkPbdBody_fails h) _
    | succ k =>
      have h0 := hj 0 (by omega)
      refine (bind_ok ((checkPbdBody_eq_ok ..).mpr ⟨rfl, h0.1.1, h0.1.2, fun _ => h0.2⟩) _).trans (bind_error ?_ _)
      have hs : ∀ i, d + 16 * (i + 1) = d + 16 + 16 * i := fun i => by omega
      exact ih (by omega) (fun j hjk => hs j ▸ hj (j + 1) (by omega)) (hs k ▸ h)

theorem checkPbdArray_fails {s : State} {n : Nat} {e : ErrCode} (h : s.ArrayFails n e) :
    checkPbdArray s (s.argNat 0) n = .error e := by
  unfold checkPbdArray
  obtain ⟨ha, rfl⟩ | ⟨ha, hr, rfl⟩ | ⟨ha, hr, k, hk, hj, hb⟩ := h
  · exact bind_error (require_eq_error _ (by simpa using ha)) _
  · exact (bind_ok (require_pass _ (by simpa using ha)) _).trans (bind_error (checkRegion_fails hr) _)
  · exact (bind_ok (require_pass _ (by simpa using ha)) _).trans <|
      (bind_ok (checkRegion_pass (r := ⟨s.argNat 0, 16 * n⟩) hr) _).trans (checkPbdBodies_fails hk hj hb)

/-- An output that its descriptor does not take ends with E_CAPACITY (R134 step 4, R136). -/
theorem emitBuffer_capacity {s : State} {i : Instr} {d : Nat} {p : Pbd} {Q : PixelBuffer} (rs : List (Fin 4 × Word))
    (h : ¬p.Takes Q.width Q.height) : emitBuffer s i d p Q rs = .error .capacity :=
  bind_error (require_eq_error _ (decide_eq_false h)) _

theorem checkOverlap_fails {s : State} {i : Instr} (h : ¬s.NoOverlap i) : checkOverlap s i = .error .overlap :=
  require_eq_error _ (Bool.eq_false_iff.mpr h)

/-- An output that fits, with a conflict in the region list, ends with E_OVERLAP (R134 step 4, R87). -/
theorem emitBuffer_overlap {s : State} {i : Instr} {d : Nat} {p : Pbd} {Q : PixelBuffer} (rs : List (Fin 4 × Word))
    (h : p.Takes Q.width Q.height) (hno : ¬s.NoOverlap i) : emitBuffer s i d p Q rs = .error .overlap :=
  (bind_ok (require_pass _ (decide_eq_true h)) _).trans (bind_error (checkOverlap_fails hno) _)

theorem emitBytes_capacity {s : State} {i : Instr} {bs : List Byte} (rs : List (Fin 4 × Word))
    (h : s.argNat 3 < bs.length) : emitBytes s i bs rs = .error .capacity :=
  bind_error (require_eq_error _ (by simpa using h)) _

theorem emitBytes_overlap {s : State} {i : Instr} {bs : List Byte} (rs : List (Fin 4 × Word))
    (h : bs.length ≤ s.argNat 3) (hno : ¬s.NoOverlap i) : emitBytes s i bs rs = .error .overlap :=
  (bind_ok (require_pass _ (decide_eq_true h)) _).trans (bind_error (checkOverlap_fails hno) _)

/-- A command with an array operand completes without error only if the array passes its checks. -/
theorem outcome_array {i : Instr} {s : State} {e : Effect} {n : Nat} (h : outcome s i = .ok e)
    (hn : s.arrayCount i = some n) : s.InputPbds n := by
  cases i with
  | encS16 =>
    obtain ⟨fs, hf, -⟩ := bind_eq_ok.mp h
    obtain ⟨ps, kps, -⟩ := (encoderFrames_eq_ok ..).mp hf
    exact Option.some.inj hn ▸ (checkPbdArray_input kps).2
  | encC16 =>
    obtain ⟨fs, hf, -⟩ := bind_eq_ok.mp h
    obtain ⟨ps, kps, -⟩ := (encoderFrames_eq_ok ..).mp hf
    exact Option.some.inj hn ▸ (checkPbdArray_input kps).2
  | blkStitch =>
    obtain ⟨ps, kps, -⟩ := bind_eq_ok.mp h
    exact Option.some.inj hn ▸ (checkPbdArray_input kps).2
  | _ => simp [State.arrayCount] at hn

/-! ### Bounds of operands -/

theorem State.argNat_lt (s : State) (i : Fin 8) : s.argNat i < 2 ^ 32 := s.larg[i].isLt

theorem readPbd_lt (m : Memory) (d : Nat) : (readPbd m d).width < 2 ^ 32 ∧ (readPbd m d).height < 2 ^ 32 :=
  ⟨m.readLe_lt (d + 4) 4, m.readLe_lt (d + 8) 4⟩

theorem in16_lt (st : List Byte) (b : Bool) (i : Nat) : in16 st b i < 65536 := by
  have h1 := (st.getD i 0#8).isLt
  have h2 := (st.getD (i + 1) 0#8).isLt
  unfold in16 inByte
  split <;> omega

end Sys2Proof.Machine
end

