-- ==== Sys2Proof/Laws/HostPort.lean ====
section
/-! SUPPORT. One lemma per operation of the Host port: where an access goes, which bytes a reset draws, what a Host read
returns, and what one step is for each kind of input. -/

namespace Sys2Proof.Machine

/-! ### Where an access goes -/

/-- An aligned word of the register block (20_memory.md R75). -/
theorem target_reg (p : Params) {k : Nat} (hk : k < 64) : target p (p.regBase + 4 * k) 4 = .reg (regAt k) := by
  rw [target, if_pos ⟨by omega, by omega⟩, if_pos ⟨rfl, by omega, by omega⟩]
  congr 2
  omega

/-- An access to the LM window (20_memory.md R76). -/
theorem target_lm {p : Params} (hp : p.wf = true) {a n : Nat} (h : a + n ≤ p.memSize) :
    target p (p.lmBase + a) n = .lm a := by
  simp only [Params.wf, Bool.and_eq_true, Bool.or_eq_true, decide_eq_true_eq] at hp
  rw [target, if_neg (by omega), if_pos ⟨by omega, by omega⟩, Nat.add_sub_cancel_left]

/-- What a target in LM says. -/
theorem target_eq_lm {p : Params} {addr n a : Nat} (h : target p addr n = .lm a) :
    addr = p.lmBase + a ∧ a + n ≤ p.memSize := by
  unfold target at h
  split at h
  · split at h <;> cases h
  · split at h
    · cases h
      omega
    · cases h

/-- What a register target says. -/
theorem target_eq_reg {p : Params} {addr n : Nat} {r : Reg} (h : target p addr n = .reg r) :
    n = 4 ∧ ∃ k < 64, addr = p.regBase + 4 * k ∧ r = regAt k := by
  unfold target at h
  split at h
  · split at h
    · cases h
      refine ⟨by omega, (addr - p.regBase) / 4, by omega, by omega, rfl⟩
    · cases h
  · split at h <;> cases h

theorem Width.bytes_pos (w : Width) : 0 < w.bytes := by cases w <;> decide

theorem Width.bytes_eq_four (w : Width) : w.bytes = 4 ↔ w = .word := by cases w <;> decide

@[simp] theorem regAt_id : regAt 0 = .id := rfl
@[simp] theorem regAt_ctrl : regAt 1 = .ctrl := rfl
@[simp] theorem regAt_status : regAt 2 = .status := rfl
@[simp] theorem regAt_cmd : regAt 3 = .cmd := rfl
@[simp] theorem regAt_memtop : regAt 16 = .memtop := rfl

theorem regAt_arg (i : Fin 8) : regAt (4 + i) = .arg i := by revert i; decide

theorem regAt_res (i : Fin 4) : regAt (12 + i) = .res i := by revert i; decide

theorem regAt_reserved {k : Nat} (h : 17 ≤ k) : regAt k = .reserved := by
  simp only [regAt]
  repeat rw [if_neg (by omega)]

/-- The register of an offset, taken back to its offset. -/
theorem regAt_cases (k : Nat) :
    (regAt k = .id ∧ k = 0) ∨ (regAt k = .ctrl ∧ k = 1) ∨ (regAt k = .status ∧ k = 2) ∨ (regAt k = .cmd ∧ k = 3) ∨
      (∃ i : Fin 8, regAt k = .arg i ∧ k = 4 + i) ∨ (∃ i : Fin 4, regAt k = .res i ∧ k = 12 + i) ∨
      (regAt k = .memtop ∧ k = 16) ∨ (regAt k = .reserved ∧ 17 ≤ k) := by
  rcases Nat.lt_or_ge k 4 with h | h
  · interval_cases k <;> simp
  rcases Nat.lt_or_ge k 12 with h12 | h12
  · have := regAt_arg ⟨k - 4, by omega⟩
    rw [show 4 + (k - 4) = k by omega] at this
    exact .inr (.inr (.inr (.inr (.inl ⟨_, this, by simp only; omega⟩))))
  rcases Nat.lt_or_ge k 16 with h16 | h16
  · have := regAt_res ⟨k - 12, by omega⟩
    rw [show 12 + (k - 12) = k by omega] at this
    exact .inr (.inr (.inr (.inr (.inr (.inl ⟨_, this, by simp only; omega⟩)))))
  rcases Nat.lt_or_ge k 17 with h17 | h17
  · obtain rfl : k = 16 := by omega
    simp
  · simp [regAt_reserved h17, h17]

/-! ### Drawn bytes -/

theorem drawRange_draws (a n : Nat) (m : Memory) (k : Nat) : (drawRange a n m k).2 = k + n := by
  induction n generalizing a m k with
  | zero => rfl
  | succ n ih =>
    rw [drawRange, ih]
    omega

theorem drawRange_wf {m : Memory} (h : m.wf = true) (a n k : Nat) : (drawRange a n m k).1.wf = true := by
  induction n generalizing a m k with
  | zero => exact h
  | succ n ih => exact ih (Memory.wf_write h _ _) ..

theorem drawRange_within {m : Memory} {size a n : Nat} (h : m.within size = true) (hn : n = 0 ∨ a + n ≤ size) (k : Nat) :
    (drawRange a n m k).1.within size = true := by
  induction n generalizing a m k with
  | zero => exact h
  | succ n ih => exact ih (Memory.within_write h _ (by omega)) (by omega) _

theorem drawRange_read_other (a n : Nat) (m : Memory) (k x : Nat) (h : x < a ∨ a + n ≤ x) :
    (drawRange a n m k).1.read x = m.read x := by
  induction n generalizing a m k with
  | zero => rfl
  | succ n ih =>
    rw [drawRange, ih _ _ _ (by omega), Memory.read_write_other _ _ (by omega)]

theorem drawRange_read {m : Memory} (h : m.wf = true) (a n k x : Nat) (hx : a ≤ x) (hn : x < a + n) :
    (drawRange a n m k).1.read x = Config.drawByte (k + (x - a)) := by
  induction n generalizing a m k with
  | zero => omega
  | succ n ih =>
    rw [drawRange]
    by_cases hxa : x = a
    · subst hxa
      rw [drawRange_read_other _ _ _ _ _ (by omega), Memory.read_write_same h, Nat.sub_self, Nat.add_zero]
    · rw [ih (Memory.wf_write h _ _) _ _ (by omega) (by omega)]
      congr 1
      omega

theorem drawRegions_wf {m : Memory} (h : m.wf = true) (size : Nat) (rs : List Region) (k : Nat) :
    (drawRegions size rs m k).1.wf = true := by
  induction rs generalizing m k with
  | nil => exact h
  | cons r rs ih => exact ih (drawRange_wf h ..) _

theorem drawRegions_within {m : Memory} {size : Nat} (h : m.within size = true) (rs : List Region) (k : Nat) :
    (drawRegions size rs m k).1.within size = true := by
  induction rs generalizing m k with
  | nil => exact h
  | cons r rs ih => exact ih (drawRange_within h (by omega) _) _

theorem drawRegions_draws (size : Nat) (rs : List Region) (m : Memory) (k : Nat) :
    k ≤ (drawRegions size rs m k).2 := by
  induction rs generalizing m k with
  | nil => exact le_rfl
  | cons r rs ih =>
    refine le_trans ?_ (ih _ _)
    rw [drawRange_draws]
    omega

theorem drawRegions_read_other (size : Nat) (rs : List Region) (m : Memory) (k x : Nat)
    (h : rs.any (fun r => r.has x) = false ∨ size ≤ x) : (drawRegions size rs m k).1.read x = m.read x := by
  induction rs generalizing m k with
  | nil => rfl
  | cons r rs ih =>
    have hr : ¬(r.start ≤ x ∧ x < r.start + r.size) ∨ size ≤ x := by
      refine h.imp (fun h => ?_) id
      simp only [List.any_cons, Bool.or_eq_false_iff, Region.has, Bool.and_eq_false_iff, decide_eq_false_iff_not] at h
      omega
    rw [drawRegions, ih _ _ (h.imp (fun h => by simp_all) id), drawRange_read_other _ _ _ _ _ (by omega)]

theorem drawRegions_read {m : Memory} (h : m.wf = true) (size : Nat) (rs : List Region) (k x : Nat)
    (hr : rs.any (fun r => r.has x) = true) (hx : x < size) :
    ∃ j, k ≤ j ∧ j < (drawRegions size rs m k).2 ∧ (drawRegions size rs m k).1.read x = Config.drawByte j := by
  induction rs generalizing m k with
  | nil => simp at hr
  | cons r rs ih =>
    rw [drawRegions]
    by_cases hrest : rs.any (fun r => r.has x) = true
    · obtain ⟨j, h1, h2⟩ := ih (drawRange_wf h ..) _ hrest
      refine ⟨j, le_trans ?_ h1, h2⟩
      rw [drawRange_draws]
      omega
    · have hin : r.start ≤ x ∧ x < r.start + r.size := by
        rw [List.any_cons, Bool.eq_false_iff.mpr hrest, Bool.or_false] at hr
        simpa [Region.has] using hr
      refine ⟨k + (x - r.start), by omega, ?_, ?_⟩
      · refine lt_of_lt_of_le ?_ (drawRegions_draws ..)
        rw [drawRange_draws]
        omega
      · rw [drawRegions_read_other _ _ _ _ _ (.inl (by simpa using hrest)),
          drawRange_read h _ _ _ _ hin.1 (by omega)]

/-! ### What a Host read returns -/

theorem hostBytes_idle {s : State} (h : s.status.busy = false) (a n k : Nat) :
    hostBytes s a n k = (s.lm.readLe a n, k) := by
  induction n generalizing a with
  | zero => rfl
  | succ n ih => simp [hostBytes, h, ih, Memory.readLe]

theorem hostBytes_lt (s : State) (a n k : Nat) : (hostBytes s a n k).1 < 256 ^ n := by
  induction n generalizing a k with
  | zero => simp [hostBytes]
  | succ n ih =>
    have h1 := ih (a + 1) (k + 1)
    have h2 := ih (a + 1) k
    have h3 := (Config.drawByte k).isLt
    have h4 := (s.lm.read a).isLt
    rw [hostBytes, pow_succ]
    split <;> dsimp only <;> omega

/-! ### One step for each kind of input -/

theorem step_engine {s : State} {rest : List Input} (h : s.inputs = .engine :: rest) :
    step s = engineTurn { s with inputs := rest } := by simp [step, advance, h, takeInput]

theorem step_read {s : State} {addr : Nat} {w : Width} {rest : List Input} (h : s.inputs = .read addr w :: rest) :
    step s = hostRead { s with inputs := rest } addr w := by simp [step, advance, h, takeInput]

theorem step_write {s : State} {addr : Nat} {w : Width} {v : Word} {rest : List Input}
    (h : s.inputs = .write addr w v :: rest) : step s = hostWrite { s with inputs := rest } addr w v := by
  simp [step, advance, h, takeInput]

theorem step_powerOn {s : State} {rest : List Input} (h : s.inputs = .powerOn :: rest) :
    step s = .next ({ s with inputs := rest } : State).powerOnReset := by simp [step, advance, h, takeInput]

theorem step_idle {s : State} (h : s.inputs = []) : step s = engineTurn s := by simp [step, advance, h]

/-- An aligned word read of the register block. -/
theorem hostRead_reg (s : State) {k : Nat} (hk : k < 64) :
    hostRead s (s.params.regBase + 4 * k) .word = .next { s with readData := readReg s (regAt k) } := by
  simp only [hostRead, Width.bytes, target_reg s.params hk]

/-- An aligned word write of the register block. -/
theorem hostWrite_reg (s : State) (v : Word) {k : Nat} (hk : k < 64) :
    hostWrite s (s.params.regBase + 4 * k) .word v = .next (writeReg s v (regAt k)) := by
  simp only [hostWrite, Width.bytes, target_reg s.params hk]

end Sys2Proof.Machine
end

