-- ==== Sys2Proof/Laws/PerInstr.lean ====
section
/-! SUPPORT. One lemma per command: its encoding belongs to its row of the opcode table, whatever its fields hold
(30_encoding.md R103, R104). -/

namespace Sys2Proof.Laws.Encoding

/-- The command's word matches the command's row. -/
def Statement (i : Instr) : Prop := encode i &&& i.row.mask = i.row.word

theorem nop : Statement .nop := rfl

theorem ident : Statement .ident := rfl

theorem ftHdr : Statement .ftHdr := rfl

theorem ftEnt : Statement .ftEnt := rfl

theorem decFrm : Statement .decFrm := rfl

theorem encS16 : Statement .encS16 := rfl

theorem encC16 : Statement .encC16 := rfl

theorem blkHdr : Statement .blkHdr := rfl

theorem blkDec : Statement .blkDec := rfl

theorem blkStitch : Statement .blkStitch := rfl

theorem blkEnc : Statement .blkEnc := rfl

theorem pbGet : Statement .pbGet := rfl

theorem pbSet : Statement .pbSet := rfl

theorem pbCrop : Statement .pbCrop := rfl

theorem pbShift : Statement .pbShift := rfl

theorem pbBlit (alpha : Bool) : Statement (.pbBlit alpha) := by cases alpha <;> rfl

theorem pbXplant : Statement .pbXplant := rfl

theorem quant (strat : BitVec 5) (nbits : BitVec 4) (gamma : Bool) : Statement (.quant strat nbits gamma) := by
  unfold Statement
  revert strat nbits
  cases gamma <;> decide +kernel

theorem pack565 (cdmode admode : BitVec 5) : Statement (.pack565 cdmode admode) := by
  unfold Statement
  revert cdmode admode
  decide +kernel

theorem qlookup (nbits : BitVec 4) (gamma : Bool) : Statement (.qlookup nbits gamma) := by
  unfold Statement
  revert nbits
  cases gamma <;> decide +kernel

end Sys2Proof.Laws.Encoding
end

