-- ==== Sys2Proof/Laws/Writes.lean ====
section
/-! SUPPORT. What the writes of a command leave in LM, in the terms of the claims: a written output buffer, pixels and
bytes. -/

namespace Sys2Proof.Machine

/-! ### What the writes of a command leave in LM -/

/-- The two entries of a descriptor operand that is written do not overlap (R87). -/
theorem pbd_disjoint {s : State} {i : Instr} {k : Fin 8} (hno : s.NoOverlap i)
    (hsub : (s.pbdEntries k .update .write).Sublist (regionEntries s i)) (hp : s.OutputPbd k) :
    (s.pbdArg k).cap = 0 ∨ s.argNat k + 16 ≤ (s.pbdArg k).base ∨ (s.pbdArg k).base + (s.pbdArg k).cap ≤ s.argNat k := by
  have h := ((noConflict_iff _).mp hno).sublist hsub
  rw [State.pbdEntries, storageAt_arg hp.2.1] at h
  simp only [List.pairwise_cons, List.mem_cons, List.not_mem_nil, or_false, forall_eq, RegionEntry.conflicts,
    RegionEntry.writes, Region.overlaps, pbdRegion, Pbd.storage] at h
  have h1 := h.1
  simp only [ne_eq, reduceCtorEq, not_false_eq_true, decide_true, Bool.or_self, Bool.true_and, Bool.and_eq_false_iff,
    decide_eq_false_iff_not] at h1
  omega

/-- Writing pixels at `base` puts them there. -/
theorem holdsPixels_writeAll {m : Memory} (hm : m.wf = true) (base : Nat) {Q : PixelBuffer} (hQ : Q.wf = true) :
    holdsPixels (m.writeAll (cellsAt base (pixelBytes Q.data))) base Q.width Q.height (fun x y => Q.get x y) := by
  intro x y hx hy
  obtain ⟨hi, -, -⟩ := PixelBuffer.rowMajor hx hy
  have hlen : Q.data.length = Q.width * Q.height := by simpa [PixelBuffer.wf] using hQ
  rw [Memory.readLe_writeAll_pixels hm _ _ _ (hlen ▸ hi)]
  dsimp only
  rw [PixelBuffer.get_natCast hx hy]
  simp [List.getD, hlen ▸ hi]

/-- Writing an output buffer leaves its size in the descriptor, its pixels in the storage, and every other byte (R136). -/
theorem wroteBuffer_writeAll {s : State} {i : Instr} {k : Fin 8} {Q : PixelBuffer} (hm : s.lm.wf = true) (hQ : Q.wf = true)
    (hp : s.OutputPbd k) (hcap : (s.pbdArg k).Takes Q.width Q.height) (hno : s.NoOverlap i)
    (hsub : (s.pbdEntries k .update .write).Sublist (regionEntries s i)) :
    s.wroteBuffer (s.lm.writeAll (bufferCells (s.argNat k) (s.pbdArg k) Q)) k Q.width Q.height
      (fun x y => Q.get x y) := by
  have hd := pbd_disjoint hno hsub hp
  have hlen : (pixelBytes Q.data).length = 2 * Q.width * Q.height := by
    rw [length_pixelBytes, Nat.mul_assoc]
    congr 1
    simpa [PixelBuffer.wf] using hQ
  simp only [bufferCells, Memory.writeAll_append]
  have hm1 := Memory.wf_writeAll hm (cellsLe (s.argNat k + 4) 4 Q.width)
  have hm2 := Memory.wf_writeAll hm1 (cellsLe (s.argNat k + 8) 4 Q.height)
  obtain ⟨hw, hh, hcap⟩ := hcap
  refine ⟨?_, ?_, holdsPixels_writeAll hm2 _ hQ, ?_⟩
  · refine Eq.trans ?_ ((Memory.readLe_writeLe hm (s.argNat k + 4) 4 Q.width).trans (Nat.mod_eq_of_lt hw))
    refine Memory.readLe_congr 4 fun j hj => ?_
    rw [Memory.read_writeAll_cellsAt_other _ _ _ _ (by omega)]
    exact Memory.read_writeAll_cellsAt_other _ _ _ _ (by rw [length_leBytes]; omega)
  · refine Eq.trans ?_ ((Memory.readLe_writeLe hm1 (s.argNat k + 8) 4 Q.height).trans (Nat.mod_eq_of_lt hh))
    exact Memory.readLe_congr 4 fun j hj => Memory.read_writeAll_cellsAt_other _ _ _ _ (by omega)
  · intro a ha
    have h1 := ha ⟨s.argNat k + 4, 8⟩ (by simp)
    have h2 := ha ⟨(s.pbdArg k).base, 2 * Q.width * Q.height⟩ (by simp)
    simp only [Region.has, Bool.and_eq_false_iff, decide_eq_false_iff_not] at h1 h2
    rw [Memory.read_writeAll_cellsAt_other _ _ _ _ (by omega)]
    refine (Memory.read_writeAll_cellsAt_other _ _ _ _ (by rw [length_leBytes]; omega)).trans ?_
    exact Memory.read_writeAll_cellsAt_other _ _ _ _ (by rw [length_leBytes]; omega)

/-- Writing bytes leaves them, and every other byte. -/
theorem wroteBytes_writeAll {m : Memory} (hm : m.wf = true) (a : Nat) (bs : List Byte) :
    wroteBytes m (m.writeAll (cellsAt a bs)) a bs := by
  refine ⟨fun i hi => ?_, fun x hx => ?_⟩
  · rw [Memory.read_writeAll_cellsAt hm a bs i hi]
    simp [List.getD, hi]
  · have := hx ⟨a, bs.length⟩ (by simp)
    simp only [Region.has, Bool.and_eq_false_iff, decide_eq_false_iff_not] at this
    exact Memory.read_writeAll_cellsAt_other _ _ _ _ (by omega)

/-- The same buffer, told by another function with the same pixels. -/
theorem holdsPixels_congr {m : Memory} {base w h : Nat} {f g : Nat → Nat → Pixel} (hf : holdsPixels m base w h f)
    (hfg : ∀ x y, x < w → y < h → f x y = g x y) : holdsPixels m base w h g :=
  fun x y hx hy => hfg x y hx hy ▸ hf x y hx hy

/-- A command that writes an output buffer and passes its checks. -/
theorem emitBuffer_of_checks {s : State} {i : Instr} {d : Nat} {p : Pbd} {Q : PixelBuffer} (rs : List (Fin 4 × Word))
    (hcap : p.Takes Q.width Q.height) (hno : s.NoOverlap i) :
    emitBuffer s i d p Q rs = .ok (s.effect (bufferCells d p Q) rs) := (emitBuffer_eq_ok ..).mpr ⟨hcap, hno, rfl⟩

/-- A command that writes output bytes and passes its checks. -/
theorem emitBytes_of_checks {s : State} {i : Instr} {bs : List Byte} (rs : List (Fin 4 × Word))
    (hcap : bs.length ≤ s.argNat 3) (hno : s.NoOverlap i) :
    emitBytes s i bs rs = .ok (s.effect (cellsAt (s.argNat 2) bs) rs) := (emitBytes_eq_ok ..).mpr ⟨hcap, hno, rfl⟩

end Sys2Proof.Machine
end

