-- ==== Sys2Proof/Tests/Slice0.lean ====
section
/-! SUPPORT. Tests of the model: words written out from the encoding, the vectors of spec/95_test_vectors.md (one step
each), and for every statement with hypotheses a witness that meets them. -/

open Sys2Proof Sys2Proof.Machine

namespace Sys2Proof.Tests

-- One theorem at a time: each is small, and many kernel checks at once exhaust the memory for thread stacks.
set_option Elab.async false

/-! ### States -/

/-- `bs` at `a`. -/
def put (a : Nat) (bs : List Nat) : List Host.Cell := cellsAt a (bs.map (BitVec.ofNat 8))

/-- Pixels `ps` at `a`. -/
def px (a : Nat) (ps : List Nat) : List Host.Cell := cellsAt a (pixelBytes (ps.map (BitVec.ofNat 16)))

/-- A descriptor at `d`. -/
def pbd (d base w h cap : Nat) : List Host.Cell :=
  cellsLe d 4 base ++ cellsLe (d + 4) 4 w ++ cellsLe (d + 8) 4 h ++ cellsLe (d + 12) 4 cap

/-- Reset with LM cells and ARG registers written, and a command word pending; the next step runs it. -/
def pend (w : Nat) (args : List Nat) (cells : List Host.Cell) : State :=
  let s := State.reset
  ({ s with
      lm := (Memory.mk []).writeAll cells
      arg := Vector.ofFn fun i => BitVec.ofNat 32 (args.getD i.val 0) } : State).withFetchWord 32 w

/-- Reset with inputs waiting. -/
def idle (inputs : List Input) : State :=
  let s := State.reset
  { s with inputs := inputs }

/-- A pending NOP with inputs waiting. -/
def busy (inputs : List Input) : State :=
  let s := (idle inputs).accept 0#32
  { s with inputs := inputs }

/-- A view of the next state. -/
def seen {α : Type} (o : Host.Outcome State Fault Refusal) (f : State → α) : Option α :=
  match o with
  | .next t => some (f t)
  | .fault _ => none
  | .refused _ => none

/-- STATUS and the RES registers, as numbers. -/
def report (t : State) : Nat × List Nat := (t.status.word.toNat, t.res.toList.map BitVec.toNat)

/-- STATUS and n bytes at a. -/
def statusBytes (a n : Nat) (t : State) : Nat × List Nat := (t.status.word.toNat, (t.lm.bytes a n).map BitVec.toNat)

/-- Two buffers: S22 = [1, 2, 3, 4] with its descriptor at 0x100, and a second one, D, at 0x120. -/
def twoBuffers (w h cap : Nat) (ps : List Nat) : List Host.Cell :=
  pbd 0x100 0x200 2 2 8 ++ px 0x200 [1, 2, 3, 4] ++ pbd 0x120 0x300 w h cap ++ px 0x300 ps

/-- The frame of V-FT-3. -/
def frame21 : List Host.Cell := pbd 0x100 0x200 2 1 4 ++ px 0x200 [0, 0xFFFF]

/-- The stream of V-FT-3 at 0x400, and an output descriptor at 0x110. -/
def stream21 : List Host.Cell :=
  put 0x400 [3, 0, 0, 0, 1, 0, 0x0E, 0, 0, 0, 2, 0, 1, 0, 2, 0, 3, 0, 0xFF, 0xFF, 0, 0, 0, 0] ++ pbd 0x110 0x600 9 9 16

/-- The BLK stream of V-BLK-5 at 0x400, and an output descriptor at 0x110. -/
def blkStream : List Host.Cell :=
  put 0x400 [0, 0, 0, 0, 1, 0, 1, 0, 1, 0, 0xEF, 0xBE, 0xAD, 0xDE, 2, 0, 1, 0, 0xFF, 0x7F, 0x1F, 0] ++
    pbd 0x110 0x600 9 9 4

/-! ### Well-formedness: an ill-formed term for each check -/

theorem test_wf_quant_bits : (Instr.quant 0#5 9#4 false).wellFormed = false := by decide
theorem test_wf_quant_strategy : (Instr.quant 6#5 1#4 false).wellFormed = false := by decide
theorem test_wf_pack_cdmode : (Instr.pack565 7#5 0#5).wellFormed = false := by decide
theorem test_wf_pack_admode : (Instr.pack565 0#5 30#5).wellFormed = false := by decide
theorem test_wf_qlookup_bits : (Instr.qlookup 15#4 true).wellFormed = false := by decide
theorem test_wf_quant_good : (Instr.quant 29#5 8#4 true).wellFormed = true := by decide

/-! ### Decoding: a word of every row, written out from R101 and R104 -/

theorem test_decode_nop : decode 0b000_00000_00_0_0_0000_000_00000_00000000#32 = .ok .nop := by decide
theorem test_decode_ident : decode 0b000_00000_00_0_0_0000_000_00000_00000001#32 = .ok .ident := by decide
theorem test_decode_ftHdr : decode 0b000_00000_00_0_0_0000_000_00000_00000010#32 = .ok .ftHdr := by decide
theorem test_decode_ftEnt : decode 0b000_00000_00_0_0_0000_000_00000_00000011#32 = .ok .ftEnt := by decide
theorem test_decode_decFrm : decode 0b000_00000_00_0_0_0000_000_00000_00000100#32 = .ok .decFrm := by decide
theorem test_decode_encS16 : decode 0b000_00000_00_0_0_0000_000_00000_00000101#32 = .ok .encS16 := by decide
theorem test_decode_encC16 : decode 0b000_00000_00_0_0_0000_000_00000_00000110#32 = .ok .encC16 := by decide
theorem test_decode_blkHdr : decode 0b000_00000_00_0_0_0000_000_00000_00001000#32 = .ok .blkHdr := by decide
theorem test_decode_blkDec : decode 0b000_00000_00_0_0_0000_000_00000_00001001#32 = .ok .blkDec := by decide
theorem test_decode_blkStitch : decode 0b000_00000_00_0_0_0000_000_00000_00001010#32 = .ok .blkStitch := by decide
theorem test_decode_blkEnc : decode 0b000_00000_00_0_0_0000_000_00000_00001011#32 = .ok .blkEnc := by decide
theorem test_decode_pbGet : decode 0b000_00000_00_0_0_0000_000_00000_00010000#32 = .ok .pbGet := by decide
theorem test_decode_pbSet : decode 0b000_00000_00_0_0_0000_000_00000_00010001#32 = .ok .pbSet := by decide
theorem test_decode_pbCrop : decode 0b000_00000_00_0_0_0000_000_00000_00010010#32 = .ok .pbCrop := by decide
theorem test_decode_pbShift : decode 0b000_00000_00_0_0_0000_000_00000_00010011#32 = .ok .pbShift := by decide
theorem test_decode_pbBlit : decode 0b000_00000_00_1_0_0000_000_00000_00010100#32 = .ok (.pbBlit true) := by decide
theorem test_decode_pbXplant : decode 0b000_00000_00_0_0_0000_000_00000_00010101#32 = .ok .pbXplant := by decide
theorem test_decode_quant :
    decode 0b000_00000_00_0_1_0011_000_11001_00100000#32 = .ok (.quant 25#5 3#4 true) := by decide
theorem test_decode_pack565 :
    decode 0b000_10101_00_0_0_0000_000_01101_00100001#32 = .ok (.pack565 13#5 21#5) := by decide
theorem test_decode_qlookup :
    decode 0b000_00000_00_0_1_1000_000_00000_00100010#32 = .ok (.qlookup 8#4 true) := by decide
/-- V-ERR-1 to V-ERR-3, V-Q-7, V-PK-3. -/
theorem test_decode_refused :
    decode 0x00000007#32 = .error .undefinedOp ∧ decode 0x80000000#32 = .error .reservedBits ∧
      decode 0x00000100#32 = .error .unusedField ∧ decode 0x00210020#32 = .error .unusedField ∧
      decode 0x00010021#32 = .error .unusedField ∧ decode 0x00010122#32 = .error .unusedField := by decide
/-- The strategy codes of R106 and R107. -/
theorem test_strategy_codes :
    Strategy.ofCode 5#5 = some .randomBorked ∧ Strategy.ofCode 13#5 = some (.pattern .bluenoise15 false) ∧
      Strategy.ofCode 26#5 = some (.pattern .bayer2 true) ∧ Strategy.ofCode 14#5 = none := by decide

/-! ### Commands: the vectors of spec/95_test_vectors.md -/

/-- R137's example. -/
theorem test_nop : seen (step (pend 0x00 [] [])) report = some (2, [0, 0, 0, 0]) := by decide +kernel
/-- X2. -/
theorem test_ident :
    seen (step (pend 0x01 [0x400, 6] (put 0x400 [1, 0, 0, 0, 0, 0]))) report = some (2, [0x80000002, 0, 0, 0]) := by
  decide +kernel
/-- V-FT-2: a stream past the end of LM. -/
theorem test_ident_range : seen (step (pend 0x01 [0xFFFFE, 4] [])) report = some (0x506, [0, 0, 0, 0]) := by
  decide +kernel
/-- V-FT-1, big-endian. -/
theorem test_ftHdr :
    seen (step (pend 0x02 [0x400, 6] (put 0x400 [0, 0, 0, 1, 0, 2]))) report = some (2, [0x8000000A, 2, 0, 0]) := by
  decide +kernel
/-- X3: a header of 4 bytes. -/
theorem test_ftHdr_short :
    seen (step (pend 0x02 [0x400, 4] (put 0x400 [2, 0, 0, 0]))) report = some (0x806, [0, 0, 0, 0]) := by decide +kernel
/-- V-FT-5: the second entry stands after the first one's row offset. -/
theorem test_ftEnt :
    seen (step (pend 0x03 [0x400, 26, 1] (put 0x400 [3, 0, 0, 0, 2, 0, 0x1A, 0, 0, 0, 2, 0, 2, 0, 0x22, 0, 0, 0,
      0x2C, 0, 0, 0, 1, 0, 1, 0]))) report = some (2, [44, 1, 1, 18]) := by decide +kernel
/-- V-FT-3: no second frame. -/
theorem test_ftEnt_index : seen (step (pend 0x03 [0x400, 24, 1] stream21)) report = some (0x906, [0, 0, 0, 0]) := by
  decide +kernel
/-- V-FT-3. -/
theorem test_decFrm :
    seen (step (pend 0x04 [0x400, 24, 0, 0x110] stream21)) (fun t => (report t, statusBytes 0x600 5 t)) =
      some ((2, [0x80000003, 2, 1, 0]), (2, [0, 0, 0xFF, 0xFF, 0])) := by decide +kernel
/-- V-FT-12: a raw frame one byte short. -/
theorem test_decFrm_truncated :
    seen (step (pend 0x04 [0x400, 17, 0, 0x110] (put 0x400 [1, 0, 0, 0, 1, 0, 0x0E, 0, 0, 0, 2, 0, 1, 0, 0xFF, 0xFF,
      0x34, 0x77] ++ pbd 0x110 0x600 9 9 16))) (statusBytes 0x600 4) = some (0x0A, [0xFF, 0xFF, 0x34, 0]) := by
  decide +kernel
/-- V-FT-4. -/
theorem test_encS16 :
    seen (step (pend 0x05 [0x100, 1, 0x400, 64] frame21)) (statusBytes 0x400 19) =
      some (2, [1, 0, 0, 0, 1, 0, 0x0E, 0, 0, 0, 2, 0, 1, 0, 0, 0, 0xFF, 0xFF, 0]) := by decide +kernel
/-- V-FT-14: one byte too few. -/
theorem test_encS16_capacity :
    seen (step (pend 0x05 [0x100, 1, 0x400, 17] frame21)) (statusBytes 0x400 4) = some (0xB06, [0, 0, 0, 0]) := by
  decide +kernel
/-- V-FT-3. -/
theorem test_encC16 :
    seen (step (pend 0x06 [0x100, 1, 0x400, 64] frame21)) (fun t => (report t, statusBytes 0x400 25 t)) =
      some ((2, [24, 0, 0, 0]), (2, [3, 0, 0, 0, 1, 0, 0x0E, 0, 0, 0, 2, 0, 1, 0, 2, 0, 3, 0, 0xFF, 0xFF, 0, 0, 0, 0,
        0])) := by decide +kernel
/-- V-ERR-15. -/
theorem test_encC16_dimension :
    seen (step (pend 0x06 [0x100, 1, 0x400, 64] (pbd 0x100 0x200 65536 0 0))) report = some (0xA06, [0, 0, 0, 0]) := by
  decide +kernel
/-- V-BLK-1. -/
theorem test_blkHdr :
    seen (step (pend 0x08 [0x400, 10] (put 0x400 [1, 0, 0, 0, 2, 0, 1, 0, 2, 0]))) report =
      some (2, [0x80000002, 2, 1, 2]) := by decide +kernel
/-- V-BLK-1: the byte-order check precedes the compressed check. -/
theorem test_blkHdr_big :
    seen (step (pend 0x08 [0x400, 10] (put 0x400 [0, 0, 0, 3, 2, 0, 1, 0, 2, 0]))) report = some (0x706, [0, 0, 0, 0]) := by
  decide +kernel
/-- V-BLK-5: the stored offset is ignored. -/
theorem test_blkDec :
    seen (step (pend 0x09 [0x400, 22, 0, 0x110] blkStream)) (fun t => (report t, statusBytes 0x600 4 t)) =
      some ((2, [2, 1, 0, 0]), (2, [0xFF, 0xFF, 0x1F, 0])) := by decide +kernel
/-- V-BLK-5, cut short. -/
theorem test_blkDec_truncated :
    seen (step (pend 0x09 [0x400, 20, 0, 0x110] blkStream)) (statusBytes 0x600 4) = some (0x0A, [0xFF, 0xFF, 0, 0]) := by
  decide +kernel
/-- V-BLK-6: no tile column. -/
theorem test_blkStitch :
    seen (step (pend 0x0A [0x100, 0, 2, 0, 0, 0x120] (pbd 0x120 0x300 9 9 0))) report = some (2, [0, 256, 0, 0]) := by
  decide +kernel
/-- R236: with two tile rows, tile 1 stands below tile 0. -/
theorem test_stitch_column_major :
    let Q := stitchTiles 2 0 [⟨1, 1, [5#16]⟩, ⟨1, 1, [7#16]⟩] (PixelBuffer.zero 1 130)
    Q.get 0 0 = 5#16 ∧ Q.get 0 128 = 7#16 ∧ Q.get 0 1 = 0#16 := by decide +kernel
/-- V-BLK-4: an empty image. -/
theorem test_blkEnc :
    seen (step (pend 0x0B [0x100, 0, 0x400, 64] (pbd 0x100 0x200 0 5 0))) (fun t => (report t, statusBytes 0x400 10 t)) =
      some ((2, [10, 0, 1, 0]), (2, [1, 0, 0, 0, 0, 0, 1, 0, 0, 0])) := by decide +kernel
/-- V-PB-1. -/
theorem test_pbGet : seen (step (pend 0x10 [0x100, 1, 1] (twoBuffers 0 0 0 []))) report = some (2, [4, 0, 0, 0]) := by
  decide +kernel
/-- V-PB-2. -/
theorem test_pbGet_outside :
    seen (step (pend 0x10 [0x100, 0, 0xFFFFFFFF] (twoBuffers 0 0 0 []))) report = some (2, [0, 0, 0, 0]) := by
  decide +kernel
/-- V-PB-3. -/
theorem test_pbSet :
    seen (step (pend 0x11 [0x100, 1, 0, 0xABCD1234] (twoBuffers 0 0 0 []))) (statusBytes 0x200 8) =
      some (2, [1, 0, 0x34, 0x12, 3, 0, 4, 0]) := by decide +kernel
/-- V-PB-4. -/
theorem test_pbSet_outside :
    seen (step (pend 0x11 [0x100, 0xFFFFFFFF, 0, 9] (twoBuffers 0 0 0 []))) (statusBytes 0x200 8) =
      some (2, [1, 0, 2, 0, 3, 0, 4, 0]) := by decide +kernel
/-- V-PB-5. -/
theorem test_pbCrop :
    seen (step (pend 0x12 [0x100, 0xFFFFFFFF, 0xFFFFFFFF, 3, 3, 0x120] (twoBuffers 0 0 18 [])))
      (fun t => (statusBytes 0x300 18 t, (t.lm.bytes 0x124 8).map BitVec.toNat)) =
      some ((2, [0, 0, 0, 0, 0, 0, 0, 0, 1, 0, 2, 0, 0, 0, 3, 0, 4, 0]), [3, 0, 0, 0, 3, 0, 0, 0]) := by decide +kernel
/-- V-PB-8. -/
theorem test_pbCrop_capacity :
    seen (step (pend 0x12 [0x100, 0, 0, 3, 3, 0x120] (twoBuffers 0 0 17 []))) report = some (0xB06, [0, 0, 0, 0]) := by
  decide +kernel
/-- V-PB-9. -/
theorem test_pbShift :
    seen (step (pend 0x13 [0x100, 0xFFFFFFFF, 1, 0, 0, 0x120] (twoBuffers 0 0 8 []))) (statusBytes 0x300 8) =
      some (2, [0, 0, 0, 0, 2, 0, 0, 0]) := by decide +kernel
/-- V-PB-15. -/
theorem test_pbBlit_plain :
    seen (step (pend 0x14 [0x100, 0, 0, 0, 0, 0x120] (twoBuffers 2 2 8 [9, 9, 9, 9] ++ px 0x200 [0, 2, 3, 0])))
      (statusBytes 0x300 8) = some (2, [0, 0, 2, 0, 3, 0, 0, 0]) := by decide +kernel
/-- V-PB-14. -/
theorem test_pbBlit_alpha :
    seen (step (pend 0x200014 [0x100, 0, 0, 0, 0, 0x120] (twoBuffers 2 2 8 [9, 9, 9, 9] ++ px 0x200 [0, 2, 3, 0])))
      (statusBytes 0x300 8) = some (2, [9, 0, 2, 0, 3, 0, 9, 0]) := by decide +kernel
/-- V-PB-17. -/
theorem test_pbXplant :
    seen (step (pend 0x15 [0x100, 1, 0, 0, 0, 0x120] (twoBuffers 2 2 8 [0, 7, 7, 7] ++ px 0x200 [1, 0, 0, 4])))
      (statusBytes 0x300 8) = some (2, [0, 0, 1, 0, 7, 0, 7, 0]) := by decide +kernel
/-- V-PB-18. -/
theorem test_pbXplant_overlap :
    seen (step (pend 0x15 [0x100, 0, 0, 0, 0, 0x100] (twoBuffers 0 0 0 []))) report = some (0xC06, [0, 0, 0, 0]) := by
  decide +kernel
/-- V-Q-4, bayer2 at 64. -/
theorem test_quant :
    seen (step (pend 0x10A20 [0x400, 2, 2] (put 0x400 [64, 64, 64, 64, 64]))) (statusBytes 0x400 5) =
      some (2, [0xFF, 0, 0, 0, 64]) := by decide +kernel
/-- V-Q-3, nearest, N = 1. -/
theorem test_quant_nearest :
    seen (step (pend 0x10120 [0x400, 4, 1] (put 0x400 [0x7F, 0x80, 0, 0xFF]))) (statusBytes 0x400 4) =
      some (2, [0, 0xFF, 0, 0xFF]) := by decide +kernel
/-- V-PK-1, second to fourth and last two rows: R, G, B and A planes at 0x400, 0x410, 0x420, 0x430. -/
theorem test_pack565 :
    seen (step (pend 0x21 [0x400, 0x410, 0x420, 0x430, 5, 1, 0xFFFF0020, 0x120]
      (put 0x400 [0xFF, 0xFF, 8, 0x12, 0xFF] ++ put 0x410 [0, 0xFF, 4, 0x34, 0xFF] ++ put 0x420 [0, 0xFF, 8, 0x56, 0xFF] ++
        put 0x430 [0x80, 0xFF, 0xFF, 0xFF, 0x7F] ++ pbd 0x120 0x300 0 0 10))) (statusBytes 0x300 10) =
      some (2, [0, 0xF8, 0xFF, 0xFF, 0x21, 8, 0xAA, 0x11, 0, 0]) := by decide +kernel
/-- V-PK-1: black is opaque false black. -/
theorem test_pack565_false_black :
    seen (step (pend 0x21 [0x400, 0x400, 0x400, 0x430, 1, 1, 0x20, 0x120] (put 0x430 [0xFF] ++ pbd 0x120 0x300 0 0 2)))
      (statusBytes 0x300 2) = some (2, [0x20, 0]) := by decide +kernel
/-- V-Q-2, N = 5, v = 0x9B. -/
theorem test_qlookup : seen (step (pend 0x50022 [0x19B] [])) report = some (2, [0x9C, 0x94, 0x9C, 57344]) := by
  decide +kernel
/-- V-Q-2, N = 3, v = 0x30. -/
theorem test_qlookup_three : seen (step (pend 0x30022 [0x30] [])) report = some (2, [0x24, 0x24, 0x49, 21254]) := by
  decide +kernel

/-! ### The register block -/

/-- V-REG-1: ID, MEMTOP and a reserved offset. -/
theorem test_reg_reads :
    seen (step (idle [rd State.reset.params 0])) (fun t => t.readData.toNat) = some 0x524C4507 ∧
      seen (step (idle [rd State.reset.params 16])) (fun t => t.readData.toNat) = some 0xFFFFF ∧
      seen (step (idle [rd State.reset.params 17])) (fun t => t.readData.toNat) = some 0 := by decide +kernel
/-- V-REG-3: a CMD write while a command is pending. -/
theorem test_reg_overrun :
    seen (step (busy [wr State.reset.params 3 1#32])) (fun t => (t.status.word.toNat, t.cmd.toNat)) = some (0x11, 0) := by
  decide +kernel
/-- R348: IRQ is requested at the platform's IRQ_LINE, and not before DONE. -/
theorem test_irq_request :
    let s : State := { idle [] with ie := true, params := { State.reset.params with irqLine := ⟨1, 7, 3⟩ } }
    s.irqRequest = none ∧ ({ s with status := { s.status with done := true } } : State).irqRequest = some ⟨1, 7, 3⟩ := by
  decide +kernel
/-- R75: bytes little-endian through the LM window. -/
theorem test_lm_window :
    seen (step (idle [.write 0x100 .word 0x12345678#32])) (statusBytes 0x100 4) = some (0, [0x78, 0x56, 0x34, 0x12]) := by
  decide +kernel

/-! ### Witnesses: states and operands that meet the hypotheses of each statement, clause by clause, at the ends of their
ranges -/

/-- The next state, or `s` when there is none. -/
def nextOr (o : Host.Outcome State Fault Refusal) (s : State) : State := (seen o id).getD s

theorem next_of_seen (o : Host.Outcome State Fault Refusal) (s : State) (h : (seen o id).isSome = true) :
    o = .next (nextOr o s) := by
  cases o with
  | next t => rfl
  | fault _ => simp [seen] at h
  | refused _ => simp [seen] at h

/-- The parameters of the reset state: MEM_SIZE 0x100000, REG_BASE 0x80000000, LM_BASE 0. -/
abbrev P : Params := State.reset.params

theorem witness_EveryWordIsOneRowOrIllegal :
    (∀ w ∈ [0x07#32, 0x0C#32, 0x0F#32, 0x16#32, 0x1F#32, 0x23#32, 0xFF#32, 0x2000#32, 0x8000#32, 0x400000#32, 0x800000#32,
      0x20000000#32, 0x80000000#32], ∀ j : Instr, w &&& j.row.mask ≠ j.row.word) ∧
      (∃ s : State, s.status.busy = true ∧ s.inputs = [.engine] ∧ s.lcmd = 0x07#32) := by
  refine ⟨?_, pend 0x07 [] [], by decide +kernel⟩
  intro w hw j
  simp only [List.mem_cons, List.not_mem_nil, or_false] at hw
  rcases hw with rfl | rfl | rfl | rfl | rfl | rfl | rfl | rfl | rfl | rfl | rfl | rfl | rfl <;> cases j <;> simp only [Instr.row] <;> decide

theorem witness_IllegalFieldValuesEndWithTheirError :
    9 ≤ (9#4).toNat ∧ 9 ≤ (15#4).toNat ∧ (8#4).toNat ≤ 8 ∧ (0#4).toNat ≤ 8 ∧ Strategy.ofCode 6#5 = none ∧
      Strategy.ofCode 14#5 = none ∧ Strategy.ofCode 23#5 = none ∧ Strategy.ofCode 31#5 = none := by decide

theorem witness_StepRunsDecodedCommand :
    ((pend 0x10 [] []).status.busy = true ∧ decode (pend 0x10 [] []).lcmd = .ok .pbGet ∧
      (pend 0x10 [] []).inputs = [.engine]) ∧
    ((busy []).status.busy = true ∧ decode (busy []).lcmd = .ok .nop ∧ (busy []).inputs = []) ∧
    ((idle [.engine]).status.busy = false ∧ (idle [.engine]).inputs = [.engine]) ∧
    ((idle []).status.busy = false ∧ (idle []).inputs = []) := by decide +kernel

theorem witness_PendingCommandCompletesUnderPolling :
    ((busy []).status.busy = true ∧ (busy []).inputs = List.replicate 0 (rd (busy []).params 2)) ∧
    (busy [rd P 2, rd P 2]).status.busy = true ∧
      (busy [rd P 2, rd P 2]).inputs = List.replicate 2 (rd (busy [rd P 2, rd P 2]).params 2) := by decide +kernel

theorem witness_CmdWriteIssuesOrOverruns :
    (∃ s : State, s.inputs = [.write (s.params.regBase + 0x0C) .word 1#32] ∧ s.status.busy = false) ∧
    ∃ s : State, s.inputs = [.write (s.params.regBase + 0x0C) .word 1#32] ∧ s.status.busy = true :=
  ⟨⟨idle [wr P 3 1#32], by decide +kernel⟩, busy [wr P 3 1#32], by decide +kernel⟩

theorem witness_StatusReadAndWriteOneToClear :
    (∃ s : State, s.inputs = [.write (s.params.regBase + 0x08) .word 0x1E#32] ∧ s.status.busy = true) ∧
    ∃ s : State, s.inputs = [.read (s.params.regBase + 0x08) .word] :=
  ⟨⟨busy [ack P], by decide +kernel⟩, idle [rd P 2], by decide +kernel⟩

theorem witness_FixedRegistersReadConstants :
    (∃ s : State, s.inputs = [.read s.params.regBase .word]) ∧
    (∃ s : State, s.inputs = [.read (s.params.regBase + 0x0C) .word]) ∧
    (∃ s : State, s.inputs = [.read (s.params.regBase + 0x40) .word]) ∧
    (∃ s : State, s.inputs = [.read (s.params.regBase + 4 * 17) .word]) ∧
    (∃ s : State, s.inputs = [.read (s.params.regBase + 4 * 63) .word]) ∧
    (∃ s : State, s.inputs = [.write (s.params.regBase + 4 * 0) .word 5#32]) ∧
    (∃ s : State, s.inputs = [.write (s.params.regBase + 4 * 16) .word 5#32]) ∧
    ∃ s : State, s.inputs = [.write (s.params.regBase + 4 * 63) .word 5#32] :=
  ⟨⟨idle [rd P 0], by decide +kernel⟩, ⟨idle [rd P 3], by decide +kernel⟩, ⟨idle [rd P 16], by decide +kernel⟩,
    ⟨idle [rd P 17], by decide +kernel⟩, ⟨idle [rd P 63], by decide +kernel⟩, ⟨idle [wr P 0 5#32], by decide +kernel⟩,
    ⟨idle [wr P 16 5#32], by decide +kernel⟩, idle [wr P 63 5#32], by decide +kernel⟩

theorem witness_ArgumentAndResultRegisters :
    ∀ i : Fin 8, ∀ j : Fin 4,
      (∃ s : State, s.inputs = [.write (s.params.regBase + 0x10 + 4 * i) .word 5#32]) ∧
      (∃ s : State, s.inputs = [.read (s.params.regBase + 0x10 + 4 * i) .word]) ∧
      (∃ s : State, s.inputs = [.write (s.params.regBase + 0x30 + 4 * j) .word 5#32]) ∧
      ∃ s : State, s.inputs = [.read (s.params.regBase + 0x30 + 4 * j) .word] := fun i j =>
  ⟨⟨idle [.write (P.regBase + 0x10 + 4 * i) .word 5#32], rfl⟩, ⟨idle [.read (P.regBase + 0x10 + 4 * i) .word], rfl⟩,
    ⟨idle [.write (P.regBase + 0x30 + 4 * j) .word 5#32], rfl⟩, idle [.read (P.regBase + 0x30 + 4 * j) .word], rfl⟩

theorem witness_CtrlWriteAndIdleSoftReset :
    (∃ s : State, s.inputs = [.write (s.params.regBase + 0x04) .word 2#32] ∧ (2#32).getLsbD 0 = false) ∧
    (∃ s : State, s.inputs = [.write (s.params.regBase + 0x04) .word 3#32] ∧ (3#32).getLsbD 0 = true ∧
      s.status.busy = false) ∧
    ∃ s : State, s.inputs = [.read (s.params.regBase + 0x04) .word] :=
  ⟨⟨idle [wr P 1 2#32], by decide +kernel⟩, ⟨idle [wr P 1 3#32], by decide +kernel⟩, idle [rd P 1], by decide +kernel⟩

/-- A pending QUANT of the 2 x 2 plane at the end of LM, and inputs waiting. -/
def pendingQuant (inputs : List Input) : State :=
  let s := pend 0x20 [0xFFFFC, 2, 2] []
  { s with inputs := inputs }

theorem witness_SoftResetDiscardsPendingCommand :
    (∃ s : State, s.inputs = [.write (s.params.regBase + 0x04) .word 1#32] ∧ (1#32).getLsbD 0 = true ∧
      s.status.busy = true ∧ s.lm.wf = true ∧ inPendingDestination s 0xFFFFB = false ∧
      inPendingDestination s 0xFFFFC = true ∧ inPendingDestination s 0xFFFFF = true) ∧
    (decode (pend 0x20 [] []).lcmd = .ok (.quant 0#5 0#4 false) ∧ (Instr.quant 0#5 0#4 false).wellFormed = true) ∧
    (decode (pend 0x90020 [] []).lcmd = .ok (.quant 0#5 9#4 false) ∧ (Instr.quant 0#5 9#4 false).wellFormed = false) ∧
    decode (pend 0x07 [] []).lcmd = .error .undefinedOp :=
  ⟨⟨pendingQuant [wr P 1 1#32], by decide +kernel⟩, by decide +kernel⟩

theorem witness_HostAccessWhileCommandPending :
    ((pendingQuant []).status.busy = true ∧ (pendingQuant []).params.wf = true) ∧
    (∃ s : State, s.status.busy = true ∧ s.params.wf = true ∧ s.inputs = [.write (s.params.lmBase + 0) .word 1#32] ∧
      0 + Width.bytes .word ≤ s.params.memSize) ∧
    (∃ s : State, s.status.busy = true ∧ s.params.wf = true ∧ s.inputs = [.read (s.params.lmBase + 0xFFFFB) .half] ∧
      0xFFFFB + Width.bytes .half ≤ s.params.memSize ∧ inPendingDestination s 0xFFFFB = false ∧
      inPendingDestination s (0xFFFFB + 1) = true) ∧
    (∃ s : State, s.status.busy = true ∧ s.params.wf = true ∧ s.inputs = [.read (s.params.regBase + 4 * 0) .word]) ∧
    (∃ s : State, s.status.busy = true ∧ s.params.wf = true ∧
      s.inputs = [.write (s.params.regBase + 4 * 63) .word 1#32]) :=
  ⟨by decide +kernel, ⟨pendingQuant [.write 0 .word 1#32], by decide +kernel⟩,
    ⟨pendingQuant [.read 0xFFFFB .half], by decide +kernel⟩, ⟨pendingQuant [rd P 0], by decide +kernel⟩,
    pendingQuant [wr P 63 1#32], by decide +kernel⟩

theorem witness_HostAccessWidthsAndByteOrder :
    (∃ (s : State) (addr : Nat) (wd : Width), (addr, wd) = (0x80000000, .half) ∧ s.inputs = [.read addr wd] ∧
      s.params.regBase ≤ addr ∧ addr < s.params.regBase + 256 ∧
      ¬(wd = .word ∧ (addr - s.params.regBase) % 4 = 0)) ∧
    (∃ (s : State) (addr : Nat) (wd : Width), (addr, wd) = (0x800000FE, .word) ∧ s.inputs = [.write addr wd 1#32] ∧
      s.params.regBase ≤ addr ∧ addr < s.params.regBase + 256 ∧
      ¬(wd = .word ∧ (addr - s.params.regBase) % 4 = 0)) ∧
    (∃ s : State, s.params.wf = true ∧ s.status.busy = false ∧ s.lm.wf = true ∧
      s.inputs = [.write (s.params.lmBase + 0) .byte 0xFFF#32] ∧ 0 + Width.bytes .byte ≤ s.params.memSize) ∧
    ∃ s : State, s.params.wf = true ∧ s.status.busy = false ∧ s.lm.wf = true ∧
      s.inputs = [.read (s.params.lmBase + 0xFFFFC) .word] ∧ 0xFFFFC + Width.bytes .word ≤ s.params.memSize :=
  ⟨⟨idle [.read 0x80000000 .half], 0x80000000, .half, by decide +kernel⟩,
    ⟨idle [.write 0x800000FE .word 1#32], 0x800000FE, .word, by decide +kernel⟩,
    ⟨idle [.write 0 .byte 0xFFF#32], by decide +kernel⟩, idle [.read 0xFFFFC .word], by decide +kernel⟩

theorem witness_IrqFollowsEnableAndDone :
    (∃ t, exec .nop (busy []) = .next t) ∧
    (∃ s : State, s.inputs = [.write (s.params.regBase + 0x04) .word 2#32] ∧ (2#32).getLsbD 0 = false) ∧
    (∃ s : State, s.inputs = [.write (s.params.regBase + 0x04) .word 1#32] ∧ (1#32).getLsbD 0 = true) ∧
    (∃ s : State, s.inputs = [.write (s.params.regBase + 0x08) .word 2#32] ∧ (2#32).getLsbD 1 = true) ∧
    ∃ s : State, s.inputs = [.write (s.params.regBase + 0x0C) .word 0#32] ∧ s.status.busy = false :=
  ⟨⟨_, rfl⟩, ⟨idle [wr P 1 2#32], by decide +kernel⟩, ⟨busy [wr P 1 1#32], by decide +kernel⟩,
    ⟨idle [wr P 2 2#32], by decide +kernel⟩, idle [wr P 3 0#32], by decide +kernel⟩

/-- OVR set, and a Host write that clears it waiting. -/
def overrunState : State :=
  let s := idle [wr P 2 0x10#32]
  { s with status := Status.zero.overrun }

theorem witness_OverrunIsFlaggedAndSticky :
    (∃ s : State, s.inputs = [.write (s.params.regBase + 0x0C) .word 1#32] ∧ s.status.busy = true) ∧
    ∃ s t : State, step s = .next t ∧ s.status.ovr = true ∧ t.status.ovr = false :=
  ⟨⟨busy [wr P 3 1#32], by decide +kernel⟩, overrunState, nextOr (step overrunState) State.reset,
    next_of_seen _ _ (by decide +kernel), by decide +kernel⟩

theorem witness_HostRegistersChangeOnlyByHost :
    ∃ s t : State, step s = .next t ∧ t.arg ≠ s.arg :=
  ⟨idle [wr P 11 5#32], nextOr (step (idle [wr P 11 5#32])) State.reset, next_of_seen _ _ (by decide +kernel),
    by decide +kernel⟩

theorem witness_PowerOnResetValues :
    ∃ s : State, s.inputs = [.powerOn] ∧ s.lm.wf = true := ⟨busy [.powerOn], by decide +kernel⟩

theorem witness_StepKeepsInvariant : ∃ s t : State, s.Inv ∧ step s = .next t ∧ t.status.busy = true :=
  ⟨idle [wr P 3 0x10#32], nextOr (step (idle [wr P 3 0x10#32])) State.reset,
    ⟨by decide +kernel, by decide +kernel, by decide +kernel, by decide +kernel, by decide +kernel⟩,
    next_of_seen _ _ (by decide +kernel), by decide +kernel⟩

/-- A command that completes, for CommandFrame, OnlyDestinationsChange and the first clause of OnlyNamedResultsChange, both
its disjuncts. -/
theorem witness_CommandFrame :
    (∃ s t : State, exec .blkDec s = .next t ∧ t.status.errcode = .none ∧ t.status.trunc = true) ∧
    (∃ s t : State, exec .pbGet s = .next t ∧ t.status.errcode = .align) :=
  ⟨⟨pend 0x09 [0x400, 20, 0, 0x110] blkStream, nextOr (exec .blkDec (pend 0x09 [0x400, 20, 0, 0x110] blkStream)) State.reset, next_of_seen _ _ (by decide +kernel),
    by decide +kernel⟩,
    pend 0x10 [2] [], nextOr (exec .pbGet (pend 0x10 [2] [])) State.reset, next_of_seen _ _ (by decide +kernel), by decide +kernel⟩

theorem witness_OnlyNamedResultsChange :
    (∃ s t : State, exec .ident s = .next t ∧ (1 : Fin 4) ∉ Instr.ident.namedResults) ∧
    (∃ s t : State, exec .ident s = .next t ∧ t.status.errcode ≠ .none) ∧
    (∃ s t : State, s.inputs = [.read 0 .byte] ∧ step s = .next t) ∧
    ∃ s t : State, s.inputs = [.write 0x80000030 .word 7#32] ∧ step s = .next t :=
  ⟨⟨pend 0x01 [0x400, 6] [], nextOr (exec .ident (pend 0x01 [0x400, 6] [])) State.reset, next_of_seen _ _ (by decide +kernel),
      by decide⟩,
    ⟨pend 0x01 [0xFFFFE, 4] [], nextOr (exec .ident (pend 0x01 [0xFFFFE, 4] [])) State.reset, next_of_seen _ _ (by decide +kernel),
      by decide +kernel⟩,
    ⟨idle [.read 0 .byte], nextOr (step (idle [.read 0 .byte])) State.reset, rfl, next_of_seen _ _ (by decide +kernel)⟩,
    idle [.write 0x80000030 .word 7#32], nextOr (step (idle [.write 0x80000030 .word 7#32])) State.reset, rfl,
    next_of_seen _ _ (by decide +kernel)⟩

theorem witness_OnlyDestinationsChange :
    ∃ s t : State, exec .pbSet s = .next t ∧ t.lm ≠ s.lm ∧ ∃ r ∈ destinations s .pbSet, r.has 0x1FF = false :=
  ⟨pend 0x11 [0x100, 1, 0, 9] (twoBuffers 0 0 0 []), nextOr (exec .pbSet (pend 0x11 [0x100, 1, 0, 9] (twoBuffers 0 0 0 []))) State.reset, next_of_seen _ _ (by decide +kernel),
    by decide +kernel, ⟨0x200, 8⟩, by decide +kernel⟩

theorem witness_CommandReadsOnlyLatchedState :
    ∃ s s' : State, s'.larg = s.larg ∧ s'.lm = s.lm ∧ s'.params = s.params ∧ s'.draws = s.draws ∧ s' ≠ s :=
  ⟨pend 0x10 [] [], { pend 0x10 [] [] with ie := true }, rfl, rfl, rfl, rfl, by decide +kernel⟩

/-- A command that completes, and each premise on where descriptors lie, at the end of LM and empty. -/
theorem witness_OverlappingRegionsAreRejected :
    (∃ s t : State, exec .pbCrop s = .next t ∧ t.status.errcode = .none ∧ (regionEntries s .pbCrop).length = 4) ∧
    (∃ s : State, s.argNat 0 + 16 = s.params.memSize ∧ s.argNat 3 + 16 = s.params.memSize ∧
      s.argNat 5 + 16 = s.params.memSize ∧ s.argNat 7 + 16 = s.params.memSize ∧ s.RegionIn (s.argNat 0) (16 * s.argNat 1) ∧
      s.RegionIn (s.argNat 0) (16 * (s.argNat 1 * s.argNat 2)) ∧ s.argNat 1 * s.argNat 2 = 1) ∧
    ∃ s : State, s.argNat 0 = 0xFFFFFFFF ∧ s.RegionIn (s.argNat 0) (16 * s.argNat 1) ∧
      s.RegionIn (s.argNat 0) (16 * (s.argNat 1 * s.argNat 2)) :=
  ⟨⟨pend 0x12 [0x100, 0, 0, 1, 1, 0x120] (twoBuffers 0 0 18 []),
      nextOr (exec .pbCrop (pend 0x12 [0x100, 0, 0, 1, 1, 0x120] (twoBuffers 0 0 18 []))) State.reset,
      next_of_seen _ _ (by decide +kernel), by decide +kernel⟩,
    ⟨pend 0x0A [0xFFFF0, 1, 1, 0xFFFF0, 0, 0xFFFF0, 0, 0xFFFF0] [], by decide +kernel⟩,
    pend 0x0A [0xFFFFFFFF, 0, 0] [], by decide +kernel⟩

/-- The states that fail each check of the first descriptor, MEM_SIZE - 8 and MEM_SIZE - 16 among the addresses. -/
theorem witness_DescriptorChecks :
    (0 : Fin 8) ∈ Instr.pbGet.inputPbds ∧
    (∃ s : State, s.argNat 0 % 4 ≠ 0) ∧
    (∃ s : State, s.argNat 0 % 4 = 0 ∧ s.params.memSize < s.argNat 0 + 16) ∧
    (∃ s : State, s.argNat 0 % 4 = 0 ∧ s.argNat 0 + 16 = s.params.memSize ∧ (s.pbdArg 0).base % 2 ≠ 0) ∧
    (∃ s : State, s.argNat 0 % 4 = 0 ∧ s.argNat 0 + 16 ≤ s.params.memSize ∧ (s.pbdArg 0).base % 2 = 0 ∧
      ¬s.RegionIn (s.pbdArg 0).base (s.pbdArg 0).cap) ∧
    (∃ s : State, s.OutputPbd 0 ∧ ¬(s.pbdArg 0).Fits) ∧
    (∃ s : State, s.arrayCount .blkStitch = some 2 ∧ s.argNat 0 % 4 ≠ 0) ∧
    (∃ s : State, s.arrayCount .encC16 = some 2 ∧ s.argNat 0 % 4 = 0 ∧ ¬s.RegionIn (s.argNat 0) (16 * 2)) ∧
    (∃ s : State, s.arrayCount .encS16 = some 2 ∧ s.argNat 0 % 4 = 0 ∧ s.RegionIn (s.argNat 0) (16 * 2) ∧
      (s.StorageOk (s.arrayPbd 0) ∧ (s.arrayPbd 0).Fits) ∧ (s.arrayPbd 1).base % 2 ≠ 0) ∧
    (∃ s : State, s.arrayCount .encS16 = some 2 ∧ s.argNat 0 % 4 = 0 ∧ s.RegionIn (s.argNat 0) (16 * 2) ∧
      (s.StorageOk (s.arrayPbd 0) ∧ (s.arrayPbd 0).Fits) ∧ (s.arrayPbd 1).base % 2 = 0 ∧
      ¬s.RegionIn (s.arrayPbd 1).base (s.arrayPbd 1).cap) ∧
    (∃ s : State, s.arrayCount .encS16 = some 2 ∧ s.argNat 0 % 4 = 0 ∧ s.RegionIn (s.argNat 0) (16 * 2) ∧
      (s.StorageOk (s.arrayPbd 0) ∧ (s.arrayPbd 0).Fits) ∧ s.StorageOk (s.arrayPbd 1) ∧ ¬(s.arrayPbd 1).Fits) ∧
    (∃ s t : State, exec .encS16 s = .next t ∧ t.status.errcode = .none ∧ s.arrayCount .encS16 = some 1) ∧
    ∃ s t : State, exec (.pbBlit true) s = .next t ∧
      t.status.errcode = .none :=
  ⟨by decide, ⟨pend 0x10 [0x102] [], by decide +kernel⟩, ⟨pend 0x10 [0xFFFF8] [], by decide +kernel⟩,
    ⟨pend 0x10 [0xFFFF0] (pbd 0xFFFF0 0x301 0 0 0), by decide +kernel⟩,
    ⟨pend 0x10 [0x100] (pbd 0x100 0xFFFFE 0 0 4), by decide +kernel⟩,
    ⟨pend 0x10 [0x100] (pbd 0x100 0x200 2 2 7), by decide +kernel⟩,
    ⟨pend 0x0A [0x102, 1, 2] [], by decide +kernel⟩, ⟨pend 0x06 [0xFFFF0, 2] [], by decide +kernel⟩,
    ⟨pend 0x05 [0x100, 2] (pbd 0x100 0x200 2 2 8 ++ pbd 0x110 0x301 0 0 0), by decide +kernel⟩,
    ⟨pend 0x05 [0x100, 2] (pbd 0x100 0x200 2 2 8 ++ pbd 0x110 0xFFFFE 0 0 4), by decide +kernel⟩,
    ⟨pend 0x05 [0x100, 2] (pbd 0x100 0x200 2 2 8 ++ pbd 0x110 0x300 2 2 7), by decide +kernel⟩,
    ⟨pend 0x05 [0x100, 1, 0x400, 64] frame21, nextOr (exec .encS16 (pend 0x05 [0x100, 1, 0x400, 64] frame21)) State.reset,
      next_of_seen _ _ (by decide +kernel), by decide +kernel⟩,
    pend 0x200014 [0x100, 0, 0, 0, 0, 0x120] (twoBuffers 2 2 8 [9, 9, 9, 9]), nextOr (exec (.pbBlit true) (pend 0x200014 [0x100, 0, 0, 0, 0, 0x120] (twoBuffers 2 2 8 [9, 9, 9, 9])))
      State.reset, next_of_seen _ _ (by decide +kernel), by decide +kernel⟩

/-- Every way in which a descriptor operand fails its checks, at the last address of each. -/
theorem witness_PbdFails :
    (pend 0x12 [0x100, 0, 0, 1, 1, 0x122] (twoBuffers 0 0 18 [])).PbdFails 5 false .align ∧
    (pend 0x12 [0x100, 0, 0, 1, 1, 0xFFFF4] (twoBuffers 0 0 18 [])).PbdFails 5 false .addrRange ∧
    (pend 0x12 [0x100, 0, 0, 1, 1, 0xFFFF0] (pbd 0x100 0x200 2 2 8 ++ pbd 0xFFFF0 0x301 0 0 18)).PbdFails 5 false .align ∧
    (pend 0x13 [0x100, 0, 0, 1, 1, 0x120] (pbd 0x100 0x200 2 2 8 ++ pbd 0x120 0xFFFFE 0 0 3)).PbdFails 5 false
      .addrRange ∧
    (pend 0x14 [0x100, 0, 0, 1, 1, 0x120] (pbd 0x100 0x200 2 2 8 ++ pbd 0x120 0x300 2 2 7)).PbdFails 5 true .capacity ∧
    (pend 0x04 [0x400, 24, 0, 0x112] stream21).PbdFails 3 false .align ∧
    (pend 0x0A [0x100, 0, 2, 0, 0, 0x122] []).PbdFails 5 false .align ∧
    (pend 0x21 [0x400, 0x400, 0x400, 0x400, 1, 1, 0, 0x122] []).PbdFails 7 false .align := by
  refine ⟨?_, ?_, ?_, ?_, ?_, ?_, ?_, ?_⟩ <;> decide +kernel

theorem witness_PbGetResult :
    (pend 0x10 [0x100, 1, 1] (twoBuffers 0 0 0 [])).InputPbd 0 := by decide +kernel

theorem witness_PbSetResult :
    (∃ s : State, s.InputPbd 0 ∧ s.NoOverlap .pbSet ∧ s.lm.wf = true ∧ s.argInt 1 = 1 ∧ s.argInt 2 = 1 ∧
      (s.pbdArg 0).width = 2 ∧ (s.pbdArg 0).height = 2) ∧
    (∃ s : State, s.InputPbd 0 ∧ s.NoOverlap .pbSet ∧ s.lm.wf = true ∧ s.argInt 1 = -1) ∧
    ∃ s : State, s.InputPbd 0 ∧ ¬s.NoOverlap .pbSet :=
  ⟨⟨pend 0x11 [0x100, 1, 1, 9] (twoBuffers 0 0 0 []), by decide +kernel⟩,
    ⟨pend 0x11 [0x100, 0xFFFFFFFF, 1, 9] (twoBuffers 0 0 0 []), by decide +kernel⟩,
    pend 0x11 [0x100, 0, 0, 9] (pbd 0x100 0x10E 1 1 2), by decide +kernel⟩

theorem witness_PbCropResult :
    (∃ s : State, s.InputPbd 0 ∧ s.OutputPbd 5 ∧ 2 * s.argNat 3 * s.argNat 4 = (s.pbdArg 5).cap ∧ s.NoOverlap .pbCrop ∧
      s.lm.wf = true) ∧
    (∃ s : State, s.InputPbd 0 ∧ s.OutputPbd 5 ∧ (s.pbdArg 5).cap + 1 = 2 * s.argNat 3 * s.argNat 4) ∧
    ∃ s : State, s.InputPbd 0 ∧ s.OutputPbd 5 ∧ 2 * s.argNat 3 * s.argNat 4 ≤ (s.pbdArg 5).cap ∧ ¬s.NoOverlap .pbCrop :=
  ⟨⟨pend 0x12 [0x100, 0, 0, 3, 3, 0x120] (twoBuffers 0 0 18 []), by decide +kernel⟩,
    ⟨pend 0x12 [0x100, 0, 0, 3, 3, 0x120] (twoBuffers 0 0 17 []), by decide +kernel⟩,
    pend 0x12 [0x100, 0, 0, 1, 1, 0x100] (twoBuffers 0 0 18 []), by decide +kernel⟩

theorem witness_PbShiftResult :
    (∃ s : State, s.InputPbd 0 ∧ s.OutputPbd 5 ∧ 2 * (s.pbdArg 0).width * (s.pbdArg 0).height = (s.pbdArg 5).cap ∧
      s.NoOverlap .pbShift ∧ s.lm.wf = true) ∧
    (∃ s : State, s.InputPbd 0 ∧ s.OutputPbd 5 ∧ (s.pbdArg 5).cap + 1 = 2 * (s.pbdArg 0).width * (s.pbdArg 0).height) ∧
    ∃ s : State, s.InputPbd 0 ∧ s.OutputPbd 5 ∧ 2 * (s.pbdArg 0).width * (s.pbdArg 0).height ≤ (s.pbdArg 5).cap ∧
      ¬s.NoOverlap .pbShift :=
  ⟨⟨pend 0x13 [0x100, 1, 0, 0, 0, 0x120] (twoBuffers 0 0 8 []), by decide +kernel⟩,
    ⟨pend 0x13 [0x100, 1, 0, 0, 0, 0x120] (twoBuffers 0 0 7 []), by decide +kernel⟩,
    pend 0x13 [0x100, 1, 0, 0, 0, 0x100] (twoBuffers 0 0 8 []), by decide +kernel⟩

theorem witness_PbBlitResult :
    (∃ s : State, s.InputPbd 0 ∧ s.InputPbd 5 ∧ s.NoOverlap (.pbBlit true) ∧ s.NoOverlap (.pbBlit false) ∧
      s.lm.wf = true) ∧
    ∃ s : State, s.InputPbd 0 ∧ s.InputPbd 5 ∧ ¬s.NoOverlap (.pbBlit true) ∧ ¬s.NoOverlap (.pbBlit false) :=
  ⟨⟨pend 0x14 [0x100, 1, 0, 0, 0, 0x120] (twoBuffers 2 2 8 [9, 9, 9, 9]), by decide +kernel⟩,
    pend 0x14 [0x100, 1, 0, 0, 0, 0x100] (twoBuffers 2 2 8 [9, 9, 9, 9]), by decide +kernel⟩

theorem witness_PbXplantResult :
    (∃ s : State, s.InputPbd 0 ∧ s.InputPbd 5 ∧ s.NoOverlap .pbXplant ∧ s.lm.wf = true) ∧
    ∃ s : State, s.InputPbd 0 ∧ s.InputPbd 5 ∧ ¬s.NoOverlap .pbXplant :=
  ⟨⟨pend 0x15 [0x100, 1, 0, 0, 0, 0x120] (twoBuffers 2 2 8 [9, 9, 9, 9]), by decide +kernel⟩,
    pend 0x15 [0x100, 1, 0, 0, 0, 0x100] (twoBuffers 2 2 8 [9, 9, 9, 9]), by decide +kernel⟩

theorem witness_BlitIsTheLoopOfTheRule : (PixelBuffer.mk 2 1 [5#16, 5#16]).wf = true := by decide

/-- An in-range PB_SET. -/
def pbSetState : State := pend 0x11 [0x100, 1, 1, 9] (twoBuffers 0 0 0 [])

theorem witness_RasterLaws_set :
    pbSetState.InputPbd 0 ∧ pbSetState.lm.wf = true ∧
      (∃ t : State, exec .pbSet pbSetState = .next t ∧ t.status.errcode = .none) ∧
      (0 ≤ pbSetState.argInt 1 ∧ pbSetState.argInt 1 < (pbSetState.pbdArg 0).width ∧
        0 ≤ pbSetState.argInt 2 ∧ pbSetState.argInt 2 < (pbSetState.pbdArg 0).height) :=
  ⟨by decide +kernel, by decide +kernel,
    ⟨nextOr (exec .pbSet pbSetState) State.reset, next_of_seen _ _ (by decide +kernel), by decide +kernel⟩,
    by decide +kernel⟩

theorem witness_RasterLaws_buffers :
    (PixelBuffer.mk 2 1 [5#16, 0#16]).wf = true ∧ ∀ p ∈ (PixelBuffer.mk 2 1 [0#16, 0#16]).data, p = 0#16 :=
  ⟨rfl, by simp⟩

theorem witness_IdentResult :
    (∃ s : State, s.RegionIn (s.argNat 0) (s.argNat 1) ∧ s.argNat 0 + s.argNat 1 = s.params.memSize) ∧
    (∃ s : State, ¬s.RegionIn (s.argNat 0) (s.argNat 1) ∧ s.argNat 0 + s.argNat 1 = s.params.memSize + 1) ∧
    (∀ m ∈ [[0#8, 0#8, 0#8, 0#8], [1#8, 0#8, 0#8, 0#8], [2#8, 0#8, 0#8, 0#8], [3#8, 0#8, 0#8, 0#8], [0#8, 0#8, 0#8, 1#8],
        [0#8, 0#8, 0#8, 3#8]],
      4 ≤ m.length ∧ in32 m false 0 ∈ [0x00000000, 0x00000001, 0x00000002, 0x00000003, 0x01000000, 0x03000000]) ∧
    in32 [4#8, 0#8, 0#8, 0#8] false 0 ∉ [0x00000000, 0x00000001, 0x00000002, 0x00000003, 0x01000000, 0x03000000] ∧
    [1#8, 0#8, 0#8].length < 4 :=
  ⟨⟨pend 0x01 [0xFFFFC, 4] [], by decide +kernel⟩, ⟨pend 0x01 [0xFFFFD, 4] [], by decide +kernel⟩, by decide +kernel⟩

/-- A stream operand of these bytes at 0x400. -/
def streamState (w : Nat) (bs : List Nat) (k : Nat) : State := pend w [0x400, bs.length, k, 0x110] (put 0x400 bs)

theorem witness_FtHdrResult :
    (∃ s : State, ¬s.RegionIn (s.argNat 0) (s.argNat 1)) ∧
    (∃ s : State, s.RegionIn (s.argNat 0) (s.argNat 1) ∧ s.argNat 1 = 3) ∧
    (∃ s : State, s.RegionIn (s.argNat 0) (s.argNat 1) ∧ 4 = s.argNat 1 ∧ identify s.stream = none) ∧
    (∃ s : State, s.RegionIn (s.argNat 0) (s.argNat 1) ∧ identify s.stream = some ⟨false, .rgb565, false⟩ ∧
      s.argNat 1 = 5) ∧
    ∃ s : State, s.RegionIn (s.argNat 0) (s.argNat 1) ∧ identify s.stream = some ⟨false, .rgb565, true⟩ ∧
      6 = s.argNat 1 :=
  ⟨⟨pend 0x02 [0xFFFFE, 4] [], by decide +kernel⟩, ⟨streamState 0x02 [1, 0, 0] 0, by decide +kernel⟩,
    ⟨streamState 0x02 [9, 0, 0, 0] 0, by decide +kernel⟩, ⟨streamState 0x02 [1, 0, 0, 0, 5] 0, by decide +kernel⟩,
    streamState 0x02 [0, 0, 0, 1, 0, 2] 0, by decide +kernel⟩

theorem witness_FtEntResult :
    (∃ s : State, s.RegionIn (s.argNat 0) (s.argNat 1) ∧ identify s.stream = some ⟨false, .rgb565, false⟩ ∧
      6 = s.argNat 1 ∧ in16 s.stream false 4 = s.argNat 2) ∧
    (∃ s : State, s.RegionIn (s.argNat 0) (s.argNat 1) ∧ identify s.stream = some ⟨false, .rgb565, false⟩ ∧
      s.argNat 2 < in16 s.stream false 4 ∧
      s.argNat 1 + 1 = entryPosition s.stream ⟨false, .rgb565, false⟩ (s.argNat 2) + 8) ∧
    ∃ s : State, s.RegionIn (s.argNat 0) (s.argNat 1) ∧ identify s.stream = some ⟨true, .rgb565, false⟩ ∧
      6 ≤ s.argNat 1 ∧ s.argNat 2 < in16 s.stream false 4 ∧
      entryPosition s.stream ⟨true, .rgb565, false⟩ (s.argNat 2) + 8 ≤ s.argNat 1 :=
  ⟨⟨streamState 0x03 [1, 0, 0, 0, 0, 0] 0, by decide +kernel⟩,
    ⟨streamState 0x03 [1, 0, 0, 0, 1, 0, 9, 0, 0, 0, 0, 0, 0] 0, by decide +kernel⟩,
    pend 0x03 [0x400, 24, 0] stream21, by decide +kernel⟩

theorem witness_DecFrmResult :
    (∃ s : State, ¬s.RegionIn (s.argNat 0) (s.argNat 1)) ∧
    (∃ s : State, s.RegionIn (s.argNat 0) (s.argNat 1) ∧ s.OutputPbd 3 ∧ s.argNat 1 = 3) ∧
    (∃ s : State, s.RegionIn (s.argNat 0) (s.argNat 1) ∧ s.OutputPbd 3 ∧ 4 = s.argNat 1 ∧ identify s.stream = none) ∧
    (∃ s : State, s.RegionIn (s.argNat 0) (s.argNat 1) ∧ s.OutputPbd 3 ∧
      identify s.stream = some ⟨true, .rgb565, false⟩ ∧ s.argNat 1 = 5) ∧
    (∃ s : State, s.RegionIn (s.argNat 0) (s.argNat 1) ∧ s.OutputPbd 3 ∧
      identify s.stream = some ⟨true, .rgb565, false⟩ ∧ 6 ≤ s.argNat 1 ∧ in16 s.stream false 4 = s.argNat 2) ∧
    (∃ s : State, s.RegionIn (s.argNat 0) (s.argNat 1) ∧ s.OutputPbd 3 ∧
      identify s.stream = some ⟨true, .rgb565, false⟩ ∧ 6 ≤ s.argNat 1 ∧ s.argNat 2 < in16 s.stream false 4 ∧
      s.argNat 1 + 1 = entryPosition s.stream ⟨true, .rgb565, false⟩ (s.argNat 2) + 8) ∧
    (∀ c ∈ [3, 4], ∃ s : State, s.RegionIn (s.argNat 0) (s.argNat 1) ∧ s.OutputPbd 3 ∧
      identify s.stream = some ⟨true, .rgb565, false⟩ ∧ 6 ≤ s.argNat 1 ∧ s.argNat 2 < in16 s.stream false 4 ∧
      entryPosition s.stream ⟨true, .rgb565, false⟩ (s.argNat 2) + 8 ≤ s.argNat 1 ∧
      2 * (entryAt s.stream ⟨true, .rgb565, false⟩ 6).width * (entryAt s.stream ⟨true, .rgb565, false⟩ 6).height = 4 ∧
      (s.pbdArg 3).cap = c ∧ s.NoOverlap .decFrm ∧ s.lm.wf = true) ∧
    (∃ s : State, s.RegionIn (s.argNat 0) (s.argNat 1) ∧ s.OutputPbd 3 ∧
      identify s.stream = some ⟨true, .rgb565, false⟩ ∧ 6 ≤ s.argNat 1 ∧ s.argNat 2 < in16 s.stream false 4 ∧
      entryPosition s.stream ⟨true, .rgb565, false⟩ (s.argNat 2) + 8 ≤ s.argNat 1 ∧
      2 * (entryAt s.stream ⟨true, .rgb565, false⟩ 6).width * (entryAt s.stream ⟨true, .rgb565, false⟩ 6).height ≤
        (s.pbdArg 3).cap ∧ ¬s.NoOverlap .decFrm) ∧
    (Descriptor.mk false .rgb555 true).compressed = false ∧ (Descriptor.mk true .rgb555 false).compressed = true ∧
    (Descriptor.mk true .rgb555 false).layout = .rgb555 ∧ (Descriptor.mk true .rgb565 true).layout = .rgb565 := by
  refine ⟨⟨pend 0x04 [0xFFFFE, 4] [], by decide +kernel⟩, ⟨pend 0x04 [0x400, 3, 0, 0x110] stream21, by decide +kernel⟩,
    ⟨pend 0x04 [0x402, 4, 0, 0x110] stream21, by decide +kernel⟩,
    ⟨pend 0x04 [0x400, 5, 0, 0x110] stream21, by decide +kernel⟩,
    ⟨pend 0x04 [0x400, 24, 1, 0x110] stream21, by decide +kernel⟩,
    ⟨pend 0x04 [0x400, 13, 0, 0x110] stream21, by decide +kernel⟩, fun c hc => ?_,
    ⟨pend 0x04 [0x400, 24, 0, 0x120] (stream21 ++ pbd 0x120 0x416 0 0 4), by decide +kernel⟩, rfl, rfl, rfl, rfl⟩
  simp only [List.mem_cons, List.not_mem_nil, or_false] at hc
  rcases hc with rfl | rfl
  · exact ⟨pend 0x04 [0x400, 24, 0, 0x120] (stream21 ++ pbd 0x120 0x600 0 0 3), by decide +kernel⟩
  · exact ⟨pend 0x04 [0x400, 24, 0, 0x120] (stream21 ++ pbd 0x120 0x600 0 0 4), by decide +kernel⟩

/-- A stream no encoder writes (R190's malformed input): a run past the row's width, then a row that ends early, in
RGB555, the stream cut in its last sample. -/
theorem test_rle_malformed :
    decodeRle [5, 0, 1, 0, 0, 2, 0, 0, 3, 0, 0xFF] ⟨true, .rgb555, false⟩ 0 1 2 =
      (⟨1, 2, [1#16, 0x01DF#16]⟩, true) := by decide +kernel

theorem witness_RleRunBoundIsNeverReached : ([] : List Byte).length + 1 ≤ 1 ∧ ([] : List Byte).length + 1 ≤ 5 := by decide

/-- An encoder's operands: one frame w x h with its capacity, n frames, an output region at dst of cap bytes. -/
def encoderState (w h pc n dst cap : Nat) : State := pend 0x05 [0x100, n, dst, cap] (pbd 0x100 0x200 w h pc)

theorem witness_EncoderResults :
    (∃ s : State, s.InputPbds (s.argNat 1) ∧ ¬s.RegionIn (s.argNat 2) (s.argNat 3)) ∧
    (∃ s : State, s.InputPbds (s.argNat 1) ∧ s.RegionIn (s.argNat 2) (s.argNat 3) ∧
      ¬(s.argNat 1 ≤ 65535 ∧ ∀ k < s.argNat 1, (s.arrayPbd k).width ≤ 65535 ∧ (s.arrayPbd k).height ≤ 65535)) ∧
    (∃ s : State, s.InputPbds (s.argNat 1) ∧ s.RegionIn (s.argNat 2) (s.argNat 3) ∧
      (s.argNat 1 ≤ 65535 ∧ ∀ k < s.argNat 1, (s.arrayPbd k).width ≤ 65535 ∧ (s.arrayPbd k).height ≤ 65535) ∧
      s.argNat 3 < (s16Bytes (s.arrayBuffers (s.argNat 1))).length ∧
      s.argNat 3 < (c16Bytes (s.arrayBuffers (s.argNat 1))).length) ∧
    (∃ s : State, s.InputPbds (s.argNat 1) ∧ s.RegionIn (s.argNat 2) (s.argNat 3) ∧
      (s.argNat 1 ≤ 65535 ∧ ∀ k < s.argNat 1, (s.arrayPbd k).width ≤ 65535 ∧ (s.arrayPbd k).height ≤ 65535) ∧
      (s16Bytes (s.arrayBuffers (s.argNat 1))).length ≤ s.argNat 3 ∧
      (c16Bytes (s.arrayBuffers (s.argNat 1))).length ≤ s.argNat 3 ∧ ¬s.NoOverlap .encS16 ∧ ¬s.NoOverlap .encC16) ∧
    ∃ s : State, s.InputPbds (s.argNat 1) ∧ s.RegionIn (s.argNat 2) (s.argNat 3) ∧
      (s.argNat 1 ≤ 65535 ∧ ∀ k < s.argNat 1, (s.arrayPbd k).width ≤ 65535 ∧ (s.arrayPbd k).height ≤ 65535) ∧
      (s16Bytes (s.arrayBuffers (s.argNat 1))).length ≤ s.argNat 3 ∧
      (c16Bytes (s.arrayBuffers (s.argNat 1))).length = s.argNat 3 ∧ s.NoOverlap .encS16 ∧ s.NoOverlap .encC16 ∧
      s.lm.wf = true :=
  ⟨⟨encoderState 2 1 4 1 0xFFFF0 17, by decide +kernel⟩, ⟨encoderState 65536 0 0 1 0x400 64, by decide +kernel⟩, ⟨encoderState 2 1 4 1 0x400 17, by decide +kernel⟩,
    ⟨encoderState 2 1 4 1 0x110 0x100, by decide +kernel⟩, encoderState 2 1 4 1 0x400 20, by decide +kernel⟩

theorem witness_RawFrameRoundTrip :
    let fs : List PixelBuffer := [⟨2, 1, [0#16, 0xFFFF#16]⟩, ⟨0, 65535, []⟩]
    fs.length ≤ 65535 ∧ (∀ F ∈ fs, F.wf = true ∧ F.width ≤ 65535 ∧ F.height ≤ 65535) ∧
      6 + 8 * fs.length + ((fs.take 1).map fun F => 2 * F.width * F.height).sum < 2 ^ 32 := by
  decide +kernel

theorem witness_RleFrameRoundTrip :
    let fs : List PixelBuffer := [⟨2, 1, [0#16, 0xFFFF#16]⟩, ⟨65535, 0, []⟩]
    fs.length ≤ 65535 ∧ (∀ F ∈ fs, F.wf = true ∧ F.width ≤ 65535 ∧ F.height ≤ 65535) ∧
      c16TableSize fs + ((fs.take 1).map fun F => (rleData F).length).sum < 2 ^ 32 ∧ (fs.take 1).length = 1 := by
  decide +kernel

theorem witness_RunsAreSplitAndBounded : (1#16 : Pixel) ≠ 0#16 ∧ (0xFFFF#16 : Pixel) ≠ 0#16 ∧
    maximalRuns [0#16, 1#16, 2#16, 0#16] = [[0#16], [1#16, 2#16], [0#16]] ∧
    rowChunks [0#16, 1#16, 2#16, 0#16] = [[0#16], [1#16, 2#16], [0#16]] := by decide

/-- A frame of two rows, and a row after the first. -/
theorem witness_C16TableHasItsComputedSize :
    [(⟨1, 2, [0#16, 5#16]⟩ : PixelBuffer)][0]? = some ⟨1, 2, [0#16, 5#16]⟩ ∧ 1 ≤ 1 ∧ 1 < 2 := by decide

theorem witness_BlkHdrResult :
    (∃ s : State, ¬s.RegionIn (s.argNat 0) (s.argNat 1)) ∧
    (∃ s : State, s.RegionIn (s.argNat 0) (s.argNat 1) ∧ s.argNat 1 = 3) ∧
    (∃ s : State, s.RegionIn (s.argNat 0) (s.argNat 1) ∧ 4 = s.argNat 1 ∧ identify s.stream = none) ∧
    (∃ s : State, s.RegionIn (s.argNat 0) (s.argNat 1) ∧ identify s.stream = some ⟨true, .rgb565, true⟩) ∧
    (∃ s : State, s.RegionIn (s.argNat 0) (s.argNat 1) ∧ identify s.stream = some ⟨true, .rgb555, false⟩) ∧
    (∃ s : State, s.RegionIn (s.argNat 0) (s.argNat 1) ∧ identify s.stream = some ⟨false, .rgb565, false⟩ ∧
      s.argNat 1 = 9) ∧
    ∃ s : State, s.RegionIn (s.argNat 0) (s.argNat 1) ∧ identify s.stream = some ⟨false, .rgb555, false⟩ ∧
      10 = s.argNat 1 :=
  ⟨⟨pend 0x08 [0xFFFFE, 4] [], by decide +kernel⟩, ⟨streamState 0x08 [1, 0, 0] 0, by decide +kernel⟩,
    ⟨streamState 0x08 [7, 0, 0, 0] 0, by decide +kernel⟩, ⟨streamState 0x08 [0, 0, 0, 3] 0, by decide +kernel⟩,
    ⟨streamState 0x08 [2, 0, 0, 0] 0, by decide +kernel⟩,
    ⟨streamState 0x08 [1, 0, 0, 0, 2, 0, 1, 0, 2] 0, by decide +kernel⟩,
    streamState 0x08 [0, 0, 0, 0, 1, 0, 1, 0, 1, 0] 0, by decide +kernel⟩

theorem witness_BlkDecResult :
    (∃ s : State, ¬s.RegionIn (s.argNat 0) (s.argNat 1)) ∧
    (∃ s : State, s.RegionIn (s.argNat 0) (s.argNat 1) ∧ s.OutputPbd 3 ∧ s.argNat 1 = 3) ∧
    (∃ s : State, s.RegionIn (s.argNat 0) (s.argNat 1) ∧ s.OutputPbd 3 ∧ 4 = s.argNat 1 ∧ identify s.stream = none) ∧
    (∃ s : State, s.RegionIn (s.argNat 0) (s.argNat 1) ∧ s.OutputPbd 3 ∧
      identify s.stream = some ⟨true, .rgb565, true⟩) ∧
    (∃ s : State, s.RegionIn (s.argNat 0) (s.argNat 1) ∧ s.OutputPbd 3 ∧
      identify s.stream = some ⟨true, .rgb565, false⟩) ∧
    (∃ s : State, s.RegionIn (s.argNat 0) (s.argNat 1) ∧ s.OutputPbd 3 ∧
      identify s.stream = some ⟨false, .rgb555, false⟩ ∧ s.argNat 1 = 9) ∧
    (∃ s : State, s.RegionIn (s.argNat 0) (s.argNat 1) ∧ s.OutputPbd 3 ∧
      identify s.stream = some ⟨false, .rgb555, false⟩ ∧ 10 ≤ s.argNat 1 ∧ in16 s.stream false 8 = s.argNat 2) ∧
    (∃ s : State, s.RegionIn (s.argNat 0) (s.argNat 1) ∧ s.OutputPbd 3 ∧
      identify s.stream = some ⟨false, .rgb555, false⟩ ∧ 10 ≤ s.argNat 1 ∧ s.argNat 2 < in16 s.stream false 8 ∧
      s.argNat 1 + 1 = 18 + 8 * s.argNat 2) ∧
    (∃ s : State, s.RegionIn (s.argNat 0) (s.argNat 1) ∧ s.OutputPbd 3 ∧
      identify s.stream = some ⟨false, .rgb555, false⟩ ∧ 18 + 8 * s.argNat 2 ≤ s.argNat 1 ∧
      s.argNat 2 < in16 s.stream false 8 ∧ 2 * in16 s.stream false 14 * in16 s.stream false 16 = (s.pbdArg 3).cap + 1) ∧
    (∃ s : State, s.RegionIn (s.argNat 0) (s.argNat 1) ∧ s.OutputPbd 3 ∧
      identify s.stream = some ⟨false, .rgb555, false⟩ ∧ 18 + 8 * s.argNat 2 ≤ s.argNat 1 ∧
      s.argNat 2 < in16 s.stream false 8 ∧ 2 * in16 s.stream false 14 * in16 s.stream false 16 ≤ (s.pbdArg 3).cap ∧
      ¬s.NoOverlap .blkDec) ∧
    ∃ s : State, s.RegionIn (s.argNat 0) (s.argNat 1) ∧ s.OutputPbd 3 ∧
      identify s.stream = some ⟨false, .rgb555, false⟩ ∧ 18 + 8 * s.argNat 2 ≤ s.argNat 1 ∧
      s.argNat 2 < in16 s.stream false 8 ∧ 2 * in16 s.stream false 14 * in16 s.stream false 16 = (s.pbdArg 3).cap ∧
      s.NoOverlap .blkDec ∧ s.lm.wf = true :=
  ⟨⟨pend 0x09 [0xFFFFE, 4] [], by decide +kernel⟩, ⟨pend 0x09 [0x400, 3, 0, 0x110] blkStream, by decide +kernel⟩,
    ⟨pend 0x09 [0x404, 4, 0, 0x110] blkStream, by decide +kernel⟩,
    ⟨pend 0x09 [0x400, 22, 0, 0x110] (put 0x400 [0, 0, 0, 3] ++ pbd 0x110 0x600 0 0 4), by decide +kernel⟩,
    ⟨pend 0x09 [0x400, 22, 0, 0x110] (put 0x400 [3, 0, 0, 0] ++ pbd 0x110 0x600 0 0 4), by decide +kernel⟩,
    ⟨pend 0x09 [0x400, 9, 0, 0x110] blkStream, by decide +kernel⟩,
    ⟨pend 0x09 [0x400, 22, 1, 0x110] blkStream, by decide +kernel⟩,
    ⟨pend 0x09 [0x400, 17, 0, 0x110] blkStream, by decide +kernel⟩,
    ⟨pend 0x09 [0x400, 22, 0, 0x120] (blkStream ++ pbd 0x120 0x600 0 0 3), by decide +kernel⟩,
    ⟨pend 0x09 [0x400, 22, 0, 0x120] (blkStream ++ pbd 0x120 0x414 0 0 4), by decide +kernel⟩,
    pend 0x09 [0x400, 22, 0, 0x110] blkStream, by decide +kernel⟩

theorem witness_BlkStitchResult :
    (∃ s : State, s.InputPbds (s.argNat 1 * s.argNat 2) ∧ s.OutputPbd 5 ∧ s.argNat 1 = 1 ∧ s.argNat 2 = 1 ∧
      2 * (128 * s.argNat 1) * (128 * s.argNat 2) = (s.pbdArg 5).cap ∧ s.NoOverlap .blkStitch ∧ s.lm.wf = true) ∧
    (∃ s : State, s.InputPbds (s.argNat 1 * s.argNat 2) ∧ s.OutputPbd 5 ∧ s.argNat 1 = 0 ∧
      128 * s.argNat 2 = 2 ^ 32 - 128 ∧ 2 * (128 * s.argNat 1) * (128 * s.argNat 2) = (s.pbdArg 5).cap ∧
      s.NoOverlap .blkStitch ∧ s.lm.wf = true) ∧
    (∃ s : State, s.InputPbds (s.argNat 1 * s.argNat 2) ∧ s.OutputPbd 5 ∧ s.argNat 1 = 0 ∧
      128 * s.argNat 2 = 2 ^ 32) ∧
    (∃ s : State, s.InputPbds (s.argNat 1 * s.argNat 2) ∧ s.OutputPbd 5 ∧
      2 * (128 * s.argNat 1) * (128 * s.argNat 2) = (s.pbdArg 5).cap + 1) ∧
    ∃ s : State, s.InputPbds (s.argNat 1 * s.argNat 2) ∧ s.OutputPbd 5 ∧ 128 * s.argNat 1 < 2 ^ 32 ∧
      128 * s.argNat 2 < 2 ^ 32 ∧ 2 * (128 * s.argNat 1) * (128 * s.argNat 2) ≤ (s.pbdArg 5).cap ∧
      ¬s.NoOverlap .blkStitch :=
  ⟨⟨pend 0x0A [0x100, 1, 1, 0, 0, 0x120] (twoBuffers 0 0 32768 []), by decide +kernel⟩,
    ⟨pend 0x0A [0x100, 0, 0x1FFFFFF, 0, 0, 0x120] (twoBuffers 0 0 0 []), by decide +kernel⟩,
    ⟨pend 0x0A [0x100, 0, 0x2000000, 0, 0, 0x120] (twoBuffers 0 0 0 []), by decide +kernel⟩,
    ⟨pend 0x0A [0x100, 1, 1, 0, 0, 0x120] (twoBuffers 0 0 32767 []), by decide +kernel⟩,
    pend 0x0A [0x100, 1, 1, 0, 0, 0x100] (pbd 0x100 0x200 0 0 32768), by decide +kernel⟩

/-- R136: a dimension of 2^32 beside a zero one does not pass the capacity check, 2^32 - 128 does. -/
theorem test_blkStitch_dimension :
    seen (step (pend 0x0A [0x100, 0, 0x2000000, 0, 0, 0x120] (twoBuffers 0 0 0 []))) report = some (0xB06, [0, 0, 0, 0]) ∧
      seen (step (pend 0x0A [0x100, 0, 0x1FFFFFF, 0, 0, 0x120] (twoBuffers 0 0 0 []))) report =
        some (2, [0, 0xFFFFFF80, 0, 0]) := by decide +kernel

/-- Tiles of the cell's size, a smaller tile beside a larger one drawn over it, and a pixel none reaches. -/
theorem witness_StitchIsColumnMajor :
    let T := PixelBuffer.zero 128 128
    ([T, T].length = 1 * 2 ∧ ∀ Q ∈ [T, T], Q.wf = true ∧ Q.width = 128 ∧ Q.height = 128) ∧
    [PixelBuffer.zero 200 200, PixelBuffer.zero 1 1].length = 1 * 2 ∧
    (128 * (0 / 2) ≤ 5 ∧ 5 < 128 * (0 / 2) + 200 ∧ 128 * (0 % 2) ≤ 130 ∧ 130 < 128 * (0 % 2) + 200) ∧
    ¬(128 * (1 / 2) ≤ 5 ∧ 5 < 128 * (1 / 2) + 1) ∧ ¬(127 < 128 * (0 / 2) + 1) := by
  refine ⟨⟨rfl, fun Q hQ => ?_⟩, rfl, by decide, by decide, by decide⟩
  simp only [List.mem_cons, List.not_mem_nil, or_false, or_self] at hQ
  subst hQ
  exact ⟨PixelBuffer.zero_wf .., rfl, rfl⟩

/-- BLK_ENC's operands: an image w x h with its capacity, and an output region at dst of cap bytes. -/
def blkEncState (w h pc dst cap : Nat) : State := pend 0x0B [0x100, 0, dst, cap] (pbd 0x100 0x200 w h pc)

theorem witness_BlkEncResult :
    (∃ s : State, s.InputPbd 0 ∧ ¬s.RegionIn (s.argNat 2) (s.argNat 3)) ∧
    (∃ s : State, s.InputPbd 0 ∧ s.RegionIn (s.argNat 2) (s.argNat 3) ∧
      ¬(((s.pbdArg 0).width + 127) / 128 ≤ 65535)) ∧
    (8388480 + 127) / 128 = 65535 ∧
    (∃ s : State, s.InputPbd 0 ∧ s.RegionIn (s.argNat 2) (s.argNat 3) ∧
      ((s.pbdArg 0).height + 127) / 128 = 0 ∧ s.argNat 3 < (blkBytes (s.bufferArg 0)).length) ∧
    (∃ s : State, s.InputPbd 0 ∧ s.RegionIn (s.argNat 2) (s.argNat 3) ∧ ((s.pbdArg 0).height + 127) / 128 = 0 ∧
      (blkBytes (s.bufferArg 0)).length ≤ s.argNat 3 ∧ ¬s.NoOverlap .blkEnc) ∧
    ∃ s : State, s.InputPbd 0 ∧ s.RegionIn (s.argNat 2) (s.argNat 3) ∧ ((s.pbdArg 0).height + 127) / 128 = 0 ∧
      (blkBytes (s.bufferArg 0)).length = s.argNat 3 ∧ s.NoOverlap .blkEnc ∧ s.lm.wf = true :=
  ⟨⟨blkEncState 3 0 0 0xFFFF8 9, by decide +kernel⟩, ⟨blkEncState 8388481 0 0 0x400 64, by decide +kernel⟩, rfl, ⟨blkEncState 3 0 0 0x400 9, by decide +kernel⟩,
    ⟨blkEncState 3 0 0 0x108 10, by decide +kernel⟩, blkEncState 3 0 0 0x400 10, by decide +kernel⟩

theorem witness_BlkRoundTrip :
    let I := PixelBuffer.zero 128 128
    I.wf = true ∧ (I.width + 127) / 128 = 1 ∧ (I.height + 127) / 128 = 1 ∧ I.width = 128 * 1 ∧ I.height = 128 * 1 :=
  ⟨PixelBuffer.zero_wf .., rfl, rfl, rfl, rfl⟩

theorem witness_QuantResult :
    (8#4).toNat ≤ 8 ∧ Strategy.ofCode 29#5 = some (.pattern .bluenoise15 true) ∧
    (∃ s : State, ¬s.RegionIn (s.argNat 0) (s.argNat 1 * s.argNat 2)) ∧
    (∃ s : State, s.RegionIn (s.argNat 0) (s.argNat 1 * s.argNat 2) ∧ s.lm.wf = true ∧
      s.argNat 0 + s.argNat 1 * s.argNat 2 = s.params.memSize) ∧
    ∃ s : State, s.RegionIn (s.argNat 0) (s.argNat 1 * s.argNat 2) ∧ s.lm.wf = true ∧ s.argNat 1 * s.argNat 2 = 0 ∧
      s.params.memSize < s.argNat 0 :=
  ⟨by decide, by decide, ⟨pend 0x20 [0xFFFFD, 2, 2] [], by decide +kernel⟩, ⟨pend 0x20 [0xFFFFC, 2, 2] [], by decide +kernel⟩,
    pend 0x20 [0xFFFFFFFF, 0, 2] [], by decide +kernel⟩

theorem witness_QlookupResult : (0#4).toNat ≤ 8 ∧ (8#4).toNat ≤ 8 := by decide

theorem witness_BitDepthTableLaws :
    (0 ≤ 8 ∧ 8 ≤ 8 ∧ 255 < 256 ∧ 1 ≤ 1) ∧ (lowOf 1 1 < highOf 1 1 ∧ lowOf 7 254 < highOf 7 254) ∧
    trunc 5 0 ≤ 7 ∧ 0xF8 ≤ trunc 5 0xF8 ∧
    (lowOf 5 0x9C = highOf 5 0x9C) ∧ (lowOf 5 0x95 = lowOf 5 0x9B ∧ highOf 5 0x95 = highOf 5 0x9B) := by decide +kernel

theorem witness_PatternSetsAreScoredAndOrdered :
    (thresholdRows .bayer2).isSome = true ∧ (thresholdRows .bayer4).isSome = true ∧
      (thresholdRows .bluenoise9).isSome = true ∧ (thresholdRows .bluenoise15).isSome = true := ⟨rfl, rfl, rfl, rfl⟩

/-- Clause by clause: exactly at a pattern's value, strictly between two, at the last pattern, and below the first. -/
theorem witness_PatternSelection :
    let value := fun p : Pattern => (p.ones : ℚ) / (p.width * p.height)
    (∃ (h : 1 < (patterns .bayer2).length), value ((patterns .bayer2)[1]) = ((16384 : ℕ) : ℚ) / 65536 ∧
      ∀ (j : Nat) (hj : j < (patterns .bayer2).length), 1 < j → ((16384 : ℕ) : ℚ) / 65536 < value ((patterns .bayer2)[j])) ∧
    (∃ (h : 0 < (patterns .bayer2).length), value ((patterns .bayer2)[0]) ≤ ((1 : ℕ) : ℚ) / 65536 ∧
      ¬(0 + 1 = (patterns .bayer2).length ∨ value ((patterns .bayer2)[0]) = ((1 : ℕ) : ℚ) / 65536) ∧
      ∀ (j : Nat) (hj : j < (patterns .bayer2).length), 0 < j → ((1 : ℕ) : ℚ) / 65536 < value ((patterns .bayer2)[j])) ∧
    (∃ (h : 0 < (patterns .alwaysCheckers).length), value ((patterns .alwaysCheckers)[0]) ≤ ((65535 : ℕ) : ℚ) / 65536 ∧
      0 + 1 = (patterns .alwaysCheckers).length) ∧
    PatternSet.bayer2 ≠ .alwaysCheckers := by
  have l : (patterns .bayer2).length = 5 := rfl
  have l1 : (patterns .alwaysCheckers).length = 1 := rfl
  have v0 : ((patterns .bayer2)[0]).ones = 0 ∧ ((patterns .bayer2)[0]).width = 2 ∧ ((patterns .bayer2)[0]).height = 2 :=
    ⟨rfl, rfl, rfl⟩
  have v1 : ((patterns .bayer2)[1]).ones = 1 ∧ ((patterns .bayer2)[1]).width = 2 ∧ ((patterns .bayer2)[1]).height = 2 :=
    ⟨rfl, rfl, rfl⟩
  have v2 : ((patterns .bayer2)[2]).ones = 2 ∧ ((patterns .bayer2)[2]).width = 2 ∧ ((patterns .bayer2)[2]).height = 2 :=
    ⟨rfl, rfl, rfl⟩
  have v3 : ((patterns .bayer2)[3]).ones = 3 ∧ ((patterns .bayer2)[3]).width = 2 ∧ ((patterns .bayer2)[3]).height = 2 :=
    ⟨rfl, rfl, rfl⟩
  have v4 : ((patterns .bayer2)[4]).ones = 4 ∧ ((patterns .bayer2)[4]).width = 2 ∧ ((patterns .bayer2)[4]).height = 2 :=
    ⟨rfl, rfl, rfl⟩
  have va : ((patterns .alwaysCheckers)[0]).ones = 2 ∧ ((patterns .alwaysCheckers)[0]).width = 2 ∧ ((patterns .alwaysCheckers)[0]).height = 2 :=
    ⟨rfl, rfl, rfl⟩
  refine ⟨⟨by omega, ?_, ?_⟩, ⟨by omega, ?_, ?_, ?_⟩, ⟨by omega, ?_, by omega⟩, by decide⟩
  · simp only [v1]; norm_num
  · intro j hj h
    rw [l] at hj
    interval_cases j <;> simp only [v2, v3, v4] <;> norm_num
  · simp only [v0]; norm_num
  · simp only [v0, l]; norm_num
  · intro j hj h
    rw [l] at hj
    interval_cases j <;> simp only [v1, v2, v3, v4] <;> norm_num
  · simp only [va]; norm_num

theorem witness_StrategyOutputs :
    8 ≤ 8 ∧ 0 ≤ 256 >>> 8 - 1 ∧ 255 ≤ 256 >>> 0 - 1 ∧ 
    (∃ p, (patterns .bayer2)[select (patterns .bayer2) (fraction false 1 128)]? = some p) ∧
    (∃ p, (patterns .bayer2)[(selectRandom (patterns .bayer2) 0 0).1]? = some p) ∧
    ∃ p, (patterns .alwaysCheckers)[(selectRandom (patterns .alwaysCheckers) 65535 7).1]? = some p :=
  ⟨by decide, by decide, by decide, ⟨_, rfl⟩, ⟨_, rfl⟩, _, rfl⟩

theorem witness_Pack565Result :
    Strategy.ofCode 0#5 = some .floor ∧ Strategy.ofCode 10#5 = some (.pattern .bayer2 false) ∧
    (∃ s : State, (∀ k : Fin 8, k.val < 4 → s.RegionIn (s.argNat k) (s.argNat 4 * s.argNat 5)) ∧ s.OutputPbd 7 ∧
      2 * s.argNat 4 * s.argNat 5 = (s.pbdArg 7).cap ∧ s.NoOverlap (.pack565 0#5 10#5) ∧ s.lm.wf = true) ∧
    (∃ s : State, ∃ k : Fin 8, k.val < 4 ∧ ¬s.RegionIn (s.argNat k) (s.argNat 4 * s.argNat 5)) ∧
    (∃ s : State, (∀ k : Fin 8, k.val < 4 → s.RegionIn (s.argNat k) (s.argNat 4 * s.argNat 5)) ∧ s.OutputPbd 7 ∧
      2 * s.argNat 4 * s.argNat 5 = (s.pbdArg 7).cap + 1) ∧
    ∃ s : State, (∀ k : Fin 8, k.val < 4 → s.RegionIn (s.argNat k) (s.argNat 4 * s.argNat 5)) ∧ s.OutputPbd 7 ∧
      2 * s.argNat 4 * s.argNat 5 ≤ (s.pbdArg 7).cap ∧ ¬s.NoOverlap (.pack565 0#5 10#5) :=
  ⟨by decide, by decide,
    ⟨pend 0x0A000021 [0x400, 0x400, 0x400, 0x410, 2, 2, 0x20, 0x120] (pbd 0x120 0x300 0 0 8), by decide +kernel⟩,
    ⟨pend 0x0A000021 [0x400, 0x400, 0x400, 0xFFFFD, 2, 2] [], by decide +kernel⟩,
    ⟨pend 0x0A000021 [0x400, 0x400, 0x400, 0x410, 2, 2, 0x20, 0x120] (pbd 0x120 0x300 0 0 7), by decide +kernel⟩,
    pend 0x0A000021 [0x400, 0x400, 0x400, 0x306, 2, 2, 0x20, 0x120] (pbd 0x120 0x300 0 0 8), by decide +kernel⟩

theorem witness_PackerLaws :
    (0x0020#16 : Pixel) ≠ 0#16 ∧ packPixel 0x0020#16 0 0 0 127 = 0#16 ∧ packPixel 0x0020#16 7 3 7 128 ≠ 0#16 := by decide

end Sys2Proof.Tests
end

section
/-! SUPPORT. The machine's invariant (00_scope.md R6; 10_state.md R38, R40, R44; 40_command.md R132): the reset state meets
it and every step keeps it. One lemma per operation that a step is made of: the two ends of a command, the resets, a
register access and an LM access. An operation that writes LM or the latch goes through `State.Inv.update`, any other
through `State.Inv.of_status`. -/

namespace Sys2Proof.Machine

/-! ### The invariant from its parts -/

/-- Nothing is reported while a command is pending (R38, R132). -/
def Status.PendingClear (st : Status) : Prop :=
  st.busy = true → st.done = false ∧ st.err = false ∧ st.trunc = false ∧ st.errcode = .none

theorem Status.PendingClear.of_idle {st : Status} (h : st.busy = false) : st.PendingClear := fun hb =>
  absurd hb (by simp [h])

theorem Status.pendingClear_accept (st : Status) : st.accept.PendingClear := fun _ => ⟨rfl, rfl, rfl, rfl⟩

theorem Status.PendingClear.overrun {st : Status} (h : st.PendingClear) : st.overrun.PendingClear := h

/-- A write-1-to-clear raises no flag (R36). -/
theorem Status.PendingClear.clear {st : Status} (h : st.PendingClear) (w : Word) : (st.clear w).PendingClear := by
  intro hb
  obtain ⟨hdone, herr, htrunc, hcode⟩ := h hb
  exact ⟨by simp [Status.clear, hdone], by simp [Status.clear, herr], by simp [Status.clear, htrunc], hcode⟩

/-- The invariant after an update of LM that stays canonical and inside MEM_SIZE, with the latch and STATUS as stated. -/
theorem State.Inv.update {s t : State} (h : s.Inv) (hparams : t.params = s.params) (hwf : t.lm.wf = true)
    (hwithin : t.lm.within s.params.memSize = true) (hlatched : t.lcmd = t.cmd) (hstatus : t.status.PendingClear) :
    t.Inv where
  params := hparams ▸ h.params
  canonical := hwf
  within := hparams ▸ hwithin
  latched := hlatched
  pending := hstatus

/-- The invariant after an update that leaves the parameters, LM, CMD and the latched word as they were. -/
theorem State.Inv.of_status {s t : State} (h : s.Inv) (hparams : t.params = s.params) (hlm : t.lm = s.lm)
    (hcmd : t.cmd = s.cmd) (hlcmd : t.lcmd = s.lcmd) (hstatus : t.status.PendingClear) : t.Inv :=
  h.update hparams (hlm ▸ h.canonical) (hlm ▸ h.within) (by rw [hlcmd, hcmd, h.latched]) hstatus

/-- The input that a step takes is no part of the invariant. -/
theorem State.Inv.take {s : State} (h : s.Inv) (rest : List Input) : ({ s with inputs := rest } : State).Inv :=
  h.of_status rfl rfl rfl rfl h.pending

/-! ### The Engine -/

/-- A command that succeeds writes bytes of LM only, and ends with nothing pending (R132, R138). -/
theorem State.Inv.succeed {s : State} (h : s.Inv) {i : Instr} {e : Effect} (he : Bounded i s e) : (s.succeed e).Inv :=
  h.update (by simp) (Memory.wf_writeAll h.canonical _) (Memory.within_writeAll h.within _ he.writes_lt)
    (by simpa using h.latched) (.of_idle (by simp))

/-- An error changes STATUS alone, and ends with nothing pending (R340). -/
theorem State.Inv.raiseError {s : State} (h : s.Inv) (c : ErrCode) : (s.raiseError c).Inv :=
  h.of_status rfl rfl rfl rfl (.of_idle rfl)

theorem exec_keeps_inv {i : Instr} {s t : State} (h : s.Inv) (he : exec i s = .next t) : t.Inv := by
  obtain ⟨e, ho, rfl⟩ | ⟨c, -, rfl⟩ := exec_cases he
  · exact h.succeed (outcome_bounded ho)
  · exact h.raiseError c

theorem engineStep_keeps_inv {s t : State} (h : s.Inv) (he : engineStep s = .next t) : t.Inv := by
  unfold engineStep at he
  split at he
  case h_1 i _ => exact exec_keeps_inv h he
  case h_2 =>
    cases he
    exact h.raiseError .illegalCmd

theorem engineTurn_keeps_inv {s t : State} (h : s.Inv) (he : engineTurn s = .next t) : t.Inv := by
  unfold engineTurn at he
  split at he
  case isTrue => exact engineStep_keeps_inv h he
  case isFalse =>
    cases he
    exact h

/-! ### Resets -/

/-- A soft reset clears the registers and the latch, and draws bytes of LM only (R381, R382). -/
theorem State.Inv.softReset {s : State} (h : s.Inv) : s.softReset.Inv := by
  have hlm : s.softReset.lm.wf = true ∧ s.softReset.lm.within s.params.memSize = true := by
    unfold State.softReset
    split
    · exact ⟨drawRegions_wf h.canonical .., drawRegions_within h.within ..⟩
    · exact ⟨h.canonical, h.within⟩
  exact h.update (by simp) hlm.1 hlm.2 (by simp) (.of_idle (by simp [Status.zero]))

/-- A power-on reset clears the registers and the latch, and draws every byte of LM (R380, R388). -/
theorem State.Inv.powerOnReset {s : State} (h : s.Inv) : s.powerOnReset.Inv :=
  h.update rfl (drawRange_wf h.canonical ..) (drawRange_within h.within (.inr (Nat.zero_add _).le) _) rfl (.of_idle rfl)

/-! ### The Host port -/

/-- A CMD write latches the word it stores, or is dropped and sets OVR alone (R38, R346). -/
theorem State.Inv.writeCmd {s : State} (h : s.Inv) (v : Word) : (writeCmd s v).Inv := by
  unfold Machine.writeCmd
  split
  · exact h.of_status rfl rfl rfl rfl (Status.PendingClear.overrun h.pending)
  · exact h.update rfl h.canonical h.within rfl (Status.pendingClear_accept _)

/-- A CTRL write is a soft reset or sets IE alone (R34). -/
theorem State.Inv.writeCtrl {s : State} (h : s.Inv) (v : Word) : (writeCtrl s v).Inv := by
  unfold Machine.writeCtrl
  split
  · exact h.softReset
  · exact h.of_status rfl rfl rfl rfl h.pending

theorem State.Inv.writeReg {s : State} (h : s.Inv) (v : Word) (r : Reg) : (writeReg s v r).Inv := by
  cases r with
  | ctrl => exact h.writeCtrl v
  | status => exact h.of_status rfl rfl rfl rfl (Status.PendingClear.clear h.pending v)
  | cmd => exact h.writeCmd v
  | arg i => exact h.of_status rfl rfl rfl rfl h.pending
  | id | res _ | memtop | reserved => exact h

/-- A Host write to LM stays inside the LM window (R75, R76). -/
theorem State.Inv.writeLm {s : State} (h : s.Inv) {a : Nat} {w : Width} (v : Nat)
    (ha : a + w.bytes ≤ s.params.memSize) :
    ({ s with lm := s.lm.writeAll (cellsLe a w.bytes v) } : State).Inv := by
  refine h.update rfl (Memory.wf_writeAll h.canonical _) (Memory.within_writeAll h.within _ fun c hc => ?_)
    h.latched h.pending
  have hcell := mem_cellsAt hc
  rw [length_leBytes] at hcell
  exact hcell.2.trans_le ha

/-- A Host read changes what it returned and the draws alone (R79, R82). -/
theorem hostRead_keeps_inv {s t : State} {addr : Nat} {w : Width} (h : s.Inv) (he : hostRead s addr w = .next t) :
    t.Inv := by
  unfold hostRead at he
  split at he
  case h_1 | h_2 =>
    cases he
    exact h.of_status rfl rfl rfl rfl h.pending
  case h_3 | h_4 => cases he

theorem hostWrite_keeps_inv {s t : State} {addr : Nat} {w : Width} {v : Word} (h : s.Inv)
    (he : hostWrite s addr w v = .next t) : t.Inv := by
  unfold hostWrite at he
  split at he
  case h_1 r _ =>
    cases he
    exact h.writeReg v r
  case h_2 a ht =>
    split at he
    · cases he
    · cases he
      exact h.writeLm v.toNat (target_eq_lm ht).2
  case h_3 | h_4 => cases he

/-! ### The step -/

theorem takeInput_keeps_inv {s t : State} {i : Input} (h : s.Inv) (he : takeInput s i = .next t) : t.Inv := by
  cases i with
  | engine => exact engineTurn_keeps_inv h he
  | read addr w => exact hostRead_keeps_inv h he
  | write addr w v => exact hostWrite_keeps_inv h he
  | powerOn =>
    cases he
    exact h.powerOnReset

theorem step_keeps_inv {s t : State} (h : s.Inv) (he : step s = .next t) : t.Inv := by
  unfold step advance at he
  split at he
  case h_1 => exact engineTurn_keeps_inv h he
  case h_2 i rest _ => exact takeInput_keeps_inv (h.take rest) he

theorem reset_inv : State.reset.Inv where
  params := by decide
  canonical := rfl
  within := rfl
  latched := rfl
  pending := Status.PendingClear.of_idle rfl

end Sys2Proof.Machine

open Sys2Proof.Machine

/-- Settles O20: each input, and the Engine's turn when none waits, keeps the invariant. -/
theorem stepKeepsInvariant : Obligations.StepKeepsInvariant := fun _ _ => step_keeps_inv

/-- Settles O19. -/
theorem resetMeetsInvariant : Obligations.ResetMeetsInvariant := reset_inv

end

section
/-! SUPPORT. The register block and the Host port (10_state.md R31 to R51, 60_exceptions.md R348, R349): the layout of STATUS,
one equation per register access, what a Host access, an Engine's turn and so a step can change, and all that a command
reads (R40, 40_command.md R131). -/

namespace Sys2Proof.Machine

/-! ### The STATUS word -/

/-- STATUS bit by bit (R35). -/
theorem Status.getLsbD_word (s : Status) (i : Nat) : s.word.getLsbD i =
    if i = 0 then s.busy else if i = 1 then s.done else if i = 2 then s.err else if i = 3 then s.trunc
    else if i = 4 then s.ovr else decide (8 ≤ i) && s.errcode.code.getLsbD (i - 8) := by
  show BitVec.getLsbD (w := 16 + 8 + 3 + 1 + 1 + 1 + 1 + 1) s.word i = _
  simp only [Status.word, BitVec.getLsbD_append, BitVec.getLsbD_ofBool, BitVec.getLsbD_zero]
  rcases i with _ | _ | _ | _ | _ | i
  · rfl
  · rfl
  · rfl
  · rfl
  · rfl
  · have hcode : 8 ≤ i - 3 → s.errcode.code.getLsbD (i - 3) = false := BitVec.getLsbD_of_ge _ _
    grind

/-- Above the flags there is ERRCODE alone. -/
theorem Status.getLsbD_word_high (s : Status) {i : Nat} (h : 5 ≤ i) :
    s.word.getLsbD i = (decide (8 ≤ i) && s.errcode.code.getLsbD (i - 8)) := by
  rw [Status.getLsbD_word]
  repeat rw [if_neg (by omega)]

theorem Status.word_reserved_low (s : Status) : s.word.extractLsb' 5 3 = 0#3 := by
  refine BitVec.eq_of_getLsbD_eq fun i hi => ?_
  rw [BitVec.getLsbD_extractLsb', Status.getLsbD_word_high s (by omega), decide_eq_false (by omega : ¬8 ≤ 5 + i)]
  simp

theorem Status.word_errcode (s : Status) : s.word.extractLsb' 8 8 = s.errcode.code := by
  refine BitVec.eq_of_getLsbD_eq fun i hi => ?_
  rw [BitVec.getLsbD_extractLsb', Status.getLsbD_word_high s (by omega)]
  simp [hi]

theorem Status.word_reserved_high (s : Status) : s.word.extractLsb' 16 16 = 0#16 := by
  refine BitVec.eq_of_getLsbD_eq fun i hi => ?_
  rw [BitVec.getLsbD_extractLsb', Status.getLsbD_word_high s (by omega), BitVec.getLsbD_of_ge _ _ (by omega)]
  simp

/-- A write-1-to-clear field by field (R36). -/
theorem Status.clear_eq (s : Status) (w : Word) : s.clear w = { s with
    done := if w.getLsbD 1 then false else s.done
    err := if w.getLsbD 2 then false else s.err
    trunc := if w.getLsbD 3 then false else s.trunc
    ovr := if w.getLsbD 4 then false else s.ovr } := by
  have hbit : ∀ b c : Bool, (b && !c) = if c then false else b := by decide
  simp only [Status.clear, hbit]

/-! ### One register access -/

theorem writeCtrl_ie (s : State) {v : Word} (h : v.getLsbD 0 = false) :
    writeCtrl s v = { s with ie := v.getLsbD 1 } := if_neg (Bool.eq_false_iff.mp h)

theorem writeCtrl_reset (s : State) {v : Word} (h : v.getLsbD 0 = true) : writeCtrl s v = s.softReset := if_pos h

theorem writeCmd_idle (s : State) (h : s.status.busy = false) (v : Word) : writeCmd s v = s.accept v :=
  if_neg (Bool.eq_false_iff.mp h)

theorem writeCmd_busy (s : State) (h : s.status.busy = true) (v : Word) :
    writeCmd s v = { s with status := s.status.overrun } := if_pos h

/-- The step that takes an aligned word read of register k. -/
theorem step_readReg {s : State} {addr k : Nat} {rest : List Input} (h : s.inputs = .read addr .word :: rest)
    (haddr : addr = s.params.regBase + 4 * k) (hk : k < 64) :
    step s = .next { s with inputs := rest, readData := readReg s (regAt k) } := by
  subst haddr
  rw [step_read h]
  -- The register read does not look at the input that the step takes.
  have hreg : readReg { s with inputs := rest } (regAt k) = readReg s (regAt k) := by cases regAt k <;> rfl
  exact hreg ▸ hostRead_reg { s with inputs := rest } hk

/-- The step that takes an aligned word write of register k. -/
theorem step_writeReg {s : State} {addr k : Nat} {v : Word} {rest : List Input}
    (h : s.inputs = .write addr .word v :: rest) (haddr : addr = s.params.regBase + 4 * k) (hk : k < 64) :
    step s = .next (writeReg { s with inputs := rest } v (regAt k)) := by
  subst haddr
  exact (step_write h).trans (hostWrite_reg { s with inputs := rest } v hk)

theorem step_writeCtrl {s : State} {v : Word} {rest : List Input}
    (h : s.inputs = .write (s.params.regBase + 0x04) .word v :: rest) :
    step s = .next (writeCtrl { s with inputs := rest } v) := step_writeReg (k := 1) h rfl (by decide)

theorem step_writeStatus {s : State} {v : Word} {rest : List Input}
    (h : s.inputs = .write (s.params.regBase + 0x08) .word v :: rest) :
    step s = .next (({ s with inputs := rest } : State).acknowledge v) := step_writeReg (k := 2) h rfl (by decide)

theorem step_writeCmd {s : State} {v : Word} {rest : List Input}
    (h : s.inputs = .write (s.params.regBase + 0x0C) .word v :: rest) :
    step s = .next (writeCmd { s with inputs := rest } v) := step_writeReg (k := 3) h rfl (by decide)

theorem step_writeCmd_idle {s : State} {v : Word} {rest : List Input}
    (h : s.inputs = .write (s.params.regBase + 0x0C) .word v :: rest) (hb : s.status.busy = false) :
    step s = .next (({ s with inputs := rest } : State).accept v) := by
  rw [step_writeCmd h, writeCmd_idle]
  exact hb

theorem step_writeCmd_busy {s : State} {v : Word} {rest : List Input}
    (h : s.inputs = .write (s.params.regBase + 0x0C) .word v :: rest) (hb : s.status.busy = true) :
    step s = .next { s with inputs := rest, status := s.status.overrun } := by
  rw [step_writeCmd h, writeCmd_busy]
  exact hb

/-! ### What a register write changes -/

theorem regAt_eq_ctrl {k : Nat} (h : regAt k = .ctrl) : k = 1 := by simpa [h] using regAt_cases k

theorem regAt_eq_cmd {k : Nat} (h : regAt k = .cmd) : k = 3 := by simpa [h] using regAt_cases k

theorem regAt_eq_arg {k : Nat} {i : Fin 8} (h : regAt k = .arg i) : k = 4 + i := by simpa [h] using regAt_cases k

/-- A CTRL write is a soft reset or sets IE alone (R34). -/
theorem writeCtrl_cases (s : State) (v : Word) :
    (v.getLsbD 0 = true ∧ writeCtrl s v = s.softReset) ∨ writeCtrl s v = { s with ie := v.getLsbD 1 } := by
  cases h : v.getLsbD 0 with
  | true => exact .inl ⟨rfl, writeCtrl_reset s h⟩
  | false => exact .inr (writeCtrl_ie s h)

/-- A CMD write sets OVR alone or accepts the command (R38). -/
theorem writeCmd_cases (s : State) (v : Word) :
    writeCmd s v = { s with status := s.status.overrun } ∨ writeCmd s v = s.accept v := by
  cases h : s.status.busy with
  | true => exact .inl (writeCmd_busy s h v)
  | false => exact .inr (writeCmd_idle s h v)

@[simp] theorem writeReg_params (s : State) (v : Word) (r : Reg) : (writeReg s v r).params = s.params := by
  cases r with
  | ctrl => rcases writeCtrl_cases s v with ⟨-, h⟩ | h <;> simp [writeReg, h]
  | cmd => rcases writeCmd_cases s v with h | h <;> simp [writeReg, h]
  | id | status | arg _ | res _ | memtop | reserved => rfl

theorem writeReg_ie (s : State) (v : Word) (r : Reg) : (writeReg s v r).ie = s.ie ∨ r = .ctrl := by
  cases r with
  | ctrl => exact .inr rfl
  | cmd => rcases writeCmd_cases s v with h | h <;> simp [writeReg, h]
  | id | status | arg _ | res _ | memtop | reserved => exact .inl rfl

theorem writeReg_arg (s : State) (v : Word) (r : Reg) :
    (writeReg s v r).arg = s.arg ∨ (∃ i, r = .arg i) ∨ (r = .ctrl ∧ v.getLsbD 0 = true) := by
  cases r with
  | ctrl =>
    obtain ⟨hv, -⟩ | h := writeCtrl_cases s v
    · exact .inr (.inr ⟨rfl, hv⟩)
    · exact .inl (by rw [writeReg, h])
  | cmd => rcases writeCmd_cases s v with h | h <;> simp [writeReg, h]
  | arg i => exact .inr (.inl ⟨i, rfl⟩)
  | id | status | res _ | memtop | reserved => exact .inl rfl

theorem writeReg_cmd (s : State) (v : Word) (r : Reg) :
    (writeReg s v r).cmd = s.cmd ∨ (r = .cmd ∧ (writeReg s v r).cmd = v) ∨ (r = .ctrl ∧ v.getLsbD 0 = true) := by
  cases r with
  | ctrl =>
    obtain ⟨hv, -⟩ | h := writeCtrl_cases s v
    · exact .inr (.inr ⟨rfl, hv⟩)
    · exact .inl (by rw [writeReg, h])
  | cmd => rcases writeCmd_cases s v with h | h <;> simp [writeReg, h]
  | id | status | arg _ | res _ | memtop | reserved => exact .inl rfl

theorem writeReg_res (s : State) (v : Word) (r : Reg) :
    (writeReg s v r).res = s.res ∨ (r = .ctrl ∧ v.getLsbD 0 = true) := by
  cases r with
  | ctrl =>
    obtain ⟨hv, -⟩ | h := writeCtrl_cases s v
    · exact .inr ⟨rfl, hv⟩
    · exact .inl (by rw [writeReg, h])
  | cmd => rcases writeCmd_cases s v with h | h <;> simp [writeReg, h]
  | id | status | arg _ | res _ | memtop | reserved => exact .inl rfl

/-! ### What a Host access and an Engine's turn change -/

theorem hostRead_cases {s t : State} {addr : Nat} {w : Width} (h : hostRead s addr w = .next t) :
    ∃ v n, t = { s with readData := v, draws := n } := by
  unfold hostRead at h
  split at h
  case h_1 => exact ⟨_, s.draws, (Host.Outcome.next.inj h).symm⟩
  case h_2 => exact ⟨_, _, (Host.Outcome.next.inj h).symm⟩
  case h_3 | h_4 => cases h

theorem hostWrite_cases {s t : State} {addr : Nat} {w : Width} {v : Word} (h : hostWrite s addr w v = .next t) :
    (∃ k, w = .word ∧ addr = s.params.regBase + 4 * k ∧ t = writeReg s v (regAt k)) ∨
      ∃ lm, t = { s with lm := lm } := by
  unfold hostWrite at h
  split at h
  case h_1 r hr =>
    obtain ⟨hw, k, -, haddr, rfl⟩ := target_eq_reg hr
    exact .inl ⟨k, (Width.bytes_eq_four w).mp hw, haddr, (Host.Outcome.next.inj h).symm⟩
  case h_2 =>
    split at h
    · cases h
    · exact .inr ⟨_, (Host.Outcome.next.inj h).symm⟩
  case h_3 | h_4 => cases h

/-- An Engine's turn completes the pending command, or there is none and nothing changes (R131). -/
theorem engineTurn_cases {s t : State} (h : engineTurn s = .next t) : t = s ∨ ∃ o, t = s.complete o := by
  unfold engineTurn engineStep at h
  split at h
  · split at h
    · rw [exec_eq] at h
      exact .inr ⟨_, (Host.Outcome.next.inj h).symm⟩
    · exact .inr ⟨.error .illegalCmd, (Host.Outcome.next.inj h).symm⟩
  · exact .inl (Host.Outcome.next.inj h).symm

/-! ### The registers that are the Host's -/

/-- The parameters and the registers that only the Host writes are in `t` as in `s` (R31, R39, R42). -/
structure HostRegistersKept (s t : State) : Prop where
  params : t.params = s.params
  ie : t.ie = s.ie
  arg : t.arg = s.arg
  cmd : t.cmd = s.cmd

theorem complete_keeps_hostRegisters (s : State) (o : CmdOutcome) : HostRegistersKept s (s.complete o) := by
  rw [complete_frame]
  exact ⟨rfl, rfl, rfl, rfl⟩

theorem engineTurn_keeps_hostRegisters {s t : State} (h : engineTurn s = .next t) : HostRegistersKept s t := by
  obtain rfl | ⟨o, rfl⟩ := engineTurn_cases h
  · exact ⟨rfl, rfl, rfl, rfl⟩
  · exact complete_keeps_hostRegisters s o

theorem hostRead_keeps_hostRegisters {s t : State} {addr : Nat} {w : Width} (h : hostRead s addr w = .next t) :
    HostRegistersKept s t := by
  obtain ⟨v, n, rfl⟩ := hostRead_cases h
  exact ⟨rfl, rfl, rfl, rfl⟩

/-- The input that a step takes is none of these registers. -/
theorem HostRegistersKept.of_take {s t : State} {rest : List Input}
    (h : HostRegistersKept { s with inputs := rest } t) : HostRegistersKept s t := ⟨h.params, h.ie, h.arg, h.cmd⟩

/-- The only steps that may change one of these registers are a register write and a power-on reset. -/
theorem step_hostRegisters {s t : State} (h : step s = .next t) : HostRegistersKept s t ∨
    (∃ k v rest, s.inputs = .write (s.params.regBase + 4 * k) .word v :: rest ∧
      t = writeReg { s with inputs := rest } v (regAt k)) ∨
    ∃ rest, s.inputs = .powerOn :: rest ∧ t = ({ s with inputs := rest } : State).powerOnReset := by
  cases hin : s.inputs with
  | nil => exact .inl (engineTurn_keeps_hostRegisters (step_idle hin ▸ h))
  | cons i rest =>
    cases i with
    | engine => exact .inl (engineTurn_keeps_hostRegisters (step_engine hin ▸ h)).of_take
    | read addr w => exact .inl (hostRead_keeps_hostRegisters (step_read hin ▸ h)).of_take
    | powerOn => exact .inr (.inr ⟨rest, rfl, (Host.Outcome.next.inj (step_powerOn hin ▸ h)).symm⟩)
    | write addr w v =>
      obtain ⟨k, rfl, rfl, rfl⟩ | ⟨lm, rfl⟩ := hostWrite_cases (step_write hin ▸ h)
      · exact .inr (.inl ⟨k, v, rest, rfl, rfl⟩)
      · exact .inl ⟨rfl, rfl, rfl, rfl⟩

/-! ### IRQ -/

/-- Completion raises DONE (R349), so IRQ is IE. -/
@[simp] theorem complete_irq (s : State) (o : CmdOutcome) : (s.complete o).irq = s.ie := by
  cases o with
  | ok e => simp [State.complete, State.irq]
  | error c => simp [State.complete, State.irq]

@[simp] theorem softReset_irq (s : State) : s.softReset.irq = false := by simp [State.irq, Status.zero]

@[simp] theorem accept_irq (s : State) (w : Word) : (s.accept w).irq = false := by simp [State.irq, Status.accept]

theorem acknowledge_irq (s : State) {w : Word} (h : w.getLsbD 1 = true) : (s.acknowledge w).irq = false := by
  simp [State.irq, Status.clear_eq, h]

/-! ### What a command reads -/

/-- The part of a state that a command reads, all else at its reset value (R40, R131). -/
def State.latchedPart (s : State) : State :=
  { State.reset with params := s.params, larg := s.larg, lm := s.lm, draws := s.draws }

theorem State.latchedPart_congr {s s' : State} (hlarg : s'.larg = s.larg) (hlm : s'.lm = s.lm)
    (hparams : s'.params = s.params) (hdraws : s'.draws = s.draws) : s'.latchedPart = s.latchedPart := by
  simp only [latchedPart, hlarg, hlm, hparams, hdraws]

theorem checkPbdBodies_latchedPart (s : State) (d n : Nat) :
    checkPbdBodies s.latchedPart d n = checkPbdBodies s d n := by
  induction n generalizing d with
  | zero => rfl
  | succ n ih =>
    simp only [checkPbdBodies, ih]
    rfl

theorem checkPbdArray_latchedPart (s : State) (d n : Nat) :
    checkPbdArray s.latchedPart d n = checkPbdArray s d n := by
  simp only [checkPbdArray, checkPbdBodies_latchedPart]
  rfl

theorem encoderFrames_latchedPart (s : State) : encoderFrames s.latchedPart = encoderFrames s := by
  simp only [encoderFrames, checkPbdArray_latchedPart]
  rfl

/-- A command's outcome is computed from the latched part alone. The checks of an array recurse over its descriptors; every
other operand is read where it stands. -/
theorem outcome_latchedPart (s : State) (i : Instr) : outcome s.latchedPart i = outcome s i := by
  cases i with
  | encS16 =>
    simp only [outcome, encS16Outcome, encoderFrames_latchedPart]
    rfl
  | encC16 =>
    simp only [outcome, encC16Outcome, encoderFrames_latchedPart]
    rfl
  | blkStitch =>
    simp only [outcome, blkStitchOutcome, checkPbdArray_latchedPart]
    rfl
  | _ => rfl

end Sys2Proof.Machine

open Sys2Proof Sys2Proof.Machine

/-- Settles O15: the step of each register write in turn, and the IRQ of the state that it leaves. -/
theorem irqFollowsEnableAndDone : Obligations.IrqFollowsEnableAndDone := by
  refine ⟨fun s => by simp [State.irq], rfl, fun i s t h => ?_, fun s w rest => ⟨fun h h0 => ?_, fun h h0 => ?_,
    fun h h1 => ?_, fun h hb => ?_⟩⟩
  · rw [exec_eq] at h
    cases h
    exact complete_irq ..
  · exact ⟨_, (step_writeCtrl h).trans (congrArg _ (writeCtrl_ie _ h0)), rfl, rfl⟩
  · exact ⟨_, (step_writeCtrl h).trans (congrArg _ (writeCtrl_reset _ h0)), softReset_irq _⟩
  · exact ⟨_, step_writeStatus h, acknowledge_irq _ h1⟩
  · exact ⟨_, step_writeCmd_idle h hb, accept_irq ..⟩

/-- Settles O17: of the two steps that may change one of these registers, a register write names the register by its
offset. -/
theorem hostRegistersChangeOnlyByHost : Obligations.HostRegistersChangeOnlyByHost := by
  intro s t h
  obtain ⟨hparams, hie, harg, hcmd⟩ | ⟨k, v, rest, hin, rfl⟩ | ⟨rest, hin, rfl⟩ := step_hostRegisters h
  · exact ⟨hparams, .inl hie, .inl harg, .inl hcmd⟩
  · have hctrl (hr : regAt k = .ctrl) : s.inputs = .write (s.params.regBase + 0x04) .word v :: rest := by
      rw [hin, regAt_eq_ctrl hr]
    refine ⟨writeReg_params .., (writeReg_ie _ v (regAt k)).imp id fun hr => .inl ⟨v, rest, hctrl hr⟩,
      (writeReg_arg _ v (regAt k)).imp id (Or.imp ?_ ?_), (writeReg_cmd _ v (regAt k)).imp id (Or.imp ?_ ?_)⟩
    · rintro ⟨i, hr⟩
      have hk := regAt_eq_arg hr
      exact ⟨k, v, rest, by omega, by omega, hin⟩
    · exact fun ⟨hr, hv⟩ => .inl ⟨v, rest, hctrl hr, hv⟩
    · rintro ⟨hr, hv⟩
      exact ⟨rest, by rw [hv, hin, regAt_eq_cmd hr]⟩
    · exact fun ⟨hr, hv⟩ => .inl ⟨v, rest, hctrl hr, hv⟩
  · exact ⟨rfl, .inr (.inr ⟨rest, hin⟩), .inr (.inr (.inr ⟨rest, hin⟩)), .inr (.inr (.inr ⟨rest, hin⟩))⟩

/-- Settles O23: a success sets only the results that its bound names, an error none; of the Host accesses only a CTRL
write with SRST = 1 reaches RES. -/
theorem onlyNamedResultsChange : Obligations.OnlyNamedResultsChange := by
  refine ⟨fun i s t k h hk => ?_, fun s t addr wd rest hin h => ?_, fun s t addr wd v rest hin h => ?_⟩
  · obtain ⟨e, -, rfl, hcode, hbound⟩ | ⟨c, -, rfl, -, -⟩ := exec_inv h
    · have hnamed : k ∉ i.namedResults := hk.resolve_right fun hne => hne hcode
      exact State.succeed_res_other s e k fun r hr hrk => hnamed (hrk ▸ hbound.results r hr)
    · rfl
  · rw [step_read hin] at h
    obtain ⟨_, _, rfl⟩ := hostRead_cases h
    rfl
  · rw [step_write hin] at h
    obtain ⟨k, -, haddr, rfl⟩ | ⟨_, rfl⟩ := hostWrite_cases h
    · refine (writeReg_res _ v (regAt k)).imp id fun ⟨hctrl, hv⟩ => ⟨?_, hv⟩
      rw [haddr, regAt_eq_ctrl hctrl]
    · exact .inl rfl

/-- Settles O25: an outcome is computed from the latched part, which the two states share. -/
theorem commandReadsOnlyLatchedState : Obligations.CommandReadsOnlyLatchedState := by
  intro i s s' hlarg hlm hparams hdraws
  have hout : outcome s' i = outcome s i := by
    rw [← outcome_latchedPart s', State.latchedPart_congr hlarg hlm hparams hdraws, outcome_latchedPart]
  exact ⟨outcome s i, exec_eq i s, hout ▸ exec_eq i s'⟩

/-- Settles O7: the two branches of a CMD write. -/
theorem cmdWriteIssuesOrOverruns : Obligations.CmdWriteIssuesOrOverruns := fun _ _ _ h =>
  ⟨step_writeCmd_idle h, step_writeCmd_busy h⟩

/-- Settles O8: the write field by field, and the read from the STATUS word bit by bit. -/
theorem statusReadAndWriteOneToClear : Obligations.StatusReadAndWriteOneToClear := by
  refine ⟨fun s w rest h => ?_, fun s rest h => ⟨s.status.word, step_readReg (k := 2) h rfl (by decide), ?_⟩⟩
  · rw [step_writeStatus h, State.acknowledge, Status.clear_eq]
  · refine ⟨?_, ?_, ?_, ?_, ?_, s.status.word_reserved_low, s.status.word_errcode, s.status.word_reserved_high⟩ <;>
      rw [Status.getLsbD_word] <;> rfl

/-- Settles O9: each offset names a register that reads a constant or CMD; those that ignore writes are ID at word index 0,
MEMTOP at 16 and the reserved ones from 17. -/
theorem fixedRegistersReadConstants : Obligations.FixedRegistersReadConstants := by
  refine fun s rest => ⟨fun h => step_readReg (k := 0) h rfl (by decide), fun h => step_readReg (k := 3) h rfl (by decide),
    fun h => step_readReg (k := 16) h rfl (by decide), fun k h17 h63 h => ?_, fun k w hk h => ?_⟩
  · rw [step_readReg h rfl (by omega), regAt_reserved h17, readReg]
  · rw [step_writeReg h rfl (by omega)]
    obtain rfl | rfl | h17 : k = 0 ∨ k = 16 ∨ 17 ≤ k := by omega
    · rfl
    · rfl
    · rw [regAt_reserved h17, writeReg]

/-- Settles O10: the ARG registers stand at word indices 4 to 11 and the RES registers at 12 to 15. -/
theorem argumentAndResultRegisters : Obligations.ArgumentAndResultRegisters := by
  refine fun s w rest => ⟨fun i h => ?_, fun i h => ?_, fun i h => ?_, fun i h => ?_⟩
  · rw [step_writeReg (k := 4 + i) h (by omega) (by omega), regAt_arg, writeReg]
  · rw [step_readReg (k := 4 + i) h (by omega) (by omega), regAt_arg, readReg]
  · rw [step_writeReg (k := 12 + i) h (by omega) (by omega), regAt_res, writeReg]
  · rw [step_readReg (k := 12 + i) h (by omega) (by omega), regAt_res, readReg]

end

section
/-! SUPPORT. Host accesses to the LM window (20_memory.md R75, R76, R82): byte by byte what a read returns and how many draws
it takes, the step of each access, and the accesses to the register block that are refused. -/

namespace Sys2Proof.Machine

/-! ### A Host read byte by byte -/

/-- A Host read of LM address a returns a drawn byte (R82). -/
def readsDrawn (s : State) (a : Nat) : Bool := s.status.busy && inPendingDestination s a

/-- The byte a Host read returns for LM address a when k draws were taken before it (R82). -/
def hostByte (s : State) (a k : Nat) : Byte := if readsDrawn s a then Config.drawByte k else s.lm.read a

/-- A read is its first byte, which may take a draw, and the rest above it. -/
theorem hostBytes_succ (s : State) (a n k : Nat) :
    hostBytes s a (n + 1) k =
      ((hostByte s a k).toNat + 256 * (hostBytes s (a + 1) n (k + (readsDrawn s a).toNat)).1,
        (hostBytes s (a + 1) n (k + (readsDrawn s a).toNat)).2) := by
  rw [hostBytes, hostByte, readsDrawn]
  cases s.status.busy && inPendingDestination s a <;> rfl

/-- Byte j of a read, with the draws of the bytes before it taken. -/
theorem hostBytes_byte (s : State) {a n j : Nat} (k : Nat) (hj : j < n) :
    BitVec.ofNat 8 ((hostBytes s a n k).1 / 256 ^ j) = hostByte s (a + j) (hostBytes s a j k).2 := by
  induction n generalizing a j k with
  | zero => omega
  | succ n ih =>
    rw [hostBytes_succ]
    cases j with
    | zero =>
      refine BitVec.eq_of_toNat_eq ?_
      have hbyte := (hostByte s a k).isLt
      simp only [pow_zero, Nat.div_one, BitVec.toNat_ofNat, Nat.add_zero, hostBytes]
      omega
    | succ j =>
      have hbyte := (hostByte s a k).isLt
      rw [pow_succ', ← Nat.div_div_eq_div_mul, Nat.add_mul_div_left _ _ (by decide), Nat.div_eq_of_lt hbyte,
        Nat.zero_add, ih _ (by omega), hostBytes_succ, Nat.add_right_comm, Nat.add_assoc]

/-- One more byte takes one more draw if it is drawn. -/
theorem hostBytes_draws_succ (s : State) (a n k : Nat) :
    (hostBytes s a (n + 1) k).2 = (hostBytes s a n k).2 + (readsDrawn s (a + n)).toNat := by
  induction n generalizing a k with
  | zero => rw [hostBytes_succ]; rfl
  | succ n ih => rw [hostBytes_succ, ih, hostBytes_succ, Nat.add_right_comm, Nat.add_assoc]

theorem hostBytes_draws_mono (s : State) (a k : Nat) : Monotone fun n => (hostBytes s a n k).2 :=
  monotone_nat_of_le_succ fun n => by
    rw [hostBytes_draws_succ]
    exact Nat.le_add_right ..

/-- A drawn byte takes a draw that no later byte takes. -/
theorem hostBytes_draws_lt {s : State} {a n j k : Nat} (hd : readsDrawn s (a + j) = true) (hj : j < n) :
    (hostBytes s a j k).2 < (hostBytes s a n k).2 := by
  calc (hostBytes s a j k).2 < (hostBytes s a (j + 1) k).2 := by
        rw [hostBytes_draws_succ, hd]
        exact Nat.lt_succ_self _
    _ ≤ (hostBytes s a n k).2 := hostBytes_draws_mono s a k hj

/-- Byte j of a number stored in a register. -/
theorem toWord_byte (x : Nat) {j : Nat} (hj : j < 4) :
    (toWord x).extractLsb' (8 * j) 8 = BitVec.ofNat 8 (x / 256 ^ j) := by
  refine BitVec.eq_of_toNat_eq ?_
  rw [BitVec.extractLsb'_toNat, toWord, BitVec.toNat_ofNat, BitVec.toNat_ofNat, Nat.shiftRight_eq_div_pow, pow_mul]
  interval_cases j <;> omega

theorem Width.bytes_le_four (w : Width) : w.bytes ≤ 4 := by cases w <;> decide

/-! ### Accesses to the LM window -/

theorem hostRead_lm {s : State} (hp : s.params.wf = true) {a : Nat} {w : Width} (h : a + w.bytes ≤ s.params.memSize) :
    hostRead s (s.params.lmBase + a) w = .next { s with
      readData := toWord (hostBytes s a w.bytes s.draws).1, draws := (hostBytes s a w.bytes s.draws).2 } := by
  rw [hostRead, target_lm hp h]

theorem hostWrite_lm {s : State} (hp : s.params.wf = true) {a : Nat} {w : Width} (v : Word)
    (h : a + w.bytes ≤ s.params.memSize) : hostWrite s (s.params.lmBase + a) w v =
      if s.status.busy then .fault .hostWriteWhileBusy
      else .next { s with lm := s.lm.writeAll (cellsLe a w.bytes v.toNat) } := by
  rw [hostWrite, target_lm hp h]

/-- The input that a step takes is no part of what the pending command's destinations are computed from. -/
theorem inPendingDestination_take (s : State) (rest : List Input) :
    inPendingDestination { s with inputs := rest } = inPendingDestination s := rfl

theorem hostBytes_take (s : State) (rest : List Input) (a n k : Nat) :
    hostBytes { s with inputs := rest } a n k = hostBytes s a n k := by
  induction n generalizing a k with
  | zero => rfl
  | succ n ih => simp only [hostBytes, ih, inPendingDestination_take]

/-- The step that takes a Host read of the LM window. -/
theorem step_readLm {s : State} {a : Nat} {w : Width} {rest : List Input}
    (h : s.inputs = .read (s.params.lmBase + a) w :: rest) (hp : s.params.wf = true)
    (ha : a + w.bytes ≤ s.params.memSize) : step s = .next { s with
      inputs := rest, readData := toWord (hostBytes s a w.bytes s.draws).1
      draws := (hostBytes s a w.bytes s.draws).2 } := by
  rw [step_read h, hostRead_lm (s := { s with inputs := rest }) hp ha, hostBytes_take]

/-- The step that takes a Host write of the LM window while no command is pending. -/
theorem step_writeLm_idle {s : State} {a : Nat} {w : Width} {v : Word} {rest : List Input}
    (h : s.inputs = .write (s.params.lmBase + a) w v :: rest) (hp : s.params.wf = true)
    (ha : a + w.bytes ≤ s.params.memSize) (hb : s.status.busy = false) :
    step s = .next { s with inputs := rest, lm := s.lm.writeAll (cellsLe a w.bytes v.toNat) } := by
  rw [step_write h, hostWrite_lm (s := { s with inputs := rest }) hp v ha, if_neg (Bool.eq_false_iff.mp hb)]

/-- The step that takes a Host write of the LM window while a command is pending. -/
theorem step_writeLm_busy {s : State} {a : Nat} {w : Width} {v : Word} {rest : List Input}
    (h : s.inputs = .write (s.params.lmBase + a) w v :: rest) (hp : s.params.wf = true)
    (ha : a + w.bytes ≤ s.params.memSize) (hb : s.status.busy = true) : step s = .fault .hostWriteWhileBusy := by
  rw [step_write h, hostWrite_lm (s := { s with inputs := rest }) hp v ha, if_pos hb]

/-- An access to the register block that is not an aligned word has no target (R75). -/
theorem target_badRegister {p : Params} {addr : Nat} {w : Width} (h1 : p.regBase ≤ addr) (h2 : addr < p.regBase + 256)
    (hw : ¬(w = .word ∧ (addr - p.regBase) % 4 = 0)) : target p addr w.bytes = .badRegister := by
  have hpos := w.bytes_pos
  rw [target, if_pos (by omega), if_neg fun h => hw ⟨w.bytes_eq_four.mp h.1, h.2.2⟩]

end Sys2Proof.Machine

open Sys2Proof Sys2Proof.Machine

/-- Settles O13: byte j of a read takes the draw that follows those of the bytes before it, which the drawn bytes after it
have moved past. -/
theorem hostAccessWhileCommandPending : Obligations.HostAccessWhileCommandPending := by
  refine fun s rest hb hp => ⟨fun a wd v ha h => step_writeLm_busy h hp ha hb, fun a wd ha h => ?_,
    fun k hk h => ⟨_, step_readReg h rfl hk⟩, fun k v hk h => ⟨_, step_writeReg h rfl hk⟩⟩
  have hdrawn (j : Nat) : readsDrawn s (a + j) = inPendingDestination s (a + j) := by rw [readsDrawn, hb, Bool.true_and]
  have hbyte {j : Nat} (hj : j < wd.bytes) : (toWord (hostBytes s a wd.bytes s.draws).1).extractLsb' (8 * j) 8 =
      hostByte s (a + j) (hostBytes s a j s.draws).2 := by
    rw [toWord_byte _ (hj.trans_le wd.bytes_le_four), hostBytes_byte _ _ hj]
  refine ⟨_, _, fun j => (hostBytes s a j s.draws).2, step_readLm h hp ha, fun j hj => ⟨fun hd => ?_, fun hd => ?_⟩,
    fun j _ l _ hdj hdl hjl => ?_⟩
  · rw [hbyte hj, hostByte, hdrawn, hd]
    rfl
  · refine ⟨hostBytes_draws_mono s a s.draws (Nat.zero_le j), hostBytes_draws_lt (hdrawn j ▸ hd) hj, ?_⟩
    rw [hbyte hj, hostByte, hdrawn, hd]
    rfl
  · rcases Nat.lt_trichotomy j l with hlt | heq | hlt
    · exact absurd hjl (hostBytes_draws_lt (hdrawn j ▸ hdj) hlt).ne
    · exact heq
    · exact absurd hjl (hostBytes_draws_lt (hdrawn l ▸ hdl) hlt).ne'

/-- Settles O14: the refused accesses by their target, and an access to the LM window by its little-endian bytes. -/
theorem hostAccessWidthsAndByteOrder : Obligations.HostAccessWidthsAndByteOrder := by
  refine ⟨fun s addr wd v rest h1 h2 hw => ⟨fun h => ?_, fun h => ?_⟩,
    fun s a wd rest hp hb hm ha => ⟨fun v h => ⟨_, step_writeLm_idle h hp ha hb, Memory.readLe_writeLe hm .., ?_⟩,
      fun h => ⟨toWord (s.lm.readLe a wd.bytes), ?_, ?_⟩⟩⟩
  · rw [step_read h, hostRead, target_badRegister h1 h2 hw]
  · rw [step_write h, hostWrite, target_badRegister h1 h2 hw]
  · have hframe := (wroteBytes_writeAll hm a (leBytes wd.bytes v.toNat)).2
    rwa [length_leBytes] at hframe
  · rw [step_readLm h hp ha, hostBytes_idle hb]
  · have hlt := s.lm.readLe_lt a wd.bytes
    have hword : 256 ^ wd.bytes ∣ 2 ^ 32 := pow_dvd_pow 256 wd.bytes_le_four
    rw [toWord, BitVec.toNat_ofNat, Nat.mod_mod_of_dvd _ hword, Nat.mod_eq_of_lt hlt]

end

section
/-! SUPPORT. The region table of the commands (40_command.md R138) and their operand checks (R134 step 2): the entries of a
descriptor operand and of an array, and what a command's first operand check decides. -/

namespace Sys2Proof.Machine

/-! ### Region lists -/

/-- The condition of R87. -/
theorem RegionEntry.conflicts_iff (e f : RegionEntry) : e.conflicts f = true ↔
    (1 ≤ e.region.size ∧ 1 ≤ f.region.size ∧ e.region.start < f.region.start + f.region.size ∧
      f.region.start < e.region.start + e.region.size) ∧ (e.use ≠ .read ∨ f.use ≠ .read) := by
  simp only [RegionEntry.conflicts, RegionEntry.writes, Region.overlaps, Bool.and_eq_true, Bool.or_eq_true,
    decide_eq_true_eq, and_assoc]
  tauto

/-- The entries of a descriptor operand that lies in LM. -/
theorem pbdEntries_eq {s : State} {k : Fin 8} (h : s.argNat k + 16 ≤ s.params.memSize) (du su : RegionUse) :
    s.pbdEntries k du su = [⟨du, ⟨s.argNat k, 16⟩⟩, ⟨su, ⟨(s.pbdArg k).base, (s.pbdArg k).cap⟩⟩] := by
  rw [State.pbdEntries, storageAt_arg h]
  rfl

/-- The entries of an output descriptor, the storage first. -/
theorem pbdEntries_output_perm {s : State} {k : Fin 8} (h : s.argNat k + 16 ≤ s.params.memSize) :
    (s.pbdEntries k .update .write).Perm
      [⟨.write, ⟨(s.pbdArg k).base, (s.pbdArg k).cap⟩⟩, ⟨.update, ⟨s.argNat k, 16⟩⟩] := by
  rw [pbdEntries_eq h]
  exact .swap ..

/-- The storage entries of an array that lies in LM. -/
theorem arrayStorage_eq {s : State} {n : Nat} (h : s.RegionIn (s.argNat 0) (16 * n)) :
    s.arrayStorage (s.argNat 0) n =
      ((List.range n).map fun j => (⟨(s.arrayPbd j).base, (s.arrayPbd j).cap⟩ : Region)).map (RegionEntry.mk .read) := by
  rw [State.arrayStorage, List.map_map]
  refine List.map_congr_left fun j hj => ?_
  have hj := List.mem_range.mp hj
  rw [State.storageAt, if_pos (by omega)]
  rfl

/-- The regions of a command that decodes its input stream into the output descriptor at ARG3. -/
theorem hasRegions_decoder {s : State} {i : Instr}
    (hi : regionEntries s i = s.streamEntry :: s.pbdEntries 3 .update .write)
    (h3 : s.argNat 3 + 16 ≤ s.params.memSize) :
    s.hasRegions i [⟨s.argNat 0, s.argNat 1⟩] [⟨(s.pbdArg 3).base, (s.pbdArg 3).cap⟩] [⟨s.argNat 3, 16⟩] := by
  rw [State.hasRegions, hi]
  exact (pbdEntries_output_perm h3).cons _

/-- The regions of a command that encodes the array at ARG0 into the output bytes. -/
theorem hasRegions_encoder {s : State} {i : Instr} {n : Nat}
    (hi : regionEntries s i = ⟨.read, ⟨s.argNat 0, 16 * n⟩⟩ :: s.outputEntry :: s.arrayStorage (s.argNat 0) n)
    (harr : s.RegionIn (s.argNat 0) (16 * n)) :
    s.hasRegions i (⟨s.argNat 0, 16 * n⟩ ::
        (List.range n).map fun j => (⟨(s.arrayPbd j).base, (s.arrayPbd j).cap⟩ : Region))
      [⟨s.argNat 2, s.argNat 3⟩] [] := by
  rw [State.hasRegions, hi, arrayStorage_eq harr, List.map_nil, List.append_nil]
  exact (List.perm_append_singleton s.outputEntry _).symm.cons _

/-- The regions of a command from the input descriptor at ARG0 to the output descriptor at ARG5. -/
theorem hasRegions_output {s : State} {i : Instr}
    (hi : regionEntries s i = s.pbdEntries 0 .read .read ++ s.pbdEntries 5 .update .write)
    (h0 : s.argNat 0 + 16 ≤ s.params.memSize) (h5 : s.argNat 5 + 16 ≤ s.params.memSize) :
    s.hasRegions i [⟨s.argNat 0, 16⟩, ⟨(s.pbdArg 0).base, (s.pbdArg 0).cap⟩]
      [⟨(s.pbdArg 5).base, (s.pbdArg 5).cap⟩] [⟨s.argNat 5, 16⟩] := by
  rw [State.hasRegions, hi, pbdEntries_eq h0]
  exact (pbdEntries_output_perm h5).append_left [_, _]

/-- The regions of a command from the descriptor at ARG0 into the storage of the one at ARG5. -/
theorem hasRegions_inPlace {s : State} {i : Instr}
    (hi : regionEntries s i = s.pbdEntries 0 .read .read ++ s.pbdEntries 5 .read .update)
    (h0 : s.argNat 0 + 16 ≤ s.params.memSize) (h5 : s.argNat 5 + 16 ≤ s.params.memSize) :
    s.hasRegions i [⟨s.argNat 0, 16⟩, ⟨(s.pbdArg 0).base, (s.pbdArg 0).cap⟩, ⟨s.argNat 5, 16⟩] []
      [⟨(s.pbdArg 5).base, (s.pbdArg 5).cap⟩] := by
  rw [State.hasRegions, hi, pbdEntries_eq h0, pbdEntries_eq h5]
  exact .refl _

/-! ### The first operand check of a command -/

theorem exec_of_error {i : Instr} {s : State} {c : ErrCode} (h : outcome s i = .error c) :
    exec i s = .next (s.failedWith c) := by
  rw [exec_eq, h]
  rfl

/-- A command whose first operand is an input descriptor ends with the error of that descriptor. -/
theorem outcome_firstPbd_fails {i : Instr} {s : State} {c : ErrCode} (hi : 0 ∈ i.inputPbds) (h : s.PbdFails 0 true c) :
    outcome s i = .error c := by
  have hcheck := checkPbd_fails h
  cases i with
  | blkEnc | pbGet | pbSet | pbCrop | pbShift | pbBlit _ | pbXplant => exact bind_error hcheck _
  | _ => exact absurd hi (List.not_mem_nil)

/-- A command with a descriptor array ends with the error of that array. -/
theorem outcome_array_fails {i : Instr} {s : State} {n : Nat} {c : ErrCode} (hi : s.arrayCount i = some n)
    (h : s.ArrayFails n c) : outcome s i = .error c := by
  have hcheck := checkPbdArray_fails h
  cases i with
  | encS16 | encC16 =>
    cases hi
    exact bind_error (bind_error hcheck _) _
  | blkStitch =>
    cases hi
    exact bind_error hcheck _
  | _ => cases hi

theorem exec_firstPbd_fails {i : Instr} {s : State} {c : ErrCode} (hi : 0 ∈ i.inputPbds) (h : s.PbdFails 0 true c) :
    exec i s = .next (s.failedWith c) := exec_of_error (outcome_firstPbd_fails hi h)

theorem exec_array_fails {i : Instr} {s : State} {n : Nat} {c : ErrCode} (hi : s.arrayCount i = some n)
    (h : s.ArrayFails n c) : exec i s = .next (s.failedWith c) := exec_of_error (outcome_array_fails hi h)

/-- A command that completes without error is bounded, and its array passes its checks. -/
theorem exec_passes {i : Instr} {s t : State} (h : exec i s = .next t) (ht : t.status.errcode = .none) :
    ∃ e, Bounded i s e ∧ ∀ n, s.arrayCount i = some n → s.InputPbds n := by
  obtain ⟨e, ho, -, -, hbound⟩ | ⟨c, -, -, hc, hne⟩ := exec_inv h
  · exact ⟨e, hbound, fun n => outcome_array ho⟩
  · exact absurd (hc ▸ ht) hne

end Sys2Proof.Machine

open Sys2Proof Sys2Proof.Machine

/-- Settles O26: the conflict condition unfolded, the bound of a success, and the region table row by row. -/
theorem overlappingRegionsAreRejected : Obligations.OverlappingRegionsAreRejected := by
  refine ⟨RegionEntry.conflicts_iff, fun i s t h ht => ?_, fun s => ?_⟩
  · obtain ⟨e, hbound, -⟩ := exec_passes h ht
    exact (noConflict_iff _).mp hbound.noOverlap
  · refine ⟨.refl _, fun n g => .refl _, fun i hi => ?_, fun h3 i hi => ?_, fun harr i hi => ?_, fun harr h5 => ?_,
      fun h0 => ?_, fun h0 => ?_, fun h0 => ?_, fun h0 h5 i hi => ?_, fun h0 h5 i hi => ?_, fun c n g => .refl _,
      fun h7 c d => ?_⟩
    · fin_cases hi <;> exact .refl _
    · fin_cases hi <;> exact hasRegions_decoder rfl h3
    · fin_cases hi <;> exact hasRegions_encoder rfl harr
    · rw [State.hasRegions, regionEntries, arrayStorage_eq harr, List.append_assoc]
      exact (((pbdEntries_output_perm h5).append_right _).trans List.perm_append_comm).cons _
    · rw [State.hasRegions, regionEntries, pbdEntries_eq h0]
      exact (List.perm_append_singleton s.outputEntry _).symm
    · rw [State.hasRegions, regionEntries, pbdEntries_eq h0]
      exact .refl _
    · rw [State.hasRegions, regionEntries, pbdEntries_eq h0]
      exact .refl _
    · fin_cases hi <;> exact hasRegions_output rfl h0 h5
    · fin_cases hi <;> exact hasRegions_inPlace rfl h0 h5
    · exact (pbdEntries_output_perm h7).append_left [_, _, _, _]

/-- Settles O27: the first operand check decides a failure, and a success is bounded by its checks. -/
theorem descriptorChecks : Obligations.DescriptorChecks := by
  refine ⟨fun i s hi => ⟨fun ha => ?_, fun ha hr => ?_, fun ha hr hb => ?_, fun ha hr hb hs => ?_, fun hp hf => ?_⟩,
    fun i s n hi => ⟨fun ha => ?_, fun ha hr => ?_, fun ha hr k hk hj => ⟨fun hb => ?_, fun hb hs => ?_, fun hs hf => ?_⟩⟩,
    fun i s t h ht => ?_⟩
  · exact exec_firstPbd_fails hi (.inl ⟨ha, rfl⟩)
  · exact exec_firstPbd_fails hi (.inr (.inl ⟨ha, hr, rfl⟩))
  · exact exec_firstPbd_fails hi (.inr (.inr ⟨ha, hr, .inl ⟨hb, rfl⟩⟩))
  · exact exec_firstPbd_fails hi (.inr (.inr ⟨ha, hr, .inr (.inl ⟨hb, hs, rfl⟩)⟩))
  · exact exec_firstPbd_fails hi (.inr (.inr ⟨hp.1, hp.2.1, .inr (.inr ⟨hp.2.2, rfl, hf, rfl⟩)⟩))
  · exact exec_array_fails hi (.inl ⟨ha, rfl⟩)
  · exact exec_array_fails hi (.inr (.inl ⟨ha, hr, rfl⟩))
  · exact exec_array_fails hi (.inr (.inr ⟨ha, hr, k, hk, hj, .inl ⟨hb, rfl⟩⟩))
  · exact exec_array_fails hi (.inr (.inr ⟨ha, hr, k, hk, hj, .inr (.inl ⟨hb, hs, rfl⟩)⟩))
  · exact exec_array_fails hi (.inr (.inr ⟨ha, hr, k, hk, hj, .inr (.inr ⟨hs, rfl, hf, rfl⟩)⟩))
  · obtain ⟨e, hbound, harray⟩ := exec_passes h ht
    exact ⟨hbound.inputs, hbound.outputs, harray, hbound.regions⟩

end

section
/-! SUPPORT. The command word (30_encoding.md R100 to R108): packing fields and reading them are inverse, so a word decodes
to a command exactly when it is that command's word, and belongs to a row of the opcode table exactly when it is the word
of a command of that row. -/

namespace Sys2Proof

/-! ### Words and their fields -/

/-- Every field is read back as it was packed (R101). -/
@[simp] theorem fieldsOf_pack (f : Fields) : fieldsOf f.pack = f := by
  cases f
  simp only [fieldsOf, Fields.pack, Fields.mk.injEq]
  refine ⟨?_, ?_, ?_, ?_, ?_, ?_, ?_, ?_, ?_⟩
  all_goals
    refine BitVec.eq_of_getLsbD_eq fun i hi => ?_
    simp only [BitVec.getLsbD_extractLsb', BitVec.getLsbD_append]
    grind

/-- The fields of a word make up the whole word (R101). -/
@[simp] theorem pack_fieldsOf (w : Word) : (fieldsOf w).pack = w := by
  refine BitVec.eq_of_getLsbD_eq fun i hi => ?_
  simp only [fieldsOf, Fields.pack, BitVec.getLsbD_extractLsb', BitVec.getLsbD_append]
  grind

theorem fieldsOf_encode (i : Instr) : fieldsOf (encode i) = i.fields := fieldsOf_pack _

/-- A word is a command's word exactly when its fields are the command's. -/
theorem fieldsOf_eq_iff (w : Word) (i : Instr) : fieldsOf w = i.fields ↔ encode i = w :=
  ⟨fun h => by rw [encode, ← h, pack_fieldsOf], fun h => h ▸ fieldsOf_encode i⟩

@[simp] theorem flag_ofBool (b : Bool) : flag (BitVec.ofBool b) = b := by cases b <;> rfl

@[simp] theorem ofBool_flag (b : BitVec 1) : BitVec.ofBool (flag b) = b := by
  revert b
  decide

/-! ### The reserved bits and the opcode of a command's word -/

/-- The reserved bits are 0 (R102). -/
def Fields.ReservedClear (f : Fields) : Prop := f.reserved15 = 0#3 ∧ f.reserved23 = 0#2 ∧ f.reserved31 = 0#3

theorem Instr.fields_reservedClear (i : Instr) : i.fields.ReservedClear := by cases i <;> exact ⟨rfl, rfl, rfl⟩

/-- The OP values outside the opcode map (R105). -/
def OpUndefined (n : Nat) : Prop := n ∈ [0x07, 0x0C, 0x0D, 0x0E, 0x0F] ∨ (0x16 ≤ n ∧ n ≤ 0x1F) ∨ 0x23 ≤ n

theorem Instr.fields_op_defined (i : Instr) : ¬OpUndefined i.fields.op.toNat := by
  cases i <;> simp [OpUndefined, Instr.fields, opWord]

/-! ### Decoding -/

theorem decode_eq_ok (w : Word) (i : Instr) :
    decode w = .ok i ↔ (fieldsOf w).ReservedClear ∧ decodeOp (fieldsOf w) = .ok i := by
  unfold decode Fields.ReservedClear
  grind

theorem ifClear_eq_ok (c : Bool) (i j : Instr) : ifClear c i = .ok j ↔ c = true ∧ i = j := by
  cases c <;> simp [ifClear]

/-- Fields whose reserved bits are 0 are given by OP and the five fields that an opcode may use. -/
theorem Fields.eq_of_used {f g : Fields} (hf : f.ReservedClear) (hg : g.ReservedClear) (hop : f.op.toNat = g.op.toNat)
    (h : f.strat = g.strat ∧ f.nbits = g.nbits ∧ f.gamma = g.gamma ∧ f.alpha = g.alpha ∧ f.strat2 = g.strat2) :
    f = g := by
  obtain ⟨f15, f23, f31⟩ := hf
  obtain ⟨g15, g23, g31⟩ := hg
  have hop := BitVec.eq_of_toNat_eq hop
  cases f
  cases g
  simp_all

/-- The opcode map reads a command's own fields as the command (R104). -/
theorem decodeOp_fields (i : Instr) : decodeOp i.fields = .ok i := by
  cases i with
  | pbBlit _ | quant _ _ _ | pack565 _ _ | qlookup _ _ => simp [decodeOp, Instr.fields, opWord, ifClear]
  | _ => rfl

/-- The opcode map gives a command only for that command's fields (R103, R104). -/
theorem fields_of_decodeOp {f : Fields} {i : Instr} (hr : f.ReservedClear) (h : decodeOp f = .ok i) : f = i.fields := by
  unfold decodeOp at h
  split at h
  case h_21 => cases h
  all_goals
    obtain ⟨hclear, rfl⟩ := (ifClear_eq_ok ..).mp h
    simp only [Fields.onlyOp, Bool.and_eq_true, beq_iff_eq] at hclear
    exact Fields.eq_of_used hr (Instr.fields_reservedClear _) ‹_› (by simp [Instr.fields, opWord, hclear])

/-- A word decodes to a command exactly when it is the command's word. -/
theorem decode_eq_ok_iff (w : Word) (i : Instr) : decode w = .ok i ↔ encode i = w := by
  rw [decode_eq_ok, ← fieldsOf_eq_iff]
  constructor
  · exact fun ⟨hr, h⟩ => fields_of_decodeOp hr h
  · exact fun h => h ▸ ⟨i.fields_reservedClear, decodeOp_fields i⟩

theorem decode_encode (i : Instr) : decode (encode i) = .ok i := (decode_eq_ok_iff ..).mpr rfl

/-! ### Rows of the opcode table -/

/-- A command's word belongs to the command's row (R103). -/
theorem encode_matches_row (i : Instr) : encode i &&& i.row.mask = i.row.word := by
  cases i with
  | pbBlit alpha => exact Laws.Encoding.pbBlit alpha
  | quant strat nbits gamma => exact Laws.Encoding.quant strat nbits gamma
  | pack565 cdmode admode => exact Laws.Encoding.pack565 cdmode admode
  | qlookup nbits gamma => exact Laws.Encoding.qlookup nbits gamma
  | _ => rfl

/-- Every bit of every field. -/
def Fields.allOnes : Fields :=
  ⟨.allOnes 8, .allOnes 5, .allOnes 3, .allOnes 4, .allOnes 1, .allOnes 1, .allOnes 2, .allOnes 5, .allOnes 3⟩

/-- The fields that a row's mask covers: all but those that the opcode uses (R103). -/
def Instr.maskFields : Instr → Fields
  | .pbBlit _ => { Fields.allOnes with alpha := 0#1 }
  | .quant _ _ _ => { Fields.allOnes with strat := 0#5, nbits := 0#4, gamma := 0#1 }
  | .pack565 _ _ => { Fields.allOnes with strat := 0#5, strat2 := 0#5 }
  | .qlookup _ _ => { Fields.allOnes with nbits := 0#4, gamma := 0#1 }
  | _ => Fields.allOnes

/-- The rows of spec/opcode_table.json from the fields of the command word (R103). -/
theorem Instr.row_eq (i : Instr) : i.row = ⟨(opWord i.fields.op).pack, i.maskFields.pack⟩ := by
  cases i <;> simp only [Instr.row, Instr.fields, Instr.maskFields, opWord] <;> decide

/-- The conjunction of two words field by field. -/
theorem fieldsOf_and (v w : Word) : fieldsOf (v &&& w) =
    { op := (fieldsOf v).op &&& (fieldsOf w).op
      strat := (fieldsOf v).strat &&& (fieldsOf w).strat
      reserved15 := (fieldsOf v).reserved15 &&& (fieldsOf w).reserved15
      nbits := (fieldsOf v).nbits &&& (fieldsOf w).nbits
      gamma := (fieldsOf v).gamma &&& (fieldsOf w).gamma
      alpha := (fieldsOf v).alpha &&& (fieldsOf w).alpha
      reserved23 := (fieldsOf v).reserved23 &&& (fieldsOf w).reserved23
      strat2 := (fieldsOf v).strat2 &&& (fieldsOf w).strat2
      reserved31 := (fieldsOf v).reserved31 &&& (fieldsOf w).reserved31 } := by
  simp only [fieldsOf, BitVec.extractLsb'_and]

/-- The command of the same row whose used fields are those of `f`. -/
def Instr.withFields (f : Fields) : Instr → Instr
  | .pbBlit _ => .pbBlit (flag f.alpha)
  | .quant _ _ _ => .quant f.strat f.nbits (flag f.gamma)
  | .pack565 _ _ => .pack565 f.strat f.strat2
  | .qlookup _ _ => .qlookup f.nbits (flag f.gamma)
  | i => i

theorem Instr.row_withFields (i : Instr) (f : Fields) : (i.withFields f).row = i.row := by cases i <;> rfl

/-- A word that belongs to a row is the word of a command of that row (R103, R105). -/
theorem encode_of_matches_row {w : Word} {j : Instr} (h : w &&& j.row.mask = j.row.word) :
    encode (j.withFields (fieldsOf w)) = w := by
  have hf := congrArg fieldsOf h
  rw [Instr.row_eq, fieldsOf_and, fieldsOf_pack, fieldsOf_pack] at hf
  rw [← fieldsOf_eq_iff]
  generalize fieldsOf w = f at hf ⊢
  -- The mask leaves OP, the reserved bits and the unused fields as they are, and the row's word fixes them.
  cases f
  cases j
  all_goals
    simp_all only [Instr.maskFields, Fields.allOnes, Instr.withFields, Instr.fields, opWord, Fields.mk.injEq,
      BitVec.and_allOnes, BitVec.and_zero, ofBool_flag]

/-- A word belongs to the row of a command exactly when it decodes to a command of that row (R105). -/
theorem matches_row_iff (w : Word) (j : Instr) :
    w &&& j.row.mask = j.row.word ↔ ∃ i, decode w = .ok i ∧ i.row = j.row := by
  constructor
  · exact fun h => ⟨_, (decode_eq_ok_iff ..).mpr (encode_of_matches_row h), j.row_withFields _⟩
  · rintro ⟨i, h, hrow⟩
    rw [← hrow, ← (decode_eq_ok_iff ..).mp h, encode_matches_row]

namespace Machine

/-- The Engine's turn on a pending word that is no command (R134 step 1). -/
theorem engineTurn_illegal {s : State} (hb : s.status.busy = true) (h : ∀ i, decode s.lcmd ≠ .ok i) :
    engineTurn s = .next (s.failedWith .illegalCmd) := by
  rw [engineTurn, if_pos hb, engineStep]
  split
  case h_1 i hi => exact absurd hi (h i)
  case h_2 => rfl

theorem checkBits_fails {n : BitVec 4} (h : 9 ≤ n.toNat) : checkBits n = .error .badBits :=
  require_eq_error _ (decide_eq_false (by omega))

theorem checkStrategy_fails {c : BitVec 5} (h : Strategy.ofCode c = none) :
    checkStrategy c = .error .invalidStrategy := by rw [checkStrategy, h]

end Machine

end Sys2Proof

open Sys2Proof Sys2Proof.Machine

/-- Settles O1: a word decodes to a command exactly when it is the command's word. -/
theorem decodeEncodeRoundTrip : Obligations.DecodeEncodeRoundTrip := decode_encode

/-- Settles O2: each of the conditions rules out that the word is a command's, and the rows that a word belongs to are
those of the command it decodes to. -/
theorem everyWordIsOneRowOrIllegal : Obligations.EveryWordIsOneRowOrIllegal := by
  refine ⟨fun s rest hb hin hill => ?_, fun w => ?_⟩
  · rw [step_engine hin, engineTurn_illegal (s := { s with inputs := rest }) hb fun i hi => ?_]
    obtain ⟨h15, h23, h31⟩ := ((decode_eq_ok ..).mp hi).1
    have hfields := (fieldsOf_eq_iff ..).mpr ((decode_eq_ok_iff ..).mp hi)
    have hop : ¬OpUndefined (fieldsOf s.lcmd).op.toNat := hfields ▸ i.fields_op_defined
    obtain hr | hr | hr | hr | hr | hr | hr := hill
    · exact hr h15
    · exact hr h23
    · exact hr h31
    · exact hop (.inl hr)
    · exact hop (.inr (.inl hr))
    · exact hop (.inr (.inr hr))
    · exact hr i ((matches_row_iff ..).mpr ⟨i, hi, rfl⟩)
  · cases h : decode w with
    | ok i =>
      refine .inl ⟨i, rfl, (decode_eq_ok_iff ..).mp h, (matches_row_iff ..).mpr ⟨i, h, rfl⟩, fun j hj => ?_⟩
      obtain ⟨k, hk, hrow⟩ := (matches_row_iff ..).mp hj
      rw [← hrow, Except.ok.inj (h.symm.trans hk)]
    | error e =>
      refine .inr ⟨⟨e, rfl⟩, fun j hj => ?_⟩
      obtain ⟨k, hk, -⟩ := (matches_row_iff ..).mp hj
      cases h.symm.trans hk

/-- Settles O3: each legal word is the word of its command. -/
theorem specWordsDecode : Obligations.SpecWordsDecode :=
  ⟨decode_encode .nop, decode_encode .decFrm, decode_encode .blkEnc, decode_encode (.pbBlit true),
    decode_encode (.quant 10#5 1#4 false), decode_encode (.quant 10#5 1#4 true), decode_encode (.pack565 0#5 10#5),
    decode_encode (.qlookup 5#4 true), by decide, by decide, by decide⟩

/-- Settles O4: the check that fails is the first of each command, or follows one that passes. -/
theorem illegalFieldValuesEndWithTheirError : Obligations.IllegalFieldValuesEndWithTheirError := by
  refine ⟨fun s c n g hn => ⟨?_, ?_⟩, by decide, fun s c n g hn hc => ?_, fun s c d h => ?_⟩
  · exact exec_of_error (bind_error (checkBits_fails hn) _)
  · exact exec_of_error (bind_error (checkBits_fails hn) _)
  · exact exec_of_error ((bind_ok ((checkBits_eq_ok n ()).mpr hn) _).trans (bind_error (checkStrategy_fails hc) _))
  · refine exec_of_error ?_
    cases hc : Strategy.ofCode c with
    | none => exact bind_error (checkStrategy_fails hc) _
    | some st =>
      have hd : Strategy.ofCode d = none := h.resolve_left (by simp [hc])
      exact (bind_ok ((checkStrategy_eq_ok ..).mpr hc) _).trans (bind_error (checkStrategy_fails hd) _)

end

section
/-! SUPPORT. The commands as a whole (40_command.md R131 to R138): the Engine's turn on a pending command and on none, what a
completion leaves unchanged, and NOP. -/

namespace Sys2Proof.Machine

/-! ### The Engine's turn -/

theorem engineTurn_idle {s : State} (hb : s.status.busy = false) : engineTurn s = .next s := by
  rw [engineTurn, hb]
  rfl

/-- The Engine's turn on a pending word that is a command (R131). -/
theorem engineTurn_decoded {s : State} {i : Instr} (hb : s.status.busy = true) (h : decode s.lcmd = .ok i) :
    engineTurn s = exec i s := by rw [engineTurn, if_pos hb, engineStep, h]

/-- The step after a word is placed (log 2) is the Engine's turn on that word. -/
theorem step_withFetchWord (s : State) (w : Word) : step (s.withFetchWord 32 w.toNat) = engineTurn (s.accept w) := by
  rw [State.withFetchWord, Nat.mod_eq_of_lt w.isLt, BitVec.ofNat_toNat, BitVec.setWidth_eq]
  exact step_engine rfl

/-- A word's number is read back as the word. -/
theorem decodeTableWord_toNat (w : Word) : decodeTableWord 32 w.toNat = (decode w).toOption := by
  rw [decodeTableWord, Nat.mod_eq_of_lt w.isLt, if_pos w.isLt, BitVec.ofNat_toNat, BitVec.setWidth_eq]

/-! ### What a completion leaves unchanged -/

/-- The STATUS bits that a success and an error leave alike (R132). -/
theorem complete_status (s : State) (o : CmdOutcome) : (s.complete o).status.ovr = s.status.ovr ∧
    (s.complete o).status.busy = false ∧ (s.complete o).status.done = true := by
  cases o with
  | ok e => exact ⟨rfl, rfl, rfl⟩
  | error c => exact ⟨rfl, rfl, rfl⟩

end Sys2Proof.Machine

open Sys2Proof Sys2Proof.Machine

/-- Settles O22: the frame and the STATUS bits are those of every completion; TRUNC and the draws are bounded in a success
and kept by an error, which reports a code other than 0. -/
theorem commandFrame : Obligations.CommandFrame := by
  intro i s t h
  obtain ⟨e, -, rfl, -, hbound⟩ | ⟨c, -, rfl, -, hne⟩ := exec_inv h
  · obtain ⟨hovr, hbusy, hdone⟩ := complete_status s (.ok e)
    exact ⟨complete_frame s (.ok e), hovr, hbusy, hdone, fun _ => rfl, fun htrunc => .inr (hbound.trunc htrunc),
      hbound.draws, hbound.drawing⟩
  · obtain ⟨hovr, hbusy, hdone⟩ := complete_status s (.error c)
    exact ⟨complete_frame s (.error c), hovr, hbusy, hdone, fun hcode => absurd hcode hne, fun htrunc => .inl htrunc,
      le_rfl, .inl rfl⟩

/-- Settles O24: a success writes in the destination regions alone, an error nothing. -/
theorem onlyDestinationsChange : Obligations.OnlyDestinationsChange := by
  intro i s t h
  obtain ⟨e, -, rfl, -, hbound⟩ | ⟨c, -, rfl, -, -⟩ := exec_inv h
  · exact fun a ha => hbound.read ha
  · exact fun a _ => rfl

/-- Settles O5: each of these steps is the Engine's turn, which runs the command of a pending word and else is idle. -/
theorem stepRunsDecodedCommand : Obligations.StepRunsDecodedCommand := by
  refine ⟨fun s i rest hb hd hin => ?_, fun s i hb hd hin => ?_, fun s rest hb hin => ?_, fun s hb hin => ?_,
    fun s w i hd => ⟨?_, ?_⟩⟩
  · exact (step_engine hin).trans (engineTurn_decoded (s := { s with inputs := rest }) hb hd)
  · exact (step_idle hin).trans (engineTurn_decoded hb hd)
  · exact (step_engine hin).trans (engineTurn_idle (s := { s with inputs := rest }) hb)
  · exact (step_idle hin).trans (engineTurn_idle hb)
  · exact (step_withFetchWord s w).trans (engineTurn_decoded rfl hd)
  · rw [decodeTableWord_toNat, hd]
    rfl

/-- Settles O28: NOP's outcome is the effect with no write and no result. -/
theorem nopResult : Obligations.NopResult := fun s =>
  (exec_eq .nop s).trans (congrArg _ (succeed_eq_completedWith s (s.effect [] [])))

end

section
/-! SUPPORT. The raster functions (41_pixelbuffer.md R150 to R158): their pixels, their laws, and the blit as the loop of
R151. -/

namespace Sys2Proof.Machine

namespace PixelBuffer

/-! ### Pixels of the raster functions -/

theorem wf_iff (P : PixelBuffer) : P.wf = true ↔ P.data.length = P.width * P.height := decide_eq_true_iff

theorem crop_get (S : PixelBuffer) (x0 y0 : Int) {w h x y : Nat} (hx : x < w) (hy : y < h) :
    (S.crop x0 y0 w h).get x y = S.get (x + x0) (y + y0) := ofFn_get _ hx hy

theorem shift_get (S : PixelBuffer) (dx dy : Int) {x y : Nat} (hx : x < S.width) (hy : y < S.height) :
    (S.shift dx dy).get x y = S.get (x - dx) (y - dy) := ofFn_get _ hx hy

/-- The pixel of a shifted buffer at any coordinates: the two buffers have the same size. -/
theorem shift_get_eq (S : PixelBuffer) (dx dy x y : Int) :
    (S.shift dx dy).get x y = if S.inside x y = true then S.get (x - dx) (y - dy) else 0#16 := by
  split
  · next hin =>
    obtain ⟨hx0, hx, hy0, hy⟩ := (inside_iff ..).mp hin
    lift x to ℕ using hx0
    lift y to ℕ using hy0
    exact shift_get S dx dy (Int.ofNat_lt.mp hx) (Int.ofNat_lt.mp hy)
  · next hout => exact get_outside (Bool.eq_false_iff.mpr hout)

theorem blit_get (D S : PixelBuffer) (dx dy : Int) (alpha : Bool) {x y : Nat} (hx : x < D.width) (hy : y < D.height) :
    (D.blit S dx dy alpha).get x y =
      if S.inside (x - dx) (y - dy) = true ∧ ¬(alpha = true ∧ S.get (x - dx) (y - dy) = 0#16) then
        S.get (x - dx) (y - dy)
      else D.get x y := by
  refine (ofFn_get _ hx hy).trans (if_congr ?_ rfl rfl)
  rw [Bool.and_eq_true, Bool.not_eq_true', Bool.eq_false_iff, ne_eq, Bool.and_eq_true, beq_iff_eq]

theorem transplant_get (D S : PixelBuffer) (dx dy : Int) {x y : Nat} (hx : x < D.width) (hy : y < D.height) :
    (D.transplant S dx dy).get x y =
      if D.get x y ≠ 0#16 ∧ S.get (x - dx) (y - dy) ≠ 0#16 then S.get (x - dx) (y - dy) else D.get x y :=
  ofFn_get _ hx hy

/-- A buffer of mask pixels has no other pixel. -/
theorem get_eq_zero {S : PixelBuffer} (h : ∀ p ∈ S.data, p = 0#16) (x y : Int) : S.get x y = 0#16 := by
  unfold get
  split
  · rw [List.getD_eq_getElem?_getD]
    cases hp : S.data[y.toNat * S.width + x.toNat]? with
    | none => rfl
    | some p => exact h p (List.mem_of_getElem? hp)
  · rfl

/-! ### Laws of the raster functions (R158) -/

theorem crop_full {S : PixelBuffer} (h : S.wf = true) : S.crop 0 0 S.width S.height = S := by
  refine ext_get (crop_wf ..) h rfl rfl fun x y hx hy => ?_
  have hcrop := crop_get S 0 0 hx hy
  rwa [add_zero, add_zero] at hcrop

/-- Shifting there and back keeps the pixels that stay in range, and no other. -/
theorem shift_shift_get (S : PixelBuffer) (dx dy : Int) {x y : Nat} (hx : x < S.width) (hy : y < S.height) :
    ((S.shift dx dy).shift (-dx) (-dy)).get x y = if S.inside (x + dx) (y + dy) = true then S.get x y else 0#16 := by
  rw [shift_get (S.shift dx dy) _ _ hx hy, shift_get_eq]
  simp only [sub_neg_eq_add, add_sub_cancel_right]

/-- A transplant keeps the mask of its destination. -/
theorem transplant_get_eq_zero_iff (D S : PixelBuffer) (dx dy : Int) {x y : Nat} (hx : x < D.width) (hy : y < D.height) :
    (D.transplant S dx dy).get x y = 0#16 ↔ D.get x y = 0#16 := by
  rw [transplant_get D S dx dy hx hy]
  split
  · next hboth => exact iff_of_false hboth.2 hboth.1
  · rfl

/-- An alpha-aware blit of mask pixels alone draws nothing. -/
theorem blit_of_zero {D S : PixelBuffer} (hD : D.wf = true) (hS : ∀ p ∈ S.data, p = 0#16) (dx dy : Int) :
    D.blit S dx dy true = D := by
  refine ext_get (blit_wf ..) hD rfl rfl fun x y hx hy => ?_
  rw [blit_get D S dx dy true hx hy, if_neg fun hdrawn => hdrawn.2 ⟨rfl, get_eq_zero hS _ _⟩]

/-! ### The loop of R151 -/

theorem set_wf {P : PixelBuffer} (h : P.wf = true) (x y : Int) (v : Pixel) : (P.set x y v).wf = true := by
  simpa [wf] using h

/-- Two positions of one row-major buffer are equal when their indices are. -/
theorem rowMajor_inj {w x y a b : Nat} (hx : x < w) (ha : a < w) :
    b * w + a = y * w + x ↔ a = x ∧ b = y := by
  refine ⟨fun h => ?_, fun ⟨ha, hb⟩ => by rw [ha, hb]⟩
  obtain ⟨-, hmod, hdiv⟩ := rowMajor hx (Nat.lt_succ_self y)
  obtain ⟨-, hmod', hdiv'⟩ := rowMajor ha (Nat.lt_succ_self b)
  exact ⟨hmod'.symm.trans (h ▸ hmod), hdiv'.symm.trans (h ▸ hdiv)⟩

/-- Setting a pixel leaves every other one, and sets it where it is in range (00_scope.md R10). -/
theorem set_get {P : PixelBuffer} (h : P.wf = true) {x y : Nat} (hx : x < P.width) (hy : y < P.height) (a b : Int)
    (v : Pixel) : (P.set a b v).get x y = if a = x ∧ b = y then v else P.get x y := by
  by_cases hin : P.inside a b = true
  · obtain ⟨ha0, ha, hb0, hb⟩ := (inside_iff ..).mp hin
    lift a to ℕ using ha0
    lift b to ℕ using hb0
    have hlen : y * P.width + x < P.data.length := by
      rw [(wf_iff P).mp h]
      exact (rowMajor hx hy).1
    rw [get_natCast (by simpa using hx) (by simpa using hy), get_natCast hx hy, set_width, set, if_pos hin]
    simp only [Int.toNat_natCast, Nat.cast_inj, List.getD_eq_getElem?_getD, List.getElem?_set,
      rowMajor_inj hx (Int.ofNat_lt.mp ha)]
    split
    · next hxy => simp [hxy.1, hxy.2, hlen]
    · rfl
  · rw [set_outside v (Bool.eq_false_iff.mpr hin), if_neg]
    rintro ⟨rfl, rfl⟩
    exact hin ((inside_iff ..).mpr ⟨by omega, by omega, by omega, by omega⟩)

/-- One turn of the loop of R151, at the source pixel of row q.1 and column q.2. -/
def drawPixel (S : PixelBuffer) (dx dy : Int) (alpha : Bool) (D : PixelBuffer) (q : Nat × Nat) : PixelBuffer :=
  let v := S.data.getD (q.1 * S.width + q.2) 0#16
  if alpha && v == 0#16 then D else D.set (q.2 + dx) (q.1 + dy) v

/-- The loop of R151 takes its turns at the source's pixels in row-major order. -/
theorem blitLoop_eq (D S : PixelBuffer) (dx dy : Int) (alpha : Bool) :
    blitLoop D S dx dy alpha = (List.range S.height ×ˢ List.range S.width).foldl (drawPixel S dx dy alpha) D := by
  refine Eq.symm (List.foldl_flatMap.trans ?_)
  simp only [List.foldl_map]
  rfl

/-- A turn of the loop changes no size. -/
theorem drawPixel_shape {D : PixelBuffer} (h : D.wf = true) (S : PixelBuffer) (dx dy : Int) (alpha : Bool) (q : Nat × Nat) :
    (drawPixel S dx dy alpha D q).wf = true ∧ (drawPixel S dx dy alpha D q).width = D.width ∧
      (drawPixel S dx dy alpha D q).height = D.height := by
  simp only [drawPixel]
  split
  · exact ⟨h, rfl, rfl⟩
  · exact ⟨set_wf h .., set_width .., set_height ..⟩

/-- A turn of the loop draws the source's pixel at its target, if it is not a mask pixel of an alpha-aware blit. -/
theorem drawPixel_get {D S : PixelBuffer} (h : D.wf = true) (dx dy : Int) (alpha : Bool) {q : Nat × Nat}
    (hq : q.1 < S.height ∧ q.2 < S.width) {x y : Nat} (hx : x < D.width) (hy : y < D.height) :
    (drawPixel S dx dy alpha D q).get x y =
      if (q.2 + dx = x ∧ q.1 + dy = y) ∧ ¬(alpha = true ∧ S.get (x - dx) (y - dy) = 0#16) then
        S.get (x - dx) (y - dy)
      else D.get x y := by
  by_cases ht : q.2 + dx = x ∧ q.1 + dy = y
  · obtain ⟨hqx, hqy⟩ := ht
    have hv : S.data.getD (q.1 * S.width + q.2) 0#16 = S.get (x - dx) (y - dy) := by
      rw [← hqx, ← hqy, add_sub_cancel_right, add_sub_cancel_right, get_natCast hq.2 hq.1]
    simp only [drawPixel, hv, Bool.and_eq_true, beq_iff_eq]
    split
    · next hmask => rw [if_neg fun hd => hd.2 hmask]
    · next hdrawn => rw [set_get h hx hy, if_pos ⟨hqx, hqy⟩, if_pos ⟨⟨hqx, hqy⟩, hdrawn⟩]
  · rw [if_neg fun hd => ht hd.1]
    simp only [drawPixel]
    split
    · rfl
    · rw [set_get h hx hy, if_neg ht]

/-- Turns of the loop change no size. -/
theorem foldl_drawPixel_shape (qs : List (Nat × Nat)) {D : PixelBuffer} (h : D.wf = true) (S : PixelBuffer) (dx dy : Int)
    (alpha : Bool) : (qs.foldl (drawPixel S dx dy alpha) D).wf = true ∧
      (qs.foldl (drawPixel S dx dy alpha) D).width = D.width ∧
      (qs.foldl (drawPixel S dx dy alpha) D).height = D.height := by
  induction qs generalizing D with
  | nil => exact ⟨h, rfl, rfl⟩
  | cons q qs ih =>
    obtain ⟨hwf, hw, hh⟩ := drawPixel_shape h S dx dy alpha q
    simpa only [List.foldl_cons, hw, hh] using ih hwf

/-- After turns at some of the source's pixels, a target of one of them holds the source's pixel: the turns that reach it
all draw the same pixel, and the others leave it. -/
theorem foldl_drawPixel_get {qs : List (Nat × Nat)} {D S : PixelBuffer} (h : D.wf = true) (dx dy : Int) (alpha : Bool)
    (hqs : ∀ q ∈ qs, q.1 < S.height ∧ q.2 < S.width) {x y : Nat} (hx : x < D.width) (hy : y < D.height) :
    (qs.foldl (drawPixel S dx dy alpha) D).get x y =
      if (∃ q ∈ qs, q.2 + dx = x ∧ q.1 + dy = y) ∧ ¬(alpha = true ∧ S.get (x - dx) (y - dy) = 0#16) then
        S.get (x - dx) (y - dy)
      else D.get x y := by
  induction qs generalizing D with
  | nil => simp
  | cons q qs ih =>
    obtain ⟨hq, hqs⟩ := List.forall_mem_cons.mp hqs
    obtain ⟨hwf, hw, hh⟩ := drawPixel_shape h S dx dy alpha q
    rw [List.foldl_cons, ih hwf hqs (hw ▸ hx) (hh ▸ hy), drawPixel_get h dx dy alpha hq hx hy]
    simp only [List.exists_mem_cons_iff, or_and_right]
    split
    · next hlater => rw [if_pos (.inr hlater)]
    · next hlater => exact if_congr (or_iff_left hlater).symm rfl rfl

/-- The source's pixels that the loop of R151 reaches (x, y) from: one, or none when its position is out of range. -/
theorem exists_target_iff (S : PixelBuffer) (dx dy x y : Int) :
    (∃ q ∈ List.range S.height ×ˢ List.range S.width, (q.2 : Int) + dx = x ∧ (q.1 : Int) + dy = y) ↔
      S.inside (x - dx) (y - dy) = true := by
  simp only [Prod.exists, List.mem_product, List.mem_range, inside_iff]
  constructor
  · rintro ⟨sy, sx, ⟨hsy, hsx⟩, rfl, rfl⟩
    omega
  · intro hin
    exact ⟨(y - dy).toNat, (x - dx).toNat, by omega, by omega, by omega⟩

/-- The loop of R151 draws on each pixel of the destination what the pixel-by-pixel blit does (log 21). -/
theorem blitLoop_eq_blit {D : PixelBuffer} (h : D.wf = true) (S : PixelBuffer) (dx dy : Int) (alpha : Bool) :
    blitLoop D S dx dy alpha = D.blit S dx dy alpha := by
  rw [blitLoop_eq]
  obtain ⟨hwf, hw, hh⟩ := foldl_drawPixel_shape (List.range S.height ×ˢ List.range S.width) h S dx dy alpha
  refine ext_get hwf (blit_wf ..) hw hh fun x y hx hy => ?_
  rw [hw] at hx
  rw [hh] at hy
  rw [blit_get D S dx dy alpha hx hy, foldl_drawPixel_get h dx dy alpha (fun q hq => ?_) hx hy]
  · exact if_congr (and_congr_left' (exists_target_iff ..)) rfl rfl
  · simpa using List.mem_product.mp hq

end PixelBuffer

end Sys2Proof.Machine

open Sys2Proof Sys2Proof.Machine

/-- Settles O35: the two buffers have the same size and the same pixels. -/
theorem blitIsTheLoopOfTheRule : Obligations.BlitIsTheLoopOfTheRule := by
  intro D S dx dy alpha h
  rw [PixelBuffer.blitLoop_eq_blit h]
  exact ⟨rfl, rfl, rfl⟩

end

section
/-! SUPPORT. The raster commands (41_pixelbuffer.md R152 to R158): what a command does that reads a pixel, writes an output
buffer or writes a destination in place, and which bytes a command that completes without error leaves. -/

namespace Sys2Proof.Machine

/-! ### Completion with an effect -/

/-- A command whose outcome is an effect that draws nothing completes with its writes and results. -/
theorem exec_of_effect {i : Instr} {s : State} {cells : List Host.Cell} {rs : List (Fin 4 × Word)}
    (h : outcome s i = .ok (s.effect cells rs)) :
    exec i s = .next (s.completedWith (s.lm.writeAll cells) (rs.foldl (fun v r => v.set r.1 r.2) s.res) false s.draws) := by
  rw [exec_eq, h]
  exact congrArg _ (succeed_eq_completedWith ..)

theorem checkOverlap_pass {s : State} {i : Instr} (h : s.NoOverlap i) : checkOverlap s i = .ok () :=
  (checkOverlap_eq_ok ..).mpr h

/-! ### Pixels in local memory -/

/-- A pixel of an input buffer at any coordinates: the value at its address, or 0 out of range (R150). -/
theorem loadBuffer_get_eq (m : Memory) (p : Pbd) (x y : Int) : (loadBuffer m p).get x y =
    if 0 ≤ x ∧ x < p.width ∧ 0 ≤ y ∧ y < p.height then BitVec.ofNat 16 (m.readLe (pixelAddress p x y) 2)
    else 0#16 := by
  split
  · next hin =>
    obtain ⟨hx0, hx, hy0, hy⟩ := hin
    lift x to ℕ using hx0
    lift y to ℕ using hy0
    exact loadBuffer_get m p (Int.ofNat_lt.mp hx) (Int.ofNat_lt.mp hy)
  · next hout => exact PixelBuffer.get_outside (Bool.eq_false_iff.mpr fun hin => hout ((PixelBuffer.inside_iff ..).mp hin))

/-- A pixel of an input buffer as a result word (R8). -/
theorem loadBuffer_get_word (m : Memory) (p : Pbd) (x y : Int) : ((loadBuffer m p).get x y).setWidth 32 =
    BitVec.ofNat 32
      (if 0 ≤ x ∧ x < p.width ∧ 0 ≤ y ∧ y < p.height then m.readLe (pixelAddress p x y) 2 else 0) := by
  rw [loadBuffer_get_eq]
  split
  · refine BitVec.eq_of_toNat_eq ?_
    have hlt := m.readLe_lt (pixelAddress p x y) 2
    simp only [BitVec.toNat_setWidth, BitVec.toNat_ofNat]
    omega
  · rfl

/-! ### A command that writes an output buffer -/

/-- The same output buffer, told by another function with the same pixels. -/
theorem wroteBuffer_congr {s : State} {m : Memory} {k : Fin 8} {w h : Nat} {f g : Nat → Nat → Pixel}
    (hf : s.wroteBuffer m k w h f) (hfg : ∀ x y, x < w → y < h → f x y = g x y) : s.wroteBuffer m k w h g := by
  obtain ⟨hw, hh, hpixels, hframe⟩ := hf
  exact ⟨hw, hh, holdsPixels_congr hpixels hfg, hframe⟩

/-- The output checks in order (R134 steps 2 and 4), then the buffer Q written to output descriptor `k` (R136), for a command
that ends so; `f` tells the pixels of Q. -/
theorem exec_writesBuffer {s : State} {i : Instr} {k : Fin 8} {Q : PixelBuffer} {f : Nat → Nat → Pixel}
    (ho : outcome s i = checkPbd s (s.argNat k) false >>= fun p => emitBuffer s i (s.argNat k) p Q [])
    (hsub : (s.pbdEntries k .update .write).Sublist (regionEntries s i)) (hQ : Q.wf = true)
    (hw : Q.width < 2 ^ 32) (hh : Q.height < 2 ^ 32)
    (hf : ∀ x y : Nat, x < Q.width → y < Q.height → Q.get x y = f x y) :
    (∀ e, s.PbdFails k false e → exec i s = .next (s.failedWith e)) ∧
    (s.OutputPbd k →
      ((s.pbdArg k).cap < 2 * Q.width * Q.height → exec i s = .next (s.failedWith .capacity)) ∧
      (2 * Q.width * Q.height ≤ (s.pbdArg k).cap →
        (¬s.NoOverlap i → exec i s = .next (s.failedWith .overlap)) ∧
        (s.NoOverlap i → s.lm.wf = true →
          ∃ lm', exec i s = .next (s.completedWith lm' s.res false s.draws) ∧
            s.wroteBuffer lm' k Q.width Q.height f))) := by
  refine ⟨fun e hfails => exec_of_error (ho.trans (bind_error (checkPbd_fails hfails) _)), fun hp => ?_⟩
  have hemit := ho.trans (bind_ok (checkPbd_of_output hp) _)
  refine ⟨fun hcap => exec_of_error (hemit.trans (emitBuffer_capacity _ fun htakes => ?_)), fun hcap => ?_⟩
  · exact absurd htakes.2.2 (Nat.not_le.mpr hcap)
  have htakes : (s.pbdArg k).Takes Q.width Q.height := ⟨hw, hh, hcap⟩
  refine ⟨fun hno => exec_of_error (hemit.trans (emitBuffer_overlap _ htakes hno)), fun hno hm => ?_⟩
  exact ⟨_, exec_of_effect (hemit.trans (emitBuffer_of_checks _ htakes hno)),
    wroteBuffer_congr (wroteBuffer_writeAll hm hQ hp htakes hno hsub) hf⟩

/-! ### A command that writes a destination in place -/

/-- The destination checks in order (R134 steps 2 and 4), then the buffer Q in the destination's storage (R156, R157), for a
command that ends so; `f` tells the pixels of Q. -/
theorem exec_writesInPlace {s : State} {i : Instr} {k : Fin 8} {Q : Pbd → PixelBuffer} {f : Nat → Nat → Pixel}
    (ho : outcome s i = checkPbd s (s.argNat k) true >>= fun p => checkOverlap s i >>= fun _ =>
      pure (s.effect (storageCells p (Q p)) []))
    (hQ : (Q (s.pbdArg k)).wf = true) (hw : (Q (s.pbdArg k)).width = (s.pbdArg k).width)
    (hh : (Q (s.pbdArg k)).height = (s.pbdArg k).height)
    (hf : ∀ x y : Nat, x < (s.pbdArg k).width → y < (s.pbdArg k).height → (Q (s.pbdArg k)).get x y = f x y) :
    (∀ e, s.PbdFails k true e → exec i s = .next (s.failedWith e)) ∧
    (s.InputPbd k → ¬s.NoOverlap i → exec i s = .next (s.failedWith .overlap)) ∧
    (s.InputPbd k → s.NoOverlap i → s.lm.wf = true →
      ∃ lm', exec i s = .next (s.completedWith lm' s.res false s.draws) ∧
        holdsPixels lm' (s.pbdArg k).base (s.pbdArg k).width (s.pbdArg k).height f ∧
        unchangedOutside s.lm lm' [⟨(s.pbdArg k).base, 2 * (s.pbdArg k).width * (s.pbdArg k).height⟩]) := by
  refine ⟨fun e hfails => exec_of_error (ho.trans (bind_error (checkPbd_fails hfails) _)), fun hp hno => ?_,
    fun hp hno hm => ?_⟩
  · exact exec_of_error ((ho.trans (bind_ok (checkPbd_of_input hp) _)).trans (bind_error (checkOverlap_fails hno) _))
  · have hlen : (pixelBytes (Q (s.pbdArg k)).data).length = 2 * (s.pbdArg k).width * (s.pbdArg k).height := by
      rw [length_pixelBytes, (PixelBuffer.wf_iff _).mp hQ, hw, hh, Nat.mul_assoc]
    have hpixels := holdsPixels_writeAll hm (s.pbdArg k).base hQ
    have hframe := (wroteBytes_writeAll hm (s.pbdArg k).base (pixelBytes (Q (s.pbdArg k)).data)).2
    rw [hw, hh] at hpixels
    rw [hlen] at hframe
    exact ⟨_, exec_of_effect ((ho.trans (bind_ok (checkPbd_of_input hp) _)).trans (bind_ok (checkOverlap_pass hno) _)),
      holdsPixels_congr hpixels hf, hframe⟩

/-! ### Regions that a command only reads -/

theorem RegionEntry.conflicts_comm (e f : RegionEntry) : e.conflicts f = f.conflicts e := by
  rw [Bool.eq_iff_iff, e.conflicts_iff, f.conflicts_iff]
  exact and_congr (by omega) or_comm

/-- An address in a region that a command reads is in none of its destinations, when no two of its entries conflict (R87). -/
theorem destinations_disjoint_read {s : State} {i : Instr} {f : RegionEntry} {a : Nat} (hno : s.NoOverlap i)
    (hf : f ∈ regionEntries s i) (hread : f.use = .read) (ha : f.region.has a = true) :
    ∀ r ∈ destinations s i, r.has a = false := by
  intro r hr
  simp only [destinations, List.mem_map, List.mem_filter] at hr
  obtain ⟨g, ⟨hg, hgw⟩, rfl⟩ := hr
  have hsymm : Std.Symm fun e f : RegionEntry => e.conflicts f = false :=
    ⟨fun e f h => (f.conflicts_comm e).trans h⟩
  have hne : f ≠ g := by
    rintro rfl
    simp [RegionEntry.writes, hread] at hgw
  have hfg := ((noConflict_iff _).mp hno).forall hf hg hne
  refine Bool.eq_false_iff.mpr fun hga => Bool.eq_false_iff.mp hfg ?_
  rw [RegionEntry.conflicts, hgw, Bool.or_true, Bool.true_and, Region.overlaps_iff]
  exact ⟨a, ha, hga⟩

/-- A command that completes without error leaves the bytes of the regions that it only reads. -/
theorem exec_keeps_read {s t : State} {i : Instr} {f : RegionEntry} (h : exec i s = .next t)
    (ht : t.status.errcode = .none) (hf : f ∈ regionEntries s i) (hread : f.use = .read) {a : Nat}
    (ha : f.region.has a = true) : t.lm.read a = s.lm.read a := by
  obtain ⟨e, hbound, -⟩ := exec_passes h ht
  exact onlyDestinationsChange i s t h a (destinations_disjoint_read hbound.noOverlap hf hread ha)

/-- A descriptor is given by its 16 bytes (10_state.md R45). -/
theorem readPbd_congr {m m' : Memory} {d : Nat} (h : ∀ j < 16, m'.read (d + j) = m.read (d + j)) :
    readPbd m' d = readPbd m d := by
  have hfield (o : Nat) (ho : o + 4 ≤ 16) : m'.readLe (d + o) 4 = m.readLe (d + o) 4 :=
    Memory.readLe_congr 4 fun j hj => by
      rw [Nat.add_assoc]
      exact h _ (by omega)
  rw [readPbd, hfield 4 (by omega), hfield 8 (by omega), hfield 12 (by omega)]
  exact congrArg (Pbd.mk · _ _ _) (hfield 0 (by omega))

/-- A command that completes without error leaves an input descriptor that it only reads, and that still passes its
checks. -/
theorem exec_keeps_inputPbd {s t : State} {i : Instr} {k : Fin 8} (h : exec i s = .next t)
    (ht : t.status.errcode = .none) (hk : ⟨.read, pbdRegion (s.argNat k)⟩ ∈ regionEntries s i) (hp : s.InputPbd k) :
    t.pbdArg k = s.pbdArg k ∧ t.InputPbd k := by
  have hparams : t.params = s.params := by rw [(commandFrame i s t h).1]
  have harg : t.argNat k = s.argNat k := by
    rw [(commandFrame i s t h).1]
    rfl
  have hpbd : t.pbdArg k = s.pbdArg k := by
    rw [State.pbdArg, State.pbdArg, harg]
    exact readPbd_congr fun j hj => exec_keeps_read h ht hk rfl <|
      (has_iff ..).mpr ⟨Nat.le_add_right .., Nat.add_lt_add_left hj _⟩
  refine ⟨hpbd, ?_⟩
  rwa [State.InputPbd, State.OutputPbd, State.StorageOk, State.RegionIn, hpbd, harg, hparams]

end Sys2Proof.Machine

open Sys2Proof Sys2Proof.Machine

/-- Settles O29: the pixel that the buffer of the first operand has there. -/
theorem pbGetResult : Obligations.PbGetResult := by
  intro s hp p x y
  have ho : outcome s .pbGet = .ok (s.effect [] [(0, ((loadBuffer s.lm p).get x y).setWidth 32)]) :=
    bind_ok (checkPbd_of_input hp) _
  refine (exec_of_effect ho).trans ?_
  rw [loadBuffer_get_word]
  rfl

/-- Settles O30: an overlap is the only error left; else the cells of the pixel are written, or none. -/
theorem pbSetResult : Obligations.PbSetResult := by
  intro s hp p x y
  have ho : outcome s .pbSet = checkOverlap s .pbSet >>= fun _ => pure (s.effect (pbSetCells p x y (s.arg16 3)) []) :=
    bind_ok (checkPbd_of_input hp) _
  refine ⟨fun hno => exec_of_error (ho.trans (bind_error (checkOverlap_fails hno) _)), fun hno hm =>
    ⟨_, exec_of_effect (ho.trans (bind_ok (checkOverlap_pass hno) _)), fun hin => ?_, fun hout => ?_⟩⟩
  · rw [pbSetCells, if_pos hin]
    refine ⟨(Memory.readLe_writeLe hm ..).trans (Nat.mod_eq_of_lt (s.arg16 3).isLt), ?_⟩
    have hframe := (wroteBytes_writeAll hm (pixelAddress p x y) (leBytes 2 (s.arg16 3).toNat)).2
    rwa [length_leBytes] at hframe
  · rw [pbSetCells, if_neg hout, Memory.writeAll_nil]

namespace Sys2Proof.Machine

/-- After PB_SET of a pixel in range, PB_GET of the same operands gives the value set (R158): the descriptor is not in the
storage that PB_SET writes. -/
theorem pbGet_after_pbSet {s t : State} (h0 : s.InputPbd 0) (hm : s.lm.wf = true) (ht : exec .pbSet s = .next t)
    (hcode : t.status.errcode = .none)
    (hin : 0 ≤ s.argInt 1 ∧ s.argInt 1 < (s.pbdArg 0).width ∧ 0 ≤ s.argInt 2 ∧ s.argInt 2 < (s.pbdArg 0).height) :
    ∃ u, exec .pbGet t = .next u ∧ u.res[(0 : Fin 4)] = (s.arg16 3).setWidth 32 := by
  obtain ⟨e, hbound, -⟩ := exec_passes ht hcode
  obtain ⟨lm', hexec, hset, -⟩ := (pbSetResult s h0).2 hbound.noOverlap hm
  obtain rfl := Host.Outcome.next.inj (hexec.symm.trans ht)
  obtain ⟨hpbd, hinput⟩ := exec_keeps_inputPbd ht hcode (List.mem_cons_self ..) h0
  refine ⟨_, pbGetResult _ hinput, (Vector.getElem_set_self _).trans ?_⟩
  rw [hpbd]
  exact (congrArg (BitVec.ofNat 32) ((if_pos hin).trans (hset hin).1)).trans (BitVec.ofNat_toNat ..)

end Sys2Proof.Machine

/-- Settles O31: the output is the window, of the size that two operands give. -/
theorem pbCropResult : Obligations.PbCropResult := fun s h0 =>
  exec_writesBuffer (bind_ok (checkPbd_of_input h0) _) (List.sublist_append_right ..) (PixelBuffer.crop_wf ..)
    (s.argNat_lt 3) (s.argNat_lt 4) fun _ _ hx hy => PixelBuffer.crop_get _ _ _ hx hy

/-- Settles O32: the output is the shifted buffer, of the source's size. -/
theorem pbShiftResult : Obligations.PbShiftResult := fun s h0 =>
  exec_writesBuffer (Q := (s.bufferArg 0).shift (s.argInt 1) (s.argInt 2)) (bind_ok (checkPbd_of_input h0) _)
    (List.sublist_append_right ..) (PixelBuffer.shift_wf ..) (readPbd_lt s.lm (s.argNat 0)).1
    (readPbd_lt s.lm (s.argNat 0)).2 fun _ _ hx hy => PixelBuffer.shift_get _ _ _ hx hy

/-- Settles O33: the destination's storage takes the blit, which has the destination's size. -/
theorem pbBlitResult : Obligations.PbBlitResult := fun _ alpha h0 =>
  exec_writesInPlace (bind_ok (checkPbd_of_input h0) _) (PixelBuffer.blit_wf ..) rfl rfl fun _ _ hx hy =>
    PixelBuffer.blit_get _ _ _ _ alpha hx hy

/-- Settles O34: the destination's storage takes the transplant, which has the destination's size. -/
theorem pbXplantResult : Obligations.PbXplantResult := fun _ h0 =>
  exec_writesInPlace (bind_ok (checkPbd_of_input h0) _) (PixelBuffer.transplant_wf ..) rfl rfl fun _ _ hx hy =>
    PixelBuffer.transplant_get _ _ _ _ hx hy

/-- Settles O36: the first law by O29 and O30, the others pixel by pixel. -/
theorem rasterLaws : Obligations.RasterLaws :=
  ⟨fun _ _ h0 hm ht hcode hin => pbGet_after_pbSet h0 hm ht hcode hin, fun _ hS => PixelBuffer.crop_full hS,
    fun S dx dy _ _ hx hy => S.shift_shift_get dx dy hx hy,
    fun D S dx dy _ _ hx hy => D.transplant_get_eq_zero_iff S dx dy hx hy,
    fun _ _ dx dy hD hS => PixelBuffer.blit_of_zero hD hS dx dy⟩

end

section
/-! SUPPORT. Bytes that stand at a position of a stream (42_frame_table.md R180, R181): a container is cut into its parts,
and a field is read back. -/

namespace Sys2Proof.Machine

/-! ### Bytes at a position -/

/-- The bytes `bs` stand in the stream from position p on. -/
def BytesAt (st : List Byte) (p : Nat) (bs : List Byte) : Prop := ∃ pre post, pre.length = p ∧ st = pre ++ bs ++ post

theorem bytesAt_self (st : List Byte) : BytesAt st 0 st := ⟨[], [], rfl, by simp⟩

namespace BytesAt

variable {st as bs : List Byte} {p : Nat}

theorem left (h : BytesAt st p (as ++ bs)) : BytesAt st p as := by
  obtain ⟨pre, post, hp, rfl⟩ := h
  exact ⟨pre, bs ++ post, hp, by simp⟩

theorem right (h : BytesAt st p (as ++ bs)) : BytesAt st (p + as.length) bs := by
  obtain ⟨pre, post, rfl, rfl⟩ := h
  exact ⟨pre ++ as, post, by simp, by simp⟩

theorem end_le (h : BytesAt st p bs) : p + bs.length ≤ st.length := by
  obtain ⟨pre, post, rfl, rfl⟩ := h
  simp

theorem drop_take (h : BytesAt st p bs) : (st.drop p).take bs.length = bs := by
  obtain ⟨pre, post, rfl, rfl⟩ := h
  simp

theorem inByte_cons {b : Byte} (h : BytesAt st p (b :: bs)) : inByte st p = b.toNat := by
  obtain ⟨pre, post, rfl, rfl⟩ := h
  simp [inByte, List.getD]

/-- A 16-bit field is read back modulo 2^16. -/
theorem in16_eq {v : Nat} (h : BytesAt st p (leBytes 2 v)) : in16 st false p = v % 2 ^ 16 := by
  have hlow : inByte st p = v % 2 ^ 8 := h.inByte_cons
  have hhigh : inByte st (p + 1) = v / 256 % 2 ^ 8 := (right (as := [BitVec.ofNat 8 v]) h).inByte_cons
  rw [in16, if_neg Bool.false_ne_true, hlow, hhigh]
  omega

theorem in16_of_lt {v : Nat} (h : BytesAt st p (leBytes 2 v)) (hv : v < 2 ^ 16) : in16 st false p = v :=
  h.in16_eq.trans (Nat.mod_eq_of_lt hv)

/-- A 32-bit field is read back modulo 2^32. -/
theorem in32_eq {v : Nat} (h : BytesAt st p (leBytes 4 v)) : in32 st false p = v % 2 ^ 32 := by
  have hlow : in16 st false p = v % 2 ^ 16 := in16_eq (left (as := leBytes 2 v) (bs := leBytes 2 (v / 256 / 256)) h)
  have hhigh : in16 st false (p + 2) = v / 256 / 256 % 2 ^ 16 := in16_eq (right (as := leBytes 2 v) h)
  rw [in32, if_neg Bool.false_ne_true, hlow, hhigh]
  omega

/-- One item of a list written item after item. -/
theorem flatMap_item {α : Type} {f : α → List Byte} {xs : List α} {k : Nat} {x : α} (h : BytesAt st p (xs.flatMap f))
    (hk : xs[k]? = some x) : BytesAt st (p + ((xs.take k).map fun x => (f x).length).sum) (f x) := by
  induction xs generalizing p k with
  | nil => simp at hk
  | cons y ys ih =>
    rw [List.flatMap_cons] at h
    cases k with
    | zero =>
      obtain rfl : y = x := by simpa using hk
      exact h.left
    | succ k =>
      have := ih h.right (by simpa using hk)
      rwa [List.take_succ_cons, List.map_cons, List.sum_cons, ← Nat.add_assoc]

/-- One item of a list written item after item, each of n bytes. -/
theorem flatMap_item_of_length {α : Type} {f : α → List Byte} {n : Nat} (hlen : ∀ x, (f x).length = n) {xs : List α}
    {k : Nat} {x : α} (h : BytesAt st p (xs.flatMap f)) (hk : xs[k]? = some x) : BytesAt st (p + n * k) (f x) := by
  have hle : k ≤ xs.length := (List.getElem?_eq_some_iff.mp hk).1.le
  have hitem := h.flatMap_item hk
  rwa [List.map_congr_left fun x _ => hlen x, List.map_const', List.sum_replicate, List.length_take_of_le hle, smul_eq_mul,
    Nat.mul_comm] at hitem

end BytesAt

/-- A list of pixels written as bytes is read back as the samples of a little-endian RGB565 stream (R187). -/
theorem samples_pixelBytes {st : List Byte} {c : Bool} {p : Nat} {ps : List Pixel} (h : BytesAt st p (pixelBytes ps)) :
    samples st ⟨c, .rgb565, false⟩ p ps.length = ps := by
  refine List.ext_getElem (length_samples ..) fun i _ hi => ?_
  have hread := (BytesAt.flatMap_item_of_length (fun _ => length_leBytes ..) h (List.getElem?_eq_getElem hi)).in16_of_lt
    ps[i].isLt
  simp [samples, conv, hread]

/-! ### A table of entries -/

/-- A table with one entry per frame, each entry written with the position of its frame's data, the first at `pos`. -/
def tableFrom (entry : Nat → PixelBuffer → List Byte) (size : PixelBuffer → Nat) : Nat → List PixelBuffer → List Byte
  | _, [] => []
  | pos, F :: rest => entry pos F ++ tableFrom entry size (pos + size F) rest

section
variable {entry : Nat → PixelBuffer → List Byte} {size entrySize : PixelBuffer → Nat}

theorem length_tableFrom (hlen : ∀ pos F, (entry pos F).length = entrySize F) (pos : Nat) (fs : List PixelBuffer) :
    (tableFrom entry size pos fs).length = (fs.map entrySize).sum := by
  induction fs generalizing pos with
  | nil => rfl
  | cons F fs ih => simp [tableFrom, hlen, ih]

/-- Entry k stands behind the entries before it, and is written with the position behind the data of their frames. -/
theorem BytesAt.table_entry (hlen : ∀ pos F, (entry pos F).length = entrySize F) {st : List Byte} {p pos k : Nat}
    {fs : List PixelBuffer} {F : PixelBuffer} (h : BytesAt st p (tableFrom entry size pos fs)) (hk : fs[k]? = some F) :
    BytesAt st (p + ((fs.take k).map entrySize).sum) (entry (pos + ((fs.take k).map size).sum) F) := by
  induction fs generalizing p pos k with
  | nil => simp at hk
  | cons G fs ih =>
    rw [tableFrom] at h
    cases k with
    | zero =>
      obtain rfl : G = F := by simpa using hk
      exact h.left
    | succ k =>
      have := ih h.right (by simpa using hk)
      rwa [hlen, Nat.add_assoc, Nat.add_assoc] at this
end

end Sys2Proof.Machine
end

section
/-! SUPPORT. The runs of a row (42_frame_table.md R198, R203): its maximal runs of one class, and the chunks into which
they are cut. -/

namespace Sys2Proof.Machine

/-! ### Maximal runs -/

/-- A run: there is a pixel, and every pixel is of the first one's class. -/
def OneClass (run : List Pixel) : Prop := run ≠ [] ∧ ∀ p ∈ run, opaquePixel p = opaqueChunk run

@[simp] theorem opaqueChunk_cons (p : Pixel) (run : List Pixel) : opaqueChunk (p :: run) = opaquePixel p := rfl

theorem oneClass_singleton (p : Pixel) : OneClass [p] := ⟨by simp, by simp⟩

theorem oneClass_replicate {n : Nat} (hn : n ≠ 0) (p : Pixel) : OneClass (List.replicate n p) := by
  obtain ⟨n, rfl⟩ := Nat.exists_eq_succ_of_ne_zero hn
  exact ⟨by simp, fun q hq => congrArg _ (List.eq_of_mem_replicate hq)⟩

theorem OneClass.cons {p : Pixel} {run : List Pixel} (h : OneClass run) (hp : opaquePixel p = opaqueChunk run) :
    OneClass (p :: run) :=
  ⟨by simp, List.forall_mem_cons.mpr ⟨rfl, fun q hq => (h.2 q hq).trans hp.symm⟩⟩

/-- Pixels out of a run are a run of the same class. -/
theorem OneClass.of_subset {run c : List Pixel} (h : OneClass run) (hc : c ≠ []) (hsub : c ⊆ run) :
    OneClass c ∧ opaqueChunk c = opaqueChunk run := by
  obtain ⟨q, c, rfl⟩ := List.exists_cons_of_ne_nil hc
  have hq := h.2 q (hsub (by simp))
  exact ⟨⟨hc, fun p hp => (h.2 p (hsub hp)).trans hq.symm⟩, hq⟩

/-- The two ways in which a pixel is put in front of runs. -/
theorem consRun_cases (p : Pixel) {runs : List (List Pixel)} (h : ∀ run ∈ runs, run ≠ []) :
    (consRun p runs = [p] :: runs ∧ ∀ run ∈ runs.head?, opaquePixel p ≠ opaqueChunk run) ∨
    ∃ run rest, runs = run :: rest ∧ opaquePixel p = opaqueChunk run ∧ consRun p runs = (p :: run) :: rest := by
  match runs with
  | [] => exact .inl ⟨rfl, by simp⟩
  | [] :: _ => exact absurd rfl (h [] (by simp))
  | (q :: run) :: rest =>
    by_cases hq : opaquePixel p = opaquePixel q
    · exact .inr ⟨_, _, rfl, hq, if_pos hq⟩
    · exact .inl ⟨if_neg hq, by simpa using hq⟩

/-- Runs as R198 cuts a row: each of one class, and of another class than the run before it. -/
def CutByClass (runs : List (List Pixel)) : Prop :=
  (∀ run ∈ runs, OneClass run) ∧ runs.IsChain fun r q => opaqueChunk r ≠ opaqueChunk q

theorem CutByClass.consRun {runs : List (List Pixel)} (h : CutByClass runs) (p : Pixel) :
    CutByClass (consRun p runs) ∧ (consRun p runs).flatten = p :: runs.flatten := by
  obtain ⟨hruns, hchain⟩ := h
  obtain ⟨heq, hnew⟩ | ⟨run, rest, rfl, hp, heq⟩ := consRun_cases p fun run hr => (hruns run hr).1
  · rw [heq]
    exact ⟨⟨List.forall_mem_cons.mpr ⟨oneClass_singleton p, hruns⟩, List.isChain_cons.mpr ⟨hnew, hchain⟩⟩, rfl⟩
  · rw [heq]
    obtain ⟨hrun, hrest⟩ := List.forall_mem_cons.mp hruns
    obtain ⟨hnext, htail⟩ := List.isChain_cons.mp hchain
    exact ⟨⟨List.forall_mem_cons.mpr ⟨hrun.cons hp, hrest⟩,
      List.isChain_cons.mpr ⟨fun q hq => ne_of_eq_of_ne hp (hnext q hq), htail⟩⟩, rfl⟩

theorem maximalRuns_cut (row : List Pixel) : CutByClass (maximalRuns row) ∧ (maximalRuns row).flatten = row := by
  induction row with
  | nil => exact ⟨⟨by simp [maximalRuns], .nil⟩, rfl⟩
  | cons p row ih =>
    obtain ⟨hcut, hflat⟩ := ih
    obtain ⟨hcut', hflat'⟩ := hcut.consRun p
    exact ⟨hcut', hflat'.trans (congrArg _ hflat)⟩

theorem oneClass_of_mem_maximalRuns {row run : List Pixel} (h : run ∈ maximalRuns row) : OneClass run :=
  (maximalRuns_cut row).1.1 run h

/-- A run of one class is its only maximal run. -/
theorem OneClass.maximalRuns_eq {run : List Pixel} (h : OneClass run) : maximalRuns run = [run] := by
  induction run with
  | nil => exact absurd rfl h.1
  | cons p run ih =>
    match run with
    | [] => rfl
    | q :: run =>
      obtain ⟨hrun, hclass⟩ := h.of_subset (c := q :: run) (by simp) (List.subset_cons_self ..)
      show consRun p (maximalRuns (q :: run)) = _
      rw [ih hrun]
      exact if_pos hclass.symm

/-! ### Chunks -/

/-- Induction over the chunks of a run: one in front, of the first `maxRun` pixels, while there are pixels. -/
theorem chunks_induction {motive : List Pixel → List (List Pixel) → Prop} (nil : motive [] [])
    (cons : ∀ run cs, run ≠ [] → motive (run.drop maxRun) cs → motive run (run.take maxRun :: cs)) (fuel : Nat)
    (run : List Pixel) (h : run.length ≤ fuel) : motive run (chunks fuel run) := by
  induction fuel generalizing run with
  | zero =>
    obtain rfl := List.length_eq_zero_iff.mp (Nat.le_zero.mp h)
    exact nil
  | succ fuel ih =>
    rw [chunks]
    split
    · next hrun => exact hrun ▸ nil
    · next hrun => exact cons run _ hrun (ih _ (by rw [List.length_drop, maxRun]; omega))

theorem flatten_chunks (run : List Pixel) : (chunks run.length run).flatten = run := by
  refine chunks_induction (motive := fun run cs => cs.flatten = run) rfl (fun run cs _ ih => ?_) _ run le_rfl
  rw [List.flatten_cons, ih, List.take_append_drop]

/-- A run of length L is ceil(L / 16383) chunks (R203). -/
theorem length_chunks (run : List Pixel) : (chunks run.length run).length = (run.length + 16382) / 16383 := by
  refine chunks_induction (motive := fun run cs => cs.length = (run.length + 16382) / 16383) rfl
    (fun run cs hrun ih => ?_) _ run le_rfl
  have hpos := List.length_pos_iff.mpr hrun
  rw [List.length_cons, ih, List.length_drop, maxRun]
  omega

/-- Every chunk but the last is full (R198). -/
theorem length_of_mem_dropLast_chunks (run : List Pixel) : ∀ c ∈ (chunks run.length run).dropLast, c.length = 16383 := by
  refine (chunks_induction (motive := fun run cs => (run = [] → cs = []) ∧ ∀ c ∈ cs.dropLast, c.length = 16383)
    (by simp) (fun run cs hrun ih => ⟨fun h => absurd h hrun, ?_⟩) _ run le_rfl).2
  match cs, ih with
  | [], _ => simp
  | d :: cs, ⟨hmore, hfull⟩ =>
    have hlen : maxRun < run.length := Nat.lt_of_not_le fun hle => by simpa using hmore (List.drop_eq_nil_of_le hle)
    rw [List.dropLast_cons_cons]
    exact List.forall_mem_cons.mpr ⟨List.length_take_of_le hlen.le, hfull⟩

theorem mem_chunks {run c : List Pixel} (h : c ∈ chunks run.length run) : c ≠ [] ∧ c.length ≤ 16383 ∧ c ⊆ run := by
  refine chunks_induction (motive := fun run cs => ∀ c ∈ cs, c ≠ [] ∧ c.length ≤ 16383 ∧ c ⊆ run) (by simp)
    (fun run cs hrun ih => ?_) _ run le_rfl c h
  refine List.forall_mem_cons.mpr ⟨⟨by simpa [maxRun] using hrun, List.length_take_le .., List.take_subset ..⟩, fun c hc => ?_⟩
  obtain ⟨hne, hlen, hsub⟩ := ih c hc
  exact ⟨hne, hlen, List.Subset.trans hsub (List.drop_subset ..)⟩

/-! ### Chunks of a row -/

/-- What R198 requires of a chunk: one class, and at most 16383 pixels. -/
def IsChunk (c : List Pixel) : Prop := OneClass c ∧ c.length ≤ 16383

theorem OneClass.rowChunks_eq {run : List Pixel} (h : OneClass run) : rowChunks run = chunks run.length run := by
  rw [rowChunks, h.maximalRuns_eq, List.flatMap_singleton]

theorem rowChunks_flatMap (row : List Pixel) : rowChunks row = (maximalRuns row).flatMap rowChunks :=
  List.flatMap_congr fun _ hrun => (oneClass_of_mem_maximalRuns hrun).rowChunks_eq.symm

theorem OneClass.flatten_rowChunks {run : List Pixel} (h : OneClass run) : (rowChunks run).flatten = run := by
  rw [h.rowChunks_eq, flatten_chunks]

theorem OneClass.length_rowChunks {run : List Pixel} (h : OneClass run) :
    (rowChunks run).length = (run.length + 16382) / 16383 := by
  rw [h.rowChunks_eq, length_chunks]

theorem rowChunks_flatten (row : List Pixel) : (rowChunks row).flatten = row := by
  calc (rowChunks row).flatten = ((maximalRuns row).map fun run => (rowChunks run).flatten).flatten := by
        rw [rowChunks_flatMap, List.flatMap, List.flatten_flatten, List.map_map]; rfl
    _ = ((maximalRuns row).map id).flatten :=
        congrArg _ (List.map_congr_left fun _ hrun => (oneClass_of_mem_maximalRuns hrun).flatten_rowChunks)
    _ = row := by rw [List.map_id, (maximalRuns_cut row).2]

theorem isChunk_of_mem_rowChunks {row c : List Pixel} (h : c ∈ rowChunks row) : IsChunk c := by
  obtain ⟨run, hrun, hc⟩ := List.mem_flatMap.mp h
  obtain ⟨hne, hlen, hsub⟩ := mem_chunks hc
  exact ⟨((oneClass_of_mem_maximalRuns hrun).of_subset hne hsub).1, hlen⟩

/-- The length and the class are read back from a run header (R188). -/
theorem runHeader_fields (c : List Pixel) : runHeader c / 2 = c.length ∧ (runHeader c % 2 = 1 ↔ opaqueChunk c = true) := by
  rw [runHeader]
  cases opaqueChunk c with
  | false => simp
  | true => simp; omega

theorem IsChunk.runHeader_ne_zero {c : List Pixel} (h : IsChunk c) : runHeader c ≠ 0 := by
  have hpos := List.length_pos_iff.mpr h.1.1
  have hlen := (runHeader_fields c).1
  omega

theorem IsChunk.runHeader_lt {c : List Pixel} (h : IsChunk c) : runHeader c < 2 ^ 16 := by
  have hlen := (runHeader_fields c).1
  have hle := h.2
  omega

end Sys2Proof.Machine

open Sys2Proof Sys2Proof.Machine

/-- Settles O45: the maximal runs are the row cut by class, and each is cut into chunks on its own. -/
theorem runsAreSplitAndBounded : Obligations.RunsAreSplitAndBounded := by
  intro row
  obtain ⟨⟨hruns, hchain⟩, hflat⟩ := maximalRuns_cut row
  refine ⟨rfl, rowChunks_flatten row, hflat, hruns, hchain, rowChunks_flatMap row, fun run hrun => ?_, fun c hc => ?_, ?_,
    fun p _ hrow => ?_⟩
  · have h := hruns run hrun
    refine ⟨h.flatten_rowChunks, h.length_rowChunks, ?_⟩
    rw [h.rowChunks_eq]
    exact length_of_mem_dropLast_chunks run
  · have h := isChunk_of_mem_rowChunks hc
    exact ⟨List.length_pos_iff.mpr h.1.1, h.2, h.1.2, h.runHeader_ne_zero, runHeader_fields c⟩
  · rw [rowChunks_flatMap, List.length_flatMap]
    exact congrArg _ (List.map_congr_left fun run hrun => (hruns run hrun).length_rowChunks)
  · rw [hrow, (oneClass_replicate (Nat.succ_ne_zero 19999) p).length_rowChunks, List.length_replicate]

end

section
/-! SUPPORT. The frame-table parser (42_frame_table.md R182 to R186): what IDENT, FT_HDR and FT_ENT read from a stream,
check by check. -/

namespace Sys2Proof.Machine

/-! ### Identification -/

@[simp] theorem State.length_stream (s : State) : s.stream.length = s.argNat 1 := Memory.length_bytes ..

theorem identify_eq_none_of_short {st : List Byte} (h : st.length < 4) : identify st = none := if_pos h

theorem identify_eq_magicDescriptor {st : List Byte} (h : 4 ≤ st.length) :
    identify st = magicDescriptor (in32 st false 0) := if_neg (Nat.not_lt.mpr h)

theorem length_of_identify {st : List Byte} {d : Descriptor} (h : identify st = some d) : 4 ≤ st.length := by
  by_contra hlen
  rw [identify_eq_none_of_short (Nat.not_le.mp hlen)] at h
  cases h

theorem identifyWord_eq_zero {st : List Byte} (h : identify st = none) : identifyWord st = 0#32 := by
  rw [identifyWord, h]

theorem identifyWord_of_magic {st : List Byte} {m : Nat} {d : Descriptor} (hm : magicDescriptor m = some d)
    (hlen : 4 ≤ st.length) (h : in32 st false 0 = m) : identifyWord st = d.word := by
  rw [identifyWord, identify_eq_magicDescriptor hlen, h, hm]

theorem magicDescriptor_eq_none {m : Nat}
    (h : m ∉ [0x00000000, 0x00000001, 0x00000002, 0x00000003, 0x01000000, 0x03000000]) : magicDescriptor m = none := by
  simp only [List.mem_cons, List.not_mem_nil, or_false, not_or] at h
  simp [magicDescriptor, h]

/-! ### The header -/

section
variable {st : List Byte} {d : Descriptor} {k : Nat}

theorem header_short (h : st.length < 4) : header st = .error .truncatedHeader :=
  bind_error (require_eq_error _ (decide_eq_false (Nat.not_le.mpr h))) _

theorem header_unknown (hlen : 4 ≤ st.length) (h : identify st = none) : header st = .error .unknownFormat :=
  (bind_ok (require_pass _ (decide_eq_true hlen)) _).trans (by rw [h])

/-- The header of an identified stream: its frame count is the one check left (R193). -/
theorem header_identified (h : identify st = some d) :
    header st = require (decide (6 ≤ st.length)) .truncatedHeader >>= fun _ => pure (d, in16 st d.big 4) :=
  (bind_ok (require_pass _ (decide_eq_true (length_of_identify h))) _).trans (by rw [h])

theorem header_cut (h : identify st = some d) (hlen : st.length < 6) : header st = .error .truncatedHeader :=
  (header_identified h).trans (bind_error (require_eq_error _ (decide_eq_false (Nat.not_le.mpr hlen))) _)

theorem header_ok (h : identify st = some d) (hlen : 6 ≤ st.length) : header st = .ok (d, in16 st d.big 4) :=
  (header_identified h).trans (bind_ok (require_pass _ (decide_eq_true hlen)) _)

/-! ### Entries -/

theorem parseEntry_of_header_error {e : ErrCode} (h : header st = .error e) (k : Nat) : parseEntry st k = .error e :=
  bind_error h _

theorem parseEntry_index (h : identify st = some d) (hlen : 6 ≤ st.length) (hk : in16 st d.big 4 ≤ k) :
    parseEntry st k = .error .frameIndex :=
  (bind_ok (header_ok h hlen) _).trans <|
    bind_error (bind_error (require_eq_error _ (decide_eq_false (Nat.not_lt.mpr hk))) _) _

theorem parseEntry_cut (h : identify st = some d) (hlen : 6 ≤ st.length) (hk : k < in16 st d.big 4)
    (hp : st.length < entryPosition st d k + 8) : parseEntry st k = .error .truncatedHeader :=
  (bind_ok (header_ok h hlen) _).trans <| bind_error ((bind_ok (require_pass _ (decide_eq_true hk)) _).trans
    (bind_error (require_eq_error _ (decide_eq_false (Nat.not_le.mpr hp))) _)) _

theorem parseEntry_ok (h : identify st = some d) (hlen : 6 ≤ st.length) (hk : k < in16 st d.big 4)
    (hp : entryPosition st d k + 8 ≤ st.length) : parseEntry st k = .ok (d, entryAt st d (entryPosition st d k)) :=
  (bind_ok (header_ok h hlen) _).trans <| bind_ok ((bind_ok (require_pass _ (decide_eq_true hk)) _).trans
    (bind_ok (require_pass _ (decide_eq_true hp)) _)) _

end

theorem entryPosition_raw (st : List Byte) {d : Descriptor} (hd : d.compressed = false) (k : Nat) :
    entryPosition st d k = 6 + 8 * k := by
  induction k with
  | zero => rfl
  | succ k ih => simp [entryPosition, hd, ih, Nat.mul_succ, Nat.add_assoc]

theorem entryPosition_succ_rle (st : List Byte) {d : Descriptor} (hd : d.compressed = true) (k : Nat) :
    entryPosition st d (k + 1) = entryPosition st d k + 8 + 4 * (in16 st d.big (entryPosition st d k + 6) - 1) := by
  simp [entryPosition, hd, entryAt]

theorem six_le_entryPosition (st : List Byte) (d : Descriptor) (k : Nat) : 6 ≤ entryPosition st d k := by
  induction k with
  | zero => exact le_rfl
  | succ k ih =>
    rw [entryPosition]
    split <;> omega

end Sys2Proof.Machine

open Sys2Proof Sys2Proof.Machine

/-- Settles O37: the stream region is the only check, and the six magics are read off the table of R182. -/
theorem identResult : Obligations.IdentResult := by
  have ho (s : State) : outcome s .ident =
      checkRegion s s.streamEntry.region >>= fun _ => pure (s.effect [] [(0, identifyWord s.stream)]) := rfl
  refine ⟨fun s hr => exec_of_effect ((ho s).trans (bind_ok (checkRegion_pass hr) _)),
    fun s hr => exec_of_error (bind_error (checkRegion_fails hr) _), fun st => ⟨fun hlen => ?_,
      fun hlen hm => (identifyWord_of_magic rfl hlen hm).trans (by decide),
      fun hlen hm => (identifyWord_of_magic rfl hlen hm).trans (by decide),
      fun hlen hm => (identifyWord_of_magic rfl hlen hm).trans (by decide),
      fun hlen hm => (identifyWord_of_magic rfl hlen hm).trans (by decide),
      fun hlen hm => (identifyWord_of_magic rfl hlen hm).trans (by decide),
      fun hlen hm => (identifyWord_of_magic rfl hlen hm).trans (by decide), fun hm => ?_⟩⟩
  · exact identifyWord_eq_zero (identify_eq_none_of_short hlen)
  · rcases Nat.lt_or_ge st.length 4 with hlen | hlen
    · exact identifyWord_eq_zero (identify_eq_none_of_short hlen)
    · exact identifyWord_eq_zero ((identify_eq_magicDescriptor hlen).trans (magicDescriptor_eq_none hm))

/-- Settles O38: the header's checks follow that of the stream region. -/
theorem ftHdrResult : Obligations.FtHdrResult := by
  refine fun s => ⟨fun hr => exec_of_error (bind_error (checkRegion_fails hr) _), fun hr => ?_⟩
  have ho : outcome s .ftHdr = header s.stream >>= fun dc => pure (s.effect [] [(0, dc.1.word), (1, toWord dc.2)]) :=
    bind_ok (checkRegion_pass hr) _
  have hfails {e : ErrCode} (h : header s.stream = .error e) : exec .ftHdr s = .next (s.failedWith e) :=
    exec_of_error (ho.trans (bind_error h _))
  rw [← s.length_stream]
  exact ⟨fun hlen => hfails (header_short hlen), fun hlen hid => hfails (header_unknown hlen hid), fun d hid =>
    ⟨fun hlen => hfails (header_cut hid hlen), fun hlen => exec_of_effect (ho.trans (bind_ok (header_ok hid hlen) _))⟩⟩

/-- Settles O39: the parser's checks follow that of the stream region. -/
theorem ftEntResult : Obligations.FtEntResult := by
  refine ⟨fun st d k hd => entryPosition_raw st hd k, fun st d k hd => ⟨rfl, entryPosition_succ_rle st hd k⟩, fun s =>
    ⟨fun hr => exec_of_error (bind_error (checkRegion_fails hr) _), fun hr => ?_⟩⟩
  have ho : outcome s .ftEnt = parseEntry s.stream (s.argNat 2) >>= fun de => pure (s.effect []
      [(0, toWord de.2.offset), (1, toWord de.2.width), (2, toWord de.2.height), (3, toWord de.2.position)]) :=
    bind_ok (checkRegion_pass hr) _
  have hfails {e : ErrCode} (h : parseEntry s.stream (s.argNat 2) = .error e) : exec .ftEnt s = .next (s.failedWith e) :=
    exec_of_error (ho.trans (bind_error h _))
  rw [← s.length_stream]
  exact ⟨fun hlen => hfails (parseEntry_of_header_error (header_short hlen) _),
    fun hlen hid => hfails (parseEntry_of_header_error (header_unknown hlen hid) _), fun d hid =>
    ⟨fun hlen => hfails (parseEntry_of_header_error (header_cut hid hlen) _),
      fun hlen hk => hfails (parseEntry_index hid hlen hk), fun hlen hk hp => hfails (parseEntry_cut hid hlen hk hp),
      fun hlen hk hp => exec_of_effect (ho.trans (bind_ok (parseEntry_ok hid hlen hk hp) _))⟩⟩

end

section
/-! SUPPORT. The RLE decoder (42_frame_table.md R188, R190): its bound on runs, the rows that RowRLE writes, and the loop of
R190. -/

namespace Sys2Proof.Machine

/-! ### One run -/

section
variable (st : List Byte) (d : Descriptor) (fuel pos : Nat)

/-- A header of 0 ends the row. -/
theorem decodeRuns_end (h : in16 st d.big pos = 0) :
    decodeRuns st d (fuel + 1) pos = ([], pos + 2, decide (st.length < pos + 2)) := by
  simp [decodeRuns, h]

/-- An odd header is followed by its samples. -/
theorem decodeRuns_opaque (h : in16 st d.big pos % 2 = 1) :
    decodeRuns st d (fuel + 1) pos =
      (samples st d (pos + 2) (in16 st d.big pos / 2) ++
          (decodeRuns st d fuel (pos + 2 + 2 * (in16 st d.big pos / 2))).1,
        (decodeRuns st d fuel (pos + 2 + 2 * (in16 st d.big pos / 2))).2.1,
        decide (st.length < pos + 2) ||
            decide (0 < in16 st d.big pos / 2 ∧ st.length < pos + 2 + 2 * (in16 st d.big pos / 2)) ||
          (decodeRuns st d fuel (pos + 2 + 2 * (in16 st d.big pos / 2))).2.2) := by
  have h0 : in16 st d.big pos ≠ 0 := fun h0 => by simp [h0] at h
  rw [decodeRuns, if_neg h0, if_pos h]

/-- An even header that is not 0 stands for transparent pixels. -/
theorem decodeRuns_clear (h0 : in16 st d.big pos ≠ 0) (h : in16 st d.big pos % 2 = 0) :
    decodeRuns st d (fuel + 1) pos =
      (List.replicate (in16 st d.big pos / 2) 0#16 ++ (decodeRuns st d fuel (pos + 2)).1,
        (decodeRuns st d fuel (pos + 2)).2.1,
        decide (st.length < pos + 2) || (decodeRuns st d fuel (pos + 2)).2.2) := by
  rw [decodeRuns, if_neg h0, if_neg (by omega)]

end

theorem inByte_past {st : List Byte} {i : Nat} (h : st.length ≤ i) : inByte st i = 0 := by
  simp [inByte, List.getD, h]

/-- A header read past the end is 0 (R181), so that every other one lies inside the stream. -/
theorem lt_length_of_in16 {st : List Byte} {b : Bool} {pos : Nat} (h : in16 st b pos ≠ 0) : pos < st.length := by
  by_contra hpos
  have hpos := Nat.not_lt.mp hpos
  simp [in16, inByte_past hpos, inByte_past (Nat.le_succ_of_le hpos)] at h

/-- Any two bounds above the bytes left give the same row: each run that is not the last takes bytes of the stream. -/
theorem decodeRuns_fuel (st : List Byte) (d : Descriptor) {fuel fuel' pos : Nat} (h : st.length - pos < fuel)
    (h' : st.length - pos < fuel') : decodeRuns st d fuel pos = decodeRuns st d fuel' pos := by
  induction fuel generalizing fuel' pos with
  | zero => omega
  | succ fuel ih =>
    obtain ⟨fuel', rfl⟩ := Nat.exists_eq_add_one_of_ne_zero (Nat.ne_zero_of_lt h')
    by_cases h0 : in16 st d.big pos = 0
    · rw [decodeRuns_end _ _ _ _ h0, decodeRuns_end _ _ _ _ h0]
    have hpos := lt_length_of_in16 h0
    obtain heven | hodd := Nat.mod_two_eq_zero_or_one (in16 st d.big pos)
    · rw [decodeRuns_clear _ _ _ _ h0 heven, decodeRuns_clear _ _ _ _ h0 heven, ih (fuel' := fuel') (by omega) (by omega)]
    · rw [decodeRuns_opaque _ _ _ _ hodd, decodeRuns_opaque _ _ _ _ hodd, ih (fuel' := fuel') (by omega) (by omega)]

/-! ### The rows that RowRLE writes -/

/-- The descriptor of the stream that the RLE writer writes: compressed, RGB565, little-endian (R182, R199). -/
def rleDescriptor : Descriptor := ⟨true, .rgb565, false⟩

theorem IsChunk.eq_replicate {c : List Pixel} (h : IsChunk c) (hc : opaqueChunk c = false) :
    List.replicate c.length 0#16 = c :=
  (List.eq_replicate_of_mem fun p hp => by simpa [opaquePixel] using (h.1.2 p hp).trans hc).symm

theorem chunkBytes_opaque {c : List Pixel} (h : opaqueChunk c = true) :
    chunkBytes c = leBytes 2 (runHeader c) ++ pixelBytes c := by rw [chunkBytes, if_pos h]

theorem chunkBytes_clear {c : List Pixel} (h : opaqueChunk c = false) : chunkBytes c = leBytes 2 (runHeader c) := by
  rw [chunkBytes, if_neg (by simp [h]), List.append_nil]

/-- One chunk comes back as its pixels, in front of what the stream holds behind it. -/
theorem decodeRuns_chunk {st : List Byte} {c : List Pixel} (hc : IsChunk c) (fuel : Nat) {pos : Nat}
    (h : BytesAt st pos (chunkBytes c)) :
    decodeRuns st rleDescriptor (fuel + 1) pos =
      (c ++ (decodeRuns st rleDescriptor fuel (pos + (chunkBytes c).length)).1,
        (decodeRuns st rleDescriptor fuel (pos + (chunkBytes c).length)).2) := by
  obtain ⟨hn, hclass⟩ := runHeader_fields c
  have hend := h.end_le
  cases hop : opaqueChunk c with
  | false =>
    rw [chunkBytes_clear hop] at h hend ⊢
    rw [length_leBytes] at hend ⊢
    have hhead : in16 st rleDescriptor.big pos = runHeader c := h.in16_of_lt hc.runHeader_lt
    rw [hop] at hclass
    rw [decodeRuns_clear _ _ _ _ (hhead ▸ hc.runHeader_ne_zero) (by rw [hhead]; simpa using hclass), hhead, hn,
      hc.eq_replicate hop, decide_eq_false (Nat.not_lt.mpr hend), Bool.false_or]
  | true =>
    rw [chunkBytes_opaque hop] at h hend ⊢
    rw [List.length_append, length_leBytes, length_pixelBytes, ← Nat.add_assoc] at hend ⊢
    have hhead : in16 st rleDescriptor.big pos = runHeader c := h.left.in16_of_lt hc.runHeader_lt
    have hpixels : samples st rleDescriptor (pos + 2) c.length = c := samples_pixelBytes h.right
    rw [decodeRuns_opaque _ _ _ _ (by rw [hhead]; exact hclass.mpr hop), hhead, hn, hpixels,
      decide_eq_false (by omega), decide_eq_false (by omega), Bool.false_or, Bool.false_or]

/-- The runs of a row come back as its pixels. -/
theorem decodeRuns_chunks {st : List Byte} {cs : List (List Pixel)} (hcs : ∀ c ∈ cs, IsChunk c) {fuel pos : Nat}
    (hfuel : cs.length < fuel) (h : BytesAt st pos (cs.flatMap chunkBytes ++ leBytes 2 0)) :
    decodeRuns st rleDescriptor fuel pos = (cs.flatten, pos + (cs.flatMap chunkBytes ++ leBytes 2 0).length, false) := by
  induction cs generalizing fuel pos with
  | nil =>
    obtain ⟨fuel, rfl⟩ := Nat.exists_eq_add_one_of_ne_zero (Nat.ne_zero_of_lt hfuel)
    have hend : pos + 2 ≤ st.length := h.end_le
    rw [decodeRuns_end _ _ _ _ (h.in16_of_lt (by decide)), decide_eq_false (Nat.not_lt.mpr hend)]
    rfl
  | cons c cs ih =>
    obtain ⟨fuel, rfl⟩ := Nat.exists_eq_add_one_of_ne_zero (Nat.ne_zero_of_lt hfuel)
    obtain ⟨hc, hcs⟩ := List.forall_mem_cons.mp hcs
    rw [List.flatMap_cons, List.append_assoc] at h ⊢
    rw [decodeRuns_chunk hc fuel h.left, ih hcs (Nat.lt_of_succ_lt_succ hfuel) h.right,
      List.length_append (as := chunkBytes c), ← Nat.add_assoc]
    rfl

/-- A row comes back from its bytes, with the position behind them: the bound on runs can be taken as large as wanted. -/
theorem decodeRuns_rowRle {st : List Byte} {row : List Pixel} {pos : Nat} (h : BytesAt st pos (rowRle row)) :
    decodeRuns st rleDescriptor (st.length + 1) pos = (row, pos + (rowRle row).length, false) := by
  rw [decodeRuns_fuel (fuel' := st.length + 1 + (rowChunks row).length) st _ (by omega) (by omega),
    decodeRuns_chunks (fun _ => isChunk_of_mem_rowChunks) (by omega) h, rowChunks_flatten]
  rfl

theorem fitRow_self (ps : List Pixel) : fitRow ps.length ps = ps := by simp [fitRow]

/-- Rows of one width come back from their bytes. -/
theorem decodeRows_rowRle {st : List Byte} {w pos : Nat} {rows : List (List Pixel)} (hw : ∀ row ∈ rows, row.length = w)
    (h : BytesAt st pos (rows.map rowRle).flatten) :
    decodeRows st rleDescriptor w rows.length pos = (rows.flatten, false) := by
  induction rows generalizing pos with
  | nil => rfl
  | cons row rows ih =>
    obtain ⟨rfl, hw⟩ := List.forall_mem_cons.mp hw
    rw [List.map_cons, List.flatten_cons] at h
    rw [List.length_cons, decodeRows, decodeRuns_rowRle h.left, ih hw h.right, fitRow_self]
    rfl

/-! ### The loop of R190 -/

/-- The buffer of w x h in which the rows `done` stand, then a row as far as its pixels `ps` go, then `rest`. -/
def rowBuffer (w h : Nat) (done ps rest : List Pixel) : PixelBuffer := ⟨w, h, done ++ fitRow w ps ++ rest⟩

theorem fitRow_of_lt {w : Nat} {ps : List Pixel} (h : ps.length < w) :
    fitRow w ps = ps ++ 0#16 :: List.replicate (w - (ps.length + 1)) 0#16 := by
  rw [fitRow, List.take_of_length_le h.le, ← List.replicate_succ]
  congr 2
  omega

theorem fitRow_append_singleton {w : Nat} {ps : List Pixel} (h : ps.length < w) (v : Pixel) :
    fitRow w (ps ++ [v]) = ps ++ v :: List.replicate (w - (ps.length + 1)) 0#16 := by
  rw [fitRow, List.take_of_length_le (by simpa using h), List.length_append, List.append_assoc]
  rfl

/-- Pixels past the row's width are dropped. -/
theorem fitRow_append_of_le {w : Nat} {ps : List Pixel} (h : w ≤ ps.length) (qs : List Pixel) :
    fitRow w (ps ++ qs) = fitRow w ps := by
  rw [fitRow, fitRow, List.take_append_of_le_length h, Nat.sub_eq_zero_of_le h,
    Nat.sub_eq_zero_of_le (h.trans (by simp))]

/-- What is missing of a row is 0 already. -/
theorem fitRow_append_zeros (w : Nat) (ps : List Pixel) (n : Nat) :
    fitRow w (ps ++ List.replicate n 0#16) = fitRow w ps := by
  rw [fitRow, fitRow, List.take_append, List.take_replicate, List.append_assoc, List.replicate_append_replicate,
    List.length_append, List.length_replicate]
  congr 2
  omega

/-- Set at the end of the row adds a pixel to it; past the row's width it changes nothing. -/
theorem set_rowBuffer {w h y : Nat} {done : List Pixel} (hdone : done.length = y * w) (hy : y < h)
    (ps rest : List Pixel) (v : Pixel) :
    (rowBuffer w h done ps rest).set ps.length y v = rowBuffer w h done (ps ++ [v]) rest := by
  rcases Nat.lt_or_ge ps.length w with hx | hx
  · have hin : (rowBuffer w h done ps rest).inside ps.length y = true := by simp [rowBuffer, hx, hy]
    rw [PixelBuffer.set, if_pos hin, rowBuffer, rowBuffer, fitRow_of_lt hx, fitRow_append_singleton hx]
    simp [← hdone]
  · have hout : (rowBuffer w h done ps rest).inside ps.length y = false := by simp [rowBuffer, hx]
    rw [PixelBuffer.set_outside _ hout, rowBuffer, rowBuffer, fitRow_append_of_le hx]

theorem samples_succ (st : List Byte) (d : Descriptor) (pos n : Nat) :
    samples st d pos (n + 1) = samples st d pos n ++ [conv d (BitVec.ofNat 16 (in16 st d.big (pos + 2 * n)))] := by
  simp [samples, List.range_succ]

/-- One sample of the inner loop of R190, at its index i: the pixel is set, the position moves on, trunc is joined. -/
def drawSample (st : List Byte) (d : Descriptor) (x y : Nat) (r : PixelBuffer × Nat × Bool) (i : Nat) :
    PixelBuffer × Nat × Bool :=
  (r.1.set (x + i : Nat) y (conv d (BitVec.ofNat 16 (in16 st d.big r.2.1))), r.2.1 + 2,
    r.2.2 || decide (st.length ≤ r.2.1 + 1))

/-- The inner loop of R190 adds its samples to the row. -/
theorem foldl_drawSample (st : List Byte) (d : Descriptor) {w h y : Nat} {done : List Pixel}
    (hdone : done.length = y * w) (hy : y < h) (ps rest : List Pixel) (pos : Nat) (trunc : Bool) (n : Nat) :
    (List.range n).foldl (drawSample st d ps.length y) (rowBuffer w h done ps rest, pos, trunc) =
      (rowBuffer w h done (ps ++ samples st d pos n) rest, pos + 2 * n,
        trunc || decide (0 < n ∧ st.length < pos + 2 * n)) := by
  induction n with
  | zero => simp [samples]
  | succ n ih =>
    have hx : ps.length + n = (ps ++ samples st d pos n).length := by simp
    have htrunc : (decide (0 < n ∧ st.length < pos + 2 * n) || decide (st.length ≤ pos + 2 * n + 1)) =
        decide (0 < n + 1 ∧ st.length < pos + 2 * (n + 1)) := by
      rw [← Bool.decide_or, decide_eq_decide]
      omega
    rw [List.range_succ, List.foldl_append, ih, samples_succ, ← List.append_assoc, ← set_rowBuffer hdone hy, ← htrunc,
      ← Bool.or_assoc, ← hx]
    rfl

section
variable (st : List Byte) (d : Descriptor) (y n : Nat) (P : PixelBuffer) (pos x : Nat) (trunc : Bool)

theorem rleRowLoop_end (h : in16 st d.big pos = 0) :
    rleRowLoop st d y (n + 1) P pos x trunc = some (P, pos + 2, trunc || decide (st.length < pos + 2)) := by
  rw [rleRowLoop, if_pos h, decide_eq_decide.mpr Nat.lt_succ_iff]

theorem rleRowLoop_opaque (h : in16 st d.big pos % 2 = 1) :
    rleRowLoop st d y (n + 1) P pos x trunc =
      let r := (List.range (in16 st d.big pos / 2)).foldl (drawSample st d x y)
        (P, pos + 2, trunc || decide (st.length < pos + 2))
      rleRowLoop st d y n r.1 r.2.1 (x + in16 st d.big pos / 2) r.2.2 := by
  have h0 : in16 st d.big pos ≠ 0 := fun h0 => by simp [h0] at h
  rw [rleRowLoop, if_neg h0, if_pos h, decide_eq_decide.mpr (Nat.lt_succ_iff (n := pos + 1))]
  rfl

theorem rleRowLoop_clear (h0 : in16 st d.big pos ≠ 0) (h : in16 st d.big pos % 2 = 0) :
    rleRowLoop st d y (n + 1) P pos x trunc =
      rleRowLoop st d y n P (pos + 2) (x + in16 st d.big pos / 2) (trunc || decide (st.length < pos + 2)) := by
  rw [rleRowLoop, if_neg h0, if_neg (by omega), decide_eq_decide.mpr (Nat.lt_succ_iff (n := pos + 1))]
  rfl

end

/-- A row of the loop of R190 adds the pixels of `decodeRuns`, and ends where it ends. -/
theorem rleRowLoop_eq (st : List Byte) (d : Descriptor) {w h y : Nat} {done : List Pixel}
    (hdone : done.length = y * w) (hy : y < h) (rest : List Pixel) {fuel pos : Nat} (hfuel : st.length - pos < fuel)
    (ps : List Pixel) (trunc : Bool) :
    rleRowLoop st d y fuel (rowBuffer w h done ps rest) pos ps.length trunc =
      some (rowBuffer w h done (ps ++ (decodeRuns st d fuel pos).1) rest, (decodeRuns st d fuel pos).2.1,
        trunc || (decodeRuns st d fuel pos).2.2) := by
  induction fuel generalizing pos ps trunc with
  | zero => omega
  | succ fuel ih =>
    by_cases h0 : in16 st d.big pos = 0
    · rw [rleRowLoop_end _ _ _ _ _ _ _ _ h0, decodeRuns_end _ _ _ _ h0, List.append_nil]
    have hpos := lt_length_of_in16 h0
    obtain heven | hodd := Nat.mod_two_eq_zero_or_one (in16 st d.big pos)
    · have hzeros : rowBuffer w h done ps rest =
          rowBuffer w h done (ps ++ List.replicate (in16 st d.big pos / 2) 0#16) rest := by
        rw [rowBuffer, rowBuffer, fitRow_append_zeros]
      have hx : ps.length + in16 st d.big pos / 2 = (ps ++ List.replicate (in16 st d.big pos / 2) 0#16).length := by simp
      rw [rleRowLoop_clear _ _ _ _ _ _ _ _ h0 heven, decodeRuns_clear _ _ _ _ h0 heven, hzeros, hx, ih (by omega),
        List.append_assoc, Bool.or_assoc]
    · have hx : ps.length + in16 st d.big pos / 2 = (ps ++ samples st d (pos + 2) (in16 st d.big pos / 2)).length := by simp
      rw [rleRowLoop_opaque _ _ _ _ _ _ _ _ hodd, decodeRuns_opaque _ _ _ _ hodd, foldl_drawSample st d hdone hy]
      dsimp only
      rw [hx, ih (by omega), List.append_assoc, Bool.or_assoc, Bool.or_assoc, Bool.or_assoc]

/-- The rows of the loop of R190, from row y on: those of `decodeRows`. -/
theorem rleRows_eq (st : List Byte) (d : Descriptor) {w h y k : Nat} (hk : y + k ≤ h) {done : List Pixel}
    (hdone : done.length = y * w) (pos : Nat) (trunc : Bool) :
    ((List.range' y k).foldlM (fun r y => rleRowLoop st d y (st.length + 1) r.1 r.2.1 0 r.2.2)
        (⟨w, h, done ++ List.replicate (w * k) 0#16⟩, pos, trunc)).map (fun r => (r.1, r.2.2)) =
      some (⟨w, h, done ++ (decodeRows st d w k pos).1⟩, trunc || (decodeRows st d w k pos).2) := by
  induction k generalizing y done pos trunc with
  | zero => simp [decodeRows]
  | succ k ih =>
    have hstart : (⟨w, h, done ++ List.replicate (w * (k + 1)) 0#16⟩ : PixelBuffer) =
        rowBuffer w h done [] (List.replicate (w * k) 0#16) := by
      simp [rowBuffer, fitRow, Nat.mul_succ, Nat.add_comm (w * k)]
    have hrow : rleRowLoop st d y (st.length + 1) (rowBuffer w h done [] (List.replicate (w * k) 0#16)) pos 0 trunc = _ :=
      rleRowLoop_eq st d hdone (by omega) _ (by omega) [] trunc
    have hdone' : (done ++ fitRow w (decodeRuns st d (st.length + 1) pos).1).length = (y + 1) * w := by
      rw [List.length_append, hdone, length_fitRow, Nat.succ_mul]
    rw [List.range'_succ, List.foldlM_cons, hstart, hrow]
    refine (ih (by omega) hdone' _ _).trans ?_
    rw [decodeRows, List.append_assoc, Bool.or_assoc]

/-- The loop of R190 gives the frame that `decodeRle` gives, on every stream. -/
theorem rleLoop_eq (st : List Byte) (d : Descriptor) (off w h : Nat) :
    rleLoop (st.length + 1) st d off w h = some (decodeRle st d off w h) := by
  have hrows := rleRows_eq st d (w := w) (h := h) (y := 0) (k := h) (done := []) (by omega) (by simp) off false
  rwa [← List.range_eq_range', List.nil_append, Bool.false_or] at hrows

end Sys2Proof.Machine

open Sys2Proof Sys2Proof.Machine

/-- Settles O41: each run but the last takes bytes of the stream. -/
theorem rleRunBoundIsNeverReached : Obligations.RleRunBoundIsNeverReached := fun st d _ _ hfuel =>
  decodeRuns_fuel st d (by omega) (by omega)

end

section
/-! SUPPORT. DEC_FRM (42_frame_table.md R187, R189, R195): the conversion of samples, and the checks and writes of the command
once the frame's entry is read. -/

namespace Sys2Proof.Machine

/-! ### Conversion of samples -/

/-- Each bit of a converted RGB555 sample (R187). -/
theorem getLsbD_conv555 (v : Pixel) {i : Nat} (hi : i < 16) :
    (conv555 v).getLsbD i = if i < 5 then v.getLsbD i else if i = 5 then v.getLsbD 9 else v.getLsbD (i - 1) := by
  interval_cases i <;> simp [conv555]

/-- A field of 5 bits that moves up by one bit. -/
theorem extractLsb'_conv555 (v : Pixel) {k : Nat} (h5 : 5 ≤ k) (hk : k ≤ 10) :
    (conv555 v).extractLsb' (k + 1) 5 = v.extractLsb' k 5 := by
  refine BitVec.eq_of_getLsbD_eq fun i hi => ?_
  rw [BitVec.getLsbD_extractLsb', BitVec.getLsbD_extractLsb', getLsbD_conv555 _ (by omega), if_neg (by omega),
    if_neg (by omega)]
  congr 2
  omega

/-- The lowest field stays. -/
theorem extractLsb'_conv555_low (v : Pixel) : (conv555 v).extractLsb' 0 5 = v.extractLsb' 0 5 := by
  refine BitVec.eq_of_getLsbD_eq fun i hi => ?_
  rw [BitVec.getLsbD_extractLsb', BitVec.getLsbD_extractLsb', getLsbD_conv555 _ (by omega), if_pos (by omega)]

/-! ### A frame decoded -/

theorem decodeEntry_raw (st : List Byte) {d : Descriptor} (hd : d.compressed = false) (e : FrameEntry) :
    decodeEntry st d e = decodeRaw st d e.offset e.width e.height := by
  rw [decodeEntry, if_neg (by simp [hd])]

theorem decodeEntry_rle (st : List Byte) {d : Descriptor} (hd : d.compressed = true) (e : FrameEntry) :
    decodeEntry st d e = decodeRle st d e.offset e.width e.height := if_pos hd

theorem samples_getD (st : List Byte) (d : Descriptor) (pos : Nat) {n i : Nat} (hi : i < n) :
    (samples st d pos n).getD i 0#16 = conv d (BitVec.ofNat 16 (in16 st d.big (pos + 2 * i))) := by
  simp [samples, List.getD, hi]

/-! ### The command -/

/-- A command completes with its effect, whatever its trunc flag and its draws. -/
theorem exec_of_ok {i : Instr} {s : State} {e : Effect} (h : outcome s i = .ok e) :
    exec i s = .next (s.completedWith (s.lm.writeAll e.writes) (e.results.foldl (fun v r => v.set r.1 r.2) s.res) e.trunc
      e.draws) := by
  rw [exec_eq, h]
  exact congrArg _ (succeed_eq_completedWith ..)

/-- What DEC_FRM does with the entry it has read: the frame written to descriptor `p`, with its trunc flag. -/
def decFrmEmit (s : State) (p : Pbd) (de : Descriptor × FrameEntry) : CmdOutcome := do
  let e ← emitBuffer s .decFrm (s.argNat 3) p (decodeEntry s.stream de.1 de.2).1
    [(0, de.1.word), (1, toWord de.2.width), (2, toWord de.2.height)]
  return { e with trunc := (decodeEntry s.stream de.1 de.2).2 }

theorem decFrm_outcome {s : State} (hr : s.RegionIn (s.argNat 0) (s.argNat 1)) (hp : s.OutputPbd 3) :
    outcome s .decFrm = parseEntry s.stream (s.argNat 2) >>= decFrmEmit s (s.pbdArg 3) :=
  (bind_ok (checkRegion_pass hr) _).trans (bind_ok (checkPbd_of_output hp) _)

/-- The output checks of DEC_FRM, and the frame written (R134 step 4, R136). -/
theorem exec_decFrm_emit {s : State} {d : Descriptor} {e : FrameEntry}
    (ho : outcome s .decFrm = decFrmEmit s (s.pbdArg 3) (d, e)) (hp : s.OutputPbd 3) (hw : e.width < 2 ^ 32)
    (hh : e.height < 2 ^ 32) :
    ((s.pbdArg 3).cap < 2 * e.width * e.height → exec .decFrm s = .next (s.failedWith .capacity)) ∧
    (2 * e.width * e.height ≤ (s.pbdArg 3).cap →
      (¬s.NoOverlap .decFrm → exec .decFrm s = .next (s.failedWith .overlap)) ∧
      (s.NoOverlap .decFrm → s.lm.wf = true →
        ∃ lm', exec .decFrm s = .next (s.completedWith lm'
            (((s.res.set 0 d.word).set 1 (BitVec.ofNat 32 e.width)).set 2 (BitVec.ofNat 32 e.height))
            (decodeEntry s.stream d e).2 s.draws) ∧
          s.wroteBuffer lm' 3 e.width e.height
            fun x y => (decodeEntry s.stream d e).1.data.getD (y * e.width + x) 0#16)) := by
  obtain ⟨hQw, hQh, hlen⟩ := decodeEntry_size s.stream d e
  have htakes : (s.pbdArg 3).Takes (decodeEntry s.stream d e).1.width (decodeEntry s.stream d e).1.height ↔
      2 * e.width * e.height ≤ (s.pbdArg 3).cap := by
    rw [hQw, hQh]
    exact ⟨fun h => h.2.2, fun h => ⟨hw, hh, h⟩⟩
  refine ⟨fun hcap => exec_of_error (ho.trans (bind_error (emitBuffer_capacity _ fun h => ?_) _)), fun hcap =>
    ⟨fun hno => exec_of_error (ho.trans (bind_error (emitBuffer_overlap _ (htakes.mpr hcap) hno) _)), fun hno hm =>
      ⟨_, exec_of_ok (ho.trans (bind_ok (emitBuffer_of_checks _ (htakes.mpr hcap) hno) _)), ?_⟩⟩⟩
  · exact absurd (htakes.mp h) (Nat.not_le.mpr hcap)
  · have hwf : (decodeEntry s.stream d e).1.wf = true := by rw [PixelBuffer.wf_iff, hQw, hQh, hlen]
    have hwrote := wroteBuffer_writeAll hm hwf hp (htakes.mpr hcap) hno (List.sublist_cons_self ..)
    rw [hQw, hQh] at hwrote
    refine wroteBuffer_congr hwrote fun x y hx hy => ?_
    rw [PixelBuffer.get_natCast (by rwa [hQw]) (by rwa [hQh]), hQw]

end Sys2Proof.Machine

open Sys2Proof Sys2Proof.Machine

/-- Settles O40: the parser's checks follow those of the two operands; a compressed frame is that of R190's loop. -/
theorem decFrmResult : Obligations.DecFrmResult := by
  refine ⟨fun s => ⟨fun hr => exec_of_error (bind_error (checkRegion_fails hr) _), fun hr =>
      ⟨fun e he => exec_of_error ((bind_ok (checkRegion_pass hr) _).trans (bind_error (checkPbd_fails he) _)), fun hp => ?_⟩⟩,
    fun st d e hd => ?_, fun st d e hd => ?_, fun d v => ⟨fun hd => ?_, fun hd => ?_⟩⟩
  · have ho := decFrm_outcome hr hp
    have hfails {e : ErrCode} (h : parseEntry s.stream (s.argNat 2) = .error e) :
        exec .decFrm s = .next (s.failedWith e) := exec_of_error (ho.trans (bind_error h _))
    rw [← s.length_stream]
    exact ⟨fun hlen => hfails (parseEntry_of_header_error (header_short hlen) _),
      fun hlen hid => hfails (parseEntry_of_header_error (header_unknown hlen hid) _), fun d hid =>
      ⟨fun hlen => hfails (parseEntry_of_header_error (header_cut hid hlen) _),
        fun hlen hk => hfails (parseEntry_index hid hlen hk), fun hlen hk he => hfails (parseEntry_cut hid hlen hk he),
        fun hlen hk he => exec_decFrm_emit (ho.trans (bind_ok (parseEntry_ok hid hlen hk he) _)) hp
          ((in16_lt ..).trans (by decide)) ((in16_lt ..).trans (by decide))⟩⟩
  · rw [decodeEntry_raw st hd]
    exact ⟨fun i hi => samples_getD _ _ _ hi, decide_eq_true_iff⟩
  · rw [decodeEntry_rle st hd]
    exact rleLoop_eq ..
  · have hconv : conv d v = conv555 v := by rw [conv, hd]
    rw [hconv]
    exact ⟨extractLsb'_conv555 v (by decide) (by decide), extractLsb'_conv555 v (by decide) (by decide),
      getLsbD_conv555 v (by decide), extractLsb'_conv555_low v⟩
  · rw [conv, hd]

end

section
/-! SUPPORT. The containers that the writers write (42_frame_table.md R196, R199): where their parts stand, and that their
frames come back (R202). -/

namespace Sys2Proof.Machine

/-! ### Parts of a container -/

/-- A container: its header, its frame table and its frames' data. -/
theorem container_parts {st table data : List Byte} {magic count : Nat}
    (h : st = leBytes 4 magic ++ leBytes 2 count ++ table ++ data) :
    in32 st false 0 = magic % 2 ^ 32 ∧ in16 st false 4 = count % 2 ^ 16 ∧ BytesAt st 6 table ∧
      BytesAt st (6 + table.length) data := by
  have hall : BytesAt st 0 (leBytes 4 magic ++ (leBytes 2 count ++ (table ++ data))) := by
    have := bytesAt_self st
    rwa [h, List.append_assoc, List.append_assoc] at this ⊢
  exact ⟨hall.left.in32_eq, hall.right.left.in16_eq, hall.right.right.left, hall.right.right.right⟩

/-- The fields of a frame-table entry (R184). -/
def frameFields (pos : Nat) (F : PixelBuffer) : List Byte := leBytes 4 pos ++ leBytes 2 F.width ++ leBytes 2 F.height

@[simp] theorem length_frameFields (pos : Nat) (F : PixelBuffer) : (frameFields pos F).length = 8 := by simp [frameFields]

theorem BytesAt.frameFields_eq {st : List Byte} {p pos : Nat} {F : PixelBuffer} (h : BytesAt st p (frameFields pos F)) :
    in32 st false p = pos % 2 ^ 32 ∧ in16 st false (p + 4) = F.width % 2 ^ 16 ∧
      in16 st false (p + 6) = F.height % 2 ^ 16 :=
  ⟨h.left.left.in32_eq, h.left.right.in16_eq, h.right.in16_eq⟩

/-- The entry of a frame whose fields do not wrap. -/
theorem BytesAt.entryAt_eq {st : List Byte} {d : Descriptor} (hd : d.big = false) {p pos : Nat} {F : PixelBuffer}
    (h : BytesAt st p (frameFields pos F)) (hpos : pos < 2 ^ 32) (hw : F.width ≤ 65535) (hh : F.height ≤ 65535) :
    entryAt st d p = ⟨p, pos, F.width, F.height⟩ := by
  obtain ⟨hp, hw', hh'⟩ := h.frameFields_eq
  rw [entryAt, hd, hp, hw', hh', Nat.mod_eq_of_lt hpos, Nat.mod_eq_of_lt (by omega), Nat.mod_eq_of_lt (by omega)]

/-- The frame that the parser's entry names, in a little-endian stream (R191). -/
theorem decodeFrame_of_entry {st : List Byte} {d : Descriptor} {m k p pos n : Nat} {F : PixelBuffer}
    (hm : magicDescriptor m = some d) (hd : d.big = false) (hmagic : in32 st false 0 = m) (hn : in16 st false 4 = n)
    (hk : k < n) (hp : entryPosition st d k = p) (h : BytesAt st p (frameFields pos F)) (hpos : pos < 2 ^ 32)
    (hw : F.width ≤ 65535) (hh : F.height ≤ 65535) :
    decodeFrame st k = .ok (decodeEntry st d ⟨p, pos, F.width, F.height⟩) := by
  have h6 := six_le_entryPosition st d k
  have hend := h.end_le
  rw [length_frameFields, ← hp] at hend
  have hid : identify st = some d := by rw [identify_eq_magicDescriptor (by omega), hmagic, hm]
  refine (bind_ok (parseEntry_ok hid (by omega) (by rw [hd, hn]; exact hk) hend) _).trans ?_
  rw [hp, h.entryAt_eq hd hpos hw hh]
  rfl

/-! ### Raw containers -/

theorem s16Table_eq (off : Nat) (fs : List PixelBuffer) :
    s16Table off fs = tableFrom frameFields (fun F => 2 * F.width * F.height) off fs := by
  induction fs generalizing off with
  | nil => rfl
  | cons F fs ih => rw [s16Table, tableFrom, ih]; rfl

theorem length_s16Table (off : Nat) (fs : List PixelBuffer) : (s16Table off fs).length = 8 * fs.length := by
  rw [s16Table_eq, length_tableFrom length_frameFields, List.map_const', List.sum_replicate, smul_eq_mul, Nat.mul_comm]

theorem length_frameBytes {F : PixelBuffer} (h : F.wf = true) : (pixelBytes F.data).length = 2 * F.width * F.height := by
  rw [length_pixelBytes, (PixelBuffer.wf_iff _).mp h, Nat.mul_assoc]

/-- The sizes of the frames' data are those that the table counts with. -/
theorem sum_frameBytes {fs : List PixelBuffer} (h : ∀ F ∈ fs, F.wf = true) :
    (fs.map fun F => (pixelBytes F.data).length).sum = (fs.map fun F => 2 * F.width * F.height).sum :=
  congrArg _ (List.map_congr_left fun F hF => length_frameBytes (h F hF))

/-- Where the data of frame k starts (R196). -/
def s16DataStart (fs : List PixelBuffer) (k : Nat) : Nat :=
  6 + 8 * fs.length + ((fs.take k).map fun F => 2 * F.width * F.height).sum

theorem length_s16Bytes {fs : List PixelBuffer} (h : ∀ F ∈ fs, F.wf = true) :
    (s16Bytes fs).length = s16DataStart fs fs.length := by
  rw [s16Bytes, List.length_append, List.length_append, length_s16Table, List.length_flatMap, sum_frameBytes h,
    s16DataStart, List.take_length]
  rfl

theorem s16Bytes_header (fs : List PixelBuffer) :
    in32 (s16Bytes fs) false 0 = 1 ∧ in16 (s16Bytes fs) false 4 = fs.length % 2 ^ 16 :=
  let ⟨hmagic, hcount, _, _⟩ := container_parts (st := s16Bytes fs) rfl
  ⟨hmagic, hcount⟩

/-- The entry and the data of frame k stand where R196 says. -/
theorem s16Bytes_frame {fs : List PixelBuffer} (h : ∀ F ∈ fs, F.wf = true) {k : Nat} {F : PixelBuffer}
    (hk : fs[k]? = some F) :
    BytesAt (s16Bytes fs) (6 + 8 * k) (frameFields (s16DataStart fs k) F) ∧
      BytesAt (s16Bytes fs) (s16DataStart fs k) (pixelBytes F.data) := by
  obtain ⟨-, -, htable, hdata⟩ := container_parts (st := s16Bytes fs) rfl
  rw [length_s16Table] at hdata
  rw [s16Table_eq] at htable
  have hle : k ≤ fs.length := (List.getElem?_eq_some_iff.mp hk).1.le
  have hentry := htable.table_entry length_frameFields hk
  have hbytes := hdata.flatMap_item hk
  rw [List.map_const', List.sum_replicate, List.length_take_of_le hle, smul_eq_mul, Nat.mul_comm] at hentry
  rw [sum_frameBytes fun F hF => h F (List.mem_of_mem_take hF)] at hbytes
  exact ⟨hentry, hbytes⟩

/-- A raw frame comes back from its samples. -/
theorem decodeRaw_pixelBytes {st : List Byte} {c : Bool} {off : Nat} {F : PixelBuffer} (hF : F.wf = true)
    (h : BytesAt st off (pixelBytes F.data)) :
    decodeRaw st ⟨c, .rgb565, false⟩ off F.width F.height = (F, false) := by
  have hend := h.end_le
  rw [length_pixelBytes] at hend
  rw [decodeRaw, ← (PixelBuffer.wf_iff _).mp hF, samples_pixelBytes h, decide_eq_false (by omega)]

/-! ### RLE containers -/

/-- The offsets of a frame's rows after the first (R199). -/
def rowOffsets (pos : Nat) (F : PixelBuffer) : List Byte :=
  ((startsFrom pos (rleRows F)).drop 1).flatMap fun r => leBytes 4 r

/-- An entry of the RLE writer's table (R199). -/
def c16Entry (pos : Nat) (F : PixelBuffer) : List Byte := frameFields pos F ++ rowOffsets pos F

@[simp] theorem length_rows (F : PixelBuffer) : F.rows.length = F.height := by simp [PixelBuffer.rows]

@[simp] theorem length_rleRows (F : PixelBuffer) : (rleRows F).length = F.height := by simp [rleRows]

@[simp] theorem length_startsFrom (pos : Nat) (bs : List (List Byte)) : (startsFrom pos bs).length = bs.length := by
  induction bs generalizing pos with
  | nil => rfl
  | cons b bs ih => simp [startsFrom, ih]

theorem startsFrom_getElem? (pos : Nat) {bs : List (List Byte)} {y : Nat} (hy : y < bs.length) :
    (startsFrom pos bs)[y]? = some (pos + ((bs.take y).map List.length).sum) := by
  induction bs generalizing pos y with
  | nil => simp at hy
  | cons b bs ih =>
    cases y with
    | zero => simp [startsFrom]
    | succ y => simp [startsFrom, ih _ (Nat.lt_of_succ_lt_succ hy), Nat.add_assoc]

theorem length_c16Entry (pos : Nat) (F : PixelBuffer) : (c16Entry pos F).length = 8 + 4 * (F.height - 1) := by
  simp [c16Entry, rowOffsets, Nat.mul_comm]

theorem c16Table_eq (pos : Nat) (fs : List PixelBuffer) :
    c16Table pos fs = tableFrom c16Entry (fun F => (rleData F).length) pos fs := by
  induction fs generalizing pos with
  | nil => rfl
  | cons F fs ih => rw [c16Table, tableFrom, ih]; rfl

/-- The bytes of the first rows of a frame. -/
def rowsSize (rows : List (List Pixel)) : Nat := (rows.map fun r => (rowRle r).length).sum

theorem length_flatten_rleRows (F : PixelBuffer) : (rleRows F).flatten.length = rowsSize F.rows := by
  rw [List.length_flatten, rleRows, List.map_map]
  rfl

theorem length_rleData (F : PixelBuffer) : (rleData F).length = rowsSize F.rows + 2 := by
  rw [rleData, List.length_append, length_flatten_rleRows, length_leBytes]

/-- Where entry k of the table stands (R199). -/
def c16EntryStart (fs : List PixelBuffer) (k : Nat) : Nat := 6 + ((fs.take k).map fun F => 8 + 4 * (F.height - 1)).sum

theorem c16TableSize_eq (fs : List PixelBuffer) : c16TableSize fs = c16EntryStart fs fs.length := by
  rw [c16EntryStart, List.take_length]
  rfl

/-- Where the data of frame k starts (R199). -/
def c16DataStart (fs : List PixelBuffer) (k : Nat) : Nat :=
  c16TableSize fs + ((fs.take k).map fun F => (rleData F).length).sum

theorem length_c16Header (fs : List PixelBuffer) :
    (leBytes 4 3 ++ leBytes 2 fs.length ++ c16Table (c16TableSize fs) fs).length = c16TableSize fs := by
  rw [List.length_append, c16Table_eq, length_tableFrom length_c16Entry]
  rfl

theorem length_c16Bytes (fs : List PixelBuffer) : (c16Bytes fs).length = c16DataStart fs fs.length := by
  rw [c16Bytes, List.length_append, length_c16Header, List.length_flatMap, c16DataStart, List.take_length]

theorem c16Bytes_header (fs : List PixelBuffer) :
    in32 (c16Bytes fs) false 0 = 3 ∧ in16 (c16Bytes fs) false 4 = fs.length % 2 ^ 16 :=
  let ⟨hmagic, hcount, _, _⟩ := container_parts (st := c16Bytes fs) rfl
  ⟨hmagic, hcount⟩

/-- The entry and the data of frame k stand where R199 says. -/
theorem c16Bytes_frame {fs : List PixelBuffer} {k : Nat} {F : PixelBuffer} (hk : fs[k]? = some F) :
    BytesAt (c16Bytes fs) (c16EntryStart fs k) (c16Entry (c16DataStart fs k) F) ∧
      BytesAt (c16Bytes fs) (c16DataStart fs k) (rleData F) := by
  obtain ⟨-, -, htable, hdata⟩ := container_parts (st := c16Bytes fs) rfl
  rw [c16Table_eq] at htable hdata
  rw [length_tableFrom length_c16Entry] at hdata
  exact ⟨htable.table_entry length_c16Entry hk, hdata.flatMap_item hk⟩

/-- Row y of a frame stands behind the rows above it. -/
theorem BytesAt.rle_row {st : List Byte} {pos y : Nat} {F : PixelBuffer} (h : BytesAt st pos (rleData F))
    (hy : y < F.height) : BytesAt st (pos + rowsSize (F.rows.take y)) (rowRle (F.row y)) :=
  BytesAt.flatMap_item (xs := F.rows) h.left (by simp [PixelBuffer.rows, hy])

/-- The end marker stands behind the rows. -/
theorem BytesAt.rle_end {st : List Byte} {pos : Nat} {F : PixelBuffer} (h : BytesAt st pos (rleData F)) :
    BytesAt st (pos + rowsSize F.rows) [0#8, 0#8] := by
  have hend := h.right
  rwa [length_flatten_rleRows] at hend

/-- The offset of each row after the first. -/
theorem BytesAt.row_offset {st : List Byte} {p pos y : Nat} {F : PixelBuffer} (h : BytesAt st p (rowOffsets pos F))
    (hy : y + 1 < F.height) : BytesAt st (p + 4 * y) (leBytes 4 (pos + rowsSize (F.rows.take (y + 1)))) := by
  refine BytesAt.flatMap_item_of_length (f := leBytes 4) (length_leBytes 4) h ?_
  rw [List.getElem?_drop, Nat.add_comm, startsFrom_getElem? _ (by simpa using hy), rleRows, ← List.map_take, List.map_map]
  rfl

/-! ### Rows of a buffer -/

theorem length_of_mem_rows {F : PixelBuffer} (hF : F.wf = true) : ∀ row ∈ F.rows, row.length = F.width := by
  intro row hrow
  obtain ⟨y, hy, rfl⟩ := List.mem_map.mp hrow
  have hmul : (y + 1) * F.width ≤ F.height * F.width := Nat.mul_le_mul_right _ (List.mem_range.mp hy)
  rw [PixelBuffer.row, List.length_take, List.length_drop, (PixelBuffer.wf_iff _).mp hF, Nat.mul_comm F.width]
  rw [Nat.succ_mul] at hmul
  omega

theorem flatten_rows {F : PixelBuffer} (hF : F.wf = true) : F.rows.flatten = F.data := by
  have htake (h : Nat) : ((List.range h).map F.row).flatten = F.data.take (h * F.width) := by
    induction h with
    | zero => simp
    | succ h ih => simp [List.range_succ, ih, PixelBuffer.row, Nat.succ_mul, List.take_add]
  rw [PixelBuffer.rows, htake, List.take_of_length_le]
  rw [(PixelBuffer.wf_iff _).mp hF, Nat.mul_comm]

/-- An RLE frame comes back from its data. -/
theorem decodeRle_rleData {st : List Byte} {off : Nat} {F : PixelBuffer} (hF : F.wf = true)
    (h : BytesAt st off (rleData F)) : decodeRle st rleDescriptor off F.width F.height = (F, false) := by
  have hrows := decodeRows_rowRle (length_of_mem_rows hF) h.left
  rw [length_rows, flatten_rows hF] at hrows
  rw [decodeRle, hrows]

/-- The parser finds entry k where the writer put it. -/
theorem entryPosition_c16Bytes {fs : List PixelBuffer} (hh : ∀ F ∈ fs, F.height ≤ 65535) {k : Nat}
    (hk : k ≤ fs.length) : entryPosition (c16Bytes fs) rleDescriptor k = c16EntryStart fs k := by
  induction k with
  | zero => rfl
  | succ k ih =>
    have hF := List.getElem?_eq_getElem (Nat.lt_of_succ_le hk)
    obtain ⟨hentry, -⟩ := c16Bytes_frame hF
    obtain ⟨-, -, hfield⟩ := hentry.left.frameFields_eq
    have hheight : in16 (c16Bytes fs) rleDescriptor.big (c16EntryStart fs k + 6) = fs[k].height :=
      hfield.trans (Nat.mod_eq_of_lt (Nat.lt_succ_of_le (hh _ (List.getElem_mem _))))
    rw [entryPosition_succ_rle _ rfl, ih (Nat.le_of_succ_le hk), hheight, c16EntryStart, c16EntryStart, List.take_add_one,
      hF, List.map_append, List.sum_append, Nat.add_assoc, Nat.add_assoc]
    rfl

end Sys2Proof.Machine

open Sys2Proof Sys2Proof.Machine

/-- Settles O46: the parts of the container, read back. -/
theorem c16TableHasItsComputedSize : Obligations.C16TableHasItsComputedSize := by
  intro fs st rows entry start
  have hstart (k : Nat) : c16DataStart fs k = start k := by
    simp only [c16DataStart, c16TableSize_eq, length_rleData]
    rfl
  obtain ⟨hmagic, hcount⟩ := c16Bytes_header fs
  refine ⟨c16TableSize_eq fs, length_c16Header fs, (length_c16Bytes fs).trans (hstart _), hmagic, hcount, fun k F hk => ?_⟩
  obtain ⟨hfields, hdata⟩ := c16Bytes_frame hk
  rw [hstart] at hfields hdata
  obtain ⟨hpos, hw, hh⟩ := hfields.left.frameFields_eq
  refine ⟨hpos, hw, hh, fun y h1 hy => ?_, fun y hy => (hdata.rle_row hy).drop_take, ?_⟩
  · obtain ⟨y, rfl⟩ := Nat.exists_eq_add_of_le' h1
    exact (hfields.right.row_offset hy).in32_eq
  · show List.take 2 (List.drop (start k + rowsSize (F.rows.take F.height)) st) = _
    rw [← length_rows, List.take_length]
    exact hdata.rle_end.drop_take

/-- Settles O43: the parser finds the frame's entry, and the entry its samples. -/
theorem rawFrameRoundTrip : Obligations.RawFrameRoundTrip := by
  intro fs hn hfs start
  have hwf : ∀ F ∈ fs, F.wf = true := fun F hF => (hfs F hF).1
  refine ⟨length_s16Bytes hwf, ?_, fun k hk hpos => ?_⟩
  · show 6 + 8 * fs.length + 0 < 2 ^ 32
    omega
  obtain ⟨hF, hw, hh⟩ := hfs fs[k] (List.getElem_mem _)
  obtain ⟨hentry, hdata⟩ := s16Bytes_frame hwf (List.getElem?_eq_getElem hk)
  obtain ⟨hmagic, hcount⟩ := s16Bytes_header fs
  refine (decodeFrame_of_entry (d := ⟨false, .rgb565, false⟩) rfl rfl hmagic hcount (by omega)
    (entryPosition_raw _ rfl k) hentry hpos hw hh).trans ?_
  rw [decodeEntry_raw _ rfl, decodeRaw_pixelBytes hF hdata]

/-- Settles O44: the parser finds the frame's entry, the entry the rows, and a row's runs come back as its pixels. -/
theorem rleFrameRoundTrip : Obligations.RleFrameRoundTrip := by
  intro fs hn hfs start
  have hheight : ∀ F ∈ fs, F.height ≤ 65535 := fun F hF => (hfs F hF).2.2
  refine ⟨fun hone => ?_, fun k hk hpos => ?_⟩
  · obtain ⟨F, rfl⟩ := List.length_eq_one_iff.mp hone
    have hF := hheight F (List.mem_singleton_self F)
    show 6 + (8 + 4 * (F.height - 1) + 0) + 0 < 2 ^ 32
    omega
  obtain ⟨hF, hw, hh⟩ := hfs fs[k] (List.getElem_mem _)
  obtain ⟨hentry, hdata⟩ := c16Bytes_frame (List.getElem?_eq_getElem hk)
  obtain ⟨hmagic, hcount⟩ := c16Bytes_header fs
  refine (decodeFrame_of_entry (d := rleDescriptor) rfl rfl hmagic hcount (by omega)
    (entryPosition_c16Bytes hheight hk.le) hentry.left hpos hw hh).trans ?_
  rw [decodeEntry_rle _ rfl, decodeRle_rleData hF hdata]

end

section
/-! SUPPORT. ENC_S16 and ENC_C16 (42_frame_table.md R197, R200): the checks of the frames, and the bytes written. -/

namespace Sys2Proof.Machine

/-- The frames' number and dimensions fit their 16-bit fields (R197). -/
def State.FramesFit (s : State) : Prop :=
  s.argNat 1 ≤ 65535 ∧ ∀ k < s.argNat 1, (s.arrayPbd k).width ≤ 65535 ∧ (s.arrayPbd k).height ≤ 65535

section
variable {s : State}

/-- The checks of the frames that follow those of the array. -/
theorem encoderFrames_eq (h : s.InputPbds (s.argNat 1)) :
    encoderFrames s = checkRegion s s.outputEntry.region >>= fun _ =>
      require (decide (s.argNat 1 ≤ 65535) && ((List.range (s.argNat 1)).map s.arrayPbd).all
        fun p => decide (p.width ≤ 65535) && decide (p.height ≤ 65535)) .dimOverflow >>= fun _ =>
      pure (((List.range (s.argNat 1)).map s.arrayPbd).map (loadBuffer s.lm)) :=
  bind_ok (checkPbdArray_of_input h) _

theorem framesFit_iff : (decide (s.argNat 1 ≤ 65535) && ((List.range (s.argNat 1)).map s.arrayPbd).all
    fun p => decide (p.width ≤ 65535) && decide (p.height ≤ 65535)) = true ↔ s.FramesFit := by
  simp [State.FramesFit]

theorem encoderFrames_range (h : s.InputPbds (s.argNat 1)) (hr : ¬s.RegionIn (s.argNat 2) (s.argNat 3)) :
    encoderFrames s = .error .addrRange := (encoderFrames_eq h).trans (bind_error (checkRegion_fails hr) _)

theorem encoderFrames_dimension (h : s.InputPbds (s.argNat 1)) (hr : s.RegionIn (s.argNat 2) (s.argNat 3))
    (hfit : ¬s.FramesFit) : encoderFrames s = .error .dimOverflow :=
  (encoderFrames_eq h).trans <| (bind_ok (checkRegion_pass hr) _).trans <|
    bind_error (require_eq_error _ (Bool.eq_false_iff.mpr fun hall => hfit (framesFit_iff.mp hall))) _

theorem encoderFrames_of_checks (h : s.InputPbds (s.argNat 1)) (hr : s.RegionIn (s.argNat 2) (s.argNat 3))
    (hfit : s.FramesFit) : encoderFrames s = .ok (s.arrayBuffers (s.argNat 1)) :=
  (encoderFrames_eq h).trans <| (bind_ok (checkRegion_pass hr) _).trans <|
    (bind_ok (require_pass _ (framesFit_iff.mpr hfit)) _).trans (congrArg Except.ok List.map_map)

end

end Sys2Proof.Machine

open Sys2Proof Sys2Proof.Machine

/-- Settles O42: both encoders have the same checks of their frames, and then those of their output bytes. -/
theorem encoderResults : Obligations.EncoderResults := by
  intro i bytesOf hi s harr b fits
  have ho : outcome s i =
      encoderFrames s >>= fun fs => emitBytes s i (bytesOf fs) [(0, toWord (bytesOf fs).length)] := by
    obtain ⟨rfl, rfl⟩ | ⟨rfl, rfl⟩ := hi
    · rfl
    · rfl
  refine ⟨fun hr => exec_of_error (ho.trans (bind_error (encoderFrames_range harr hr) _)), fun hr =>
    ⟨fun hfit => exec_of_error (ho.trans (bind_error (encoderFrames_dimension harr hr hfit) _)), fun hfit hcap => ?_,
      fun hfit hcap hno => ?_, fun hfit hcap hno hm => ?_⟩⟩
  all_goals have hemit := ho.trans (bind_ok (encoderFrames_of_checks harr hr hfit) _)
  · exact exec_of_error (hemit.trans (emitBytes_capacity _ hcap))
  · exact exec_of_error (hemit.trans (emitBytes_overlap _ hcap hno))
  · exact ⟨_, exec_of_effect (hemit.trans (emitBytes_of_checks _ hcap hno)), wroteBytes_writeAll hm ..⟩

end

section
/-! SUPPORT. Stitching (43_blk.md R236): one tile drawn after another, the loop of the rule, and the pixels of what is
stitched. -/

namespace Sys2Proof.Machine

/-! ### One tile after another -/

theorem stitchTiles_concat (bh k : Nat) (tiles : List PixelBuffer) (T Q : PixelBuffer) :
    stitchTiles bh k (tiles ++ [T]) Q = (stitchTiles bh k tiles Q).blit T
      (tileSide * ((k + tiles.length) / bh) : Nat) (tileSide * ((k + tiles.length) % bh) : Nat) false := by
  induction tiles generalizing k Q with
  | nil => rfl
  | cons U tiles ih =>
    rw [List.cons_append, stitchTiles, ih, stitchTiles, List.length_cons, Nat.add_assoc, Nat.add_comm 1]

theorem stitch_size (bw bh : Nat) (tiles : List PixelBuffer) : (stitch bw bh tiles).width = 128 * bw ∧
    (stitch bw bh tiles).height = 128 * bh ∧ (stitch bw bh tiles).wf = true :=
  let ⟨hw, hh, hwf⟩ := stitchTiles_size bh 0 tiles (PixelBuffer.zero (tileSide * bw) (tileSide * bh))
  ⟨hw, hh, hwf (PixelBuffer.zero_wf ..)⟩

section
variable {bw bh k x y : Nat} {T : PixelBuffer} {tiles : List PixelBuffer}

/-- Tile k is drawn on what the tiles before it give, at the origin of its cell. -/
theorem stitch_take_succ (hk : tiles[k]? = some T) : stitch bw bh (tiles.take (k + 1)) =
    (stitch bw bh (tiles.take k)).blit T (128 * (k / bh) : Nat) (128 * (k % bh) : Nat) false := by
  have hle : k ≤ tiles.length := (List.getElem?_eq_some_iff.mp hk).1.le
  rw [List.take_add_one, hk, Option.toList_some, stitch, stitchTiles_concat, List.length_take_of_le hle, Nat.zero_add]
  rfl

/-! ### The loop of R236 -/

/-- One turn of the loop of R236, at column x and row y, over its variables Q and k. -/
def stitchTurn (tiles : List PixelBuffer) (x : Nat) (r : PixelBuffer × Nat) (y : Nat) : PixelBuffer × Nat :=
  (r.1.blit (tiles.getD r.2 (PixelBuffer.zero 0 0)) (128 * x : Nat) (128 * y : Nat) false, r.2 + 1)

/-- The turn at column x and row y draws tile x * bh + y. -/
theorem stitchTurn_eq (hy : y < bh) (hk : x * bh + y < tiles.length) :
    stitchTurn tiles x (stitch bw bh (tiles.take (x * bh + y)), x * bh + y) y =
      (stitch bw bh (tiles.take (x * bh + y + 1)), x * bh + y + 1) := by
  obtain ⟨-, hmod, hdiv⟩ := PixelBuffer.rowMajor hy (Nat.lt_succ_self x)
  have htile := List.getElem?_eq_getElem hk
  rw [stitchTurn, stitch_take_succ htile, hmod, hdiv, List.getD_eq_getElem?_getD, htile, Option.getD_some]

/-- The first n turns of column x draw the tiles that follow those of the columns before it. -/
theorem foldl_stitchTurn {n : Nat} (hn : n ≤ bh) (hlen : x * bh + n ≤ tiles.length) :
    (List.range n).foldl (stitchTurn tiles x) (stitch bw bh (tiles.take (x * bh)), x * bh) =
      (stitch bw bh (tiles.take (x * bh + n)), x * bh + n) := by
  induction n with
  | zero => rfl
  | succ n ih =>
    rw [List.range_succ, List.foldl_append, ih (by omega) (by omega)]
    exact stitchTurn_eq hn hlen

/-- The first n columns of the loop draw the first n * bh tiles. -/
theorem foldl_stitchColumns {n : Nat} (hlen : n * bh ≤ tiles.length) :
    (List.range n).foldl (fun r x => (List.range bh).foldl (stitchTurn tiles x) r) (stitch bw bh [], 0) =
      (stitch bw bh (tiles.take (n * bh)), n * bh) := by
  induction n with
  | zero => rw [Nat.zero_mul]; rfl
  | succ n ih =>
    rw [Nat.succ_mul] at hlen ⊢
    rw [List.range_succ, List.foldl_append, ih (by omega)]
    exact foldl_stitchTurn le_rfl hlen

theorem stitchLoop_eq_stitch (hlen : tiles.length = bw * bh) : stitchLoop bw bh tiles = stitch bw bh tiles := by
  have hloop := foldl_stitchColumns (bw := bw) hlen.ge
  rw [← hlen, List.take_length] at hloop
  exact congrArg Prod.fst hloop

/-! ### Pixels of what is stitched -/

/-- Tile k, drawn at the origin of its cell, reaches the pixel (x, y). -/
abbrev TileReaches (bh k : Nat) (T : PixelBuffer) (x y : Nat) : Prop :=
  128 * (k / bh) ≤ x ∧ x < 128 * (k / bh) + T.width ∧ 128 * (k % bh) ≤ y ∧ y < 128 * (k % bh) + T.height

section
variable (hx : x < 128 * bw) (hy : y < 128 * bh)
include hx hy

/-- Drawing tile k gives its pixel where it reaches, and leaves every other one. -/
theorem stitch_take_succ_get (hk : tiles[k]? = some T) : (stitch bw bh (tiles.take (k + 1))).get x y =
    if TileReaches bh k T x y then T.get (x - 128 * (k / bh) : Nat) (y - 128 * (k % bh) : Nat)
    else (stitch bw bh (tiles.take k)).get x y := by
  obtain ⟨hw, hh, -⟩ := stitch_size bw bh (tiles.take k)
  rw [stitch_take_succ hk, PixelBuffer.blit_get _ _ _ _ _ (hw ▸ hx) (hh ▸ hy)]
  have hin : (T.inside (x - (128 * (k / bh) : Nat)) (y - (128 * (k % bh) : Nat)) = true ∧
      ¬(false = true ∧ T.get (x - (128 * (k / bh) : Nat)) (y - (128 * (k % bh) : Nat)) = 0#16)) ↔
      TileReaches bh k T x y := by
    rw [PixelBuffer.inside_iff]
    simp only [Bool.false_eq_true, false_and, not_false_eq_true, and_true, TileReaches]
    omega
  refine (if_congr hin rfl rfl).trans (ite_congr rfl (fun hr => ?_) fun _ => rfl)
  rw [Nat.cast_sub hr.1, Nat.cast_sub hr.2.2.1]

/-- A pixel that no tile from k to n - 1 reaches is the one that the tiles before k give. -/
theorem stitch_take_get_of_not_reached {n : Nat} (hkn : k ≤ n) (hn : n ≤ tiles.length)
    (hnot : ∀ j U, k ≤ j → tiles[j]? = some U → ¬TileReaches bh j U x y) :
    (stitch bw bh (tiles.take n)).get x y = (stitch bw bh (tiles.take k)).get x y := by
  induction n, hkn using Nat.le_induction with
  | base => rfl
  | succ n hkn ih =>
    have htile := List.getElem?_eq_getElem hn
    rw [stitch_take_succ_get hx hy htile, if_neg (hnot n _ hkn htile), ih (by omega)]

/-- A pixel is that of the last tile that reaches it. -/
theorem stitch_get_of_last (hk : tiles[k]? = some T) (hr : TileReaches bh k T x y)
    (hlast : ∀ j U, k < j → tiles[j]? = some U → ¬TileReaches bh j U x y) :
    (stitch bw bh tiles).get x y = T.get (x - 128 * (k / bh) : Nat) (y - 128 * (k % bh) : Nat) := by
  have hrest := stitch_take_get_of_not_reached hx hy (List.getElem?_eq_some_iff.mp hk).1 le_rfl hlast
  rw [List.take_length, stitch_take_succ_get hx hy hk, if_pos hr] at hrest
  exact hrest

/-- A pixel that no tile reaches is 0. -/
theorem stitch_get_of_none (hnone : ∀ j U, tiles[j]? = some U → ¬TileReaches bh j U x y) :
    (stitch bw bh tiles).get x y = 0#16 := by
  have hall := stitch_take_get_of_not_reached hx hy (Nat.zero_le _) le_rfl fun j U _ => hnone j U
  rw [List.take_length] at hall
  exact hall.trans (PixelBuffer.get_eq_zero (fun p hp => List.eq_of_mem_replicate hp) x y)

/-- Tiles of the cells' size: each pixel is that of the tile of its cell. -/
theorem stitch_get_cell (hlen : tiles.length = bw * bh) (htiles : ∀ T ∈ tiles, T.width = 128 ∧ T.height = 128) :
    ∃ T, tiles[x / 128 * bh + y / 128]? = some T ∧
      (stitch bw bh tiles).get x y = T.get (x % 128 : Nat) (y % 128 : Nat) := by
  obtain ⟨hk, hmod, hdiv⟩ := PixelBuffer.rowMajor (Nat.div_lt_of_lt_mul hy) (Nat.div_lt_of_lt_mul hx)
  rw [Nat.mul_comm bh, ← hlen] at hk
  have htile := List.getElem?_eq_getElem hk
  obtain ⟨hw, hh⟩ := htiles _ (List.mem_of_getElem? htile)
  refine ⟨_, htile, (stitch_get_of_last hx hy htile ?_ fun j U hj hU hr => ?_).trans ?_⟩
  · rw [TileReaches, hmod, hdiv, hw, hh]
    omega
  · obtain ⟨hUw, hUh⟩ := htiles U (List.mem_of_getElem? hU)
    have hcol : j / bh = x / 128 := by omega
    have hrow : j % bh = y / 128 := by omega
    rw [← hcol, ← hrow, Nat.div_add_mod'] at hj
    exact lt_irrefl j hj
  · rw [hmod, hdiv, ← Nat.mod_def, ← Nat.mod_def]

end

end

end Sys2Proof.Machine

open Sys2Proof Sys2Proof.Machine

/-- Settles O50: the loop draws the tiles in the list's order, and a pixel is that of the last tile drawn over it. -/
theorem stitchIsColumnMajor : Obligations.StitchIsColumnMajor := by
  intro bw bh tiles hlen Q reaches
  obtain ⟨hw, hh, -⟩ := stitch_size bw bh tiles
  exact ⟨stitchLoop_eq_stitch hlen, hw, hh,
    fun x y hx hy => ⟨fun k T hk hr hlast => stitch_get_of_last hx hy hk hr hlast, stitch_get_of_none hx hy⟩,
    fun htiles x y hx hy => stitch_get_cell hx hy hlen fun T hT => (htiles T hT).2⟩

end

section
/-! SUPPORT. The BLK parser (43_blk.md R230 to R235): its header and its tiles, check by check. -/

namespace Sys2Proof.Machine

section
variable {st : List Byte} {d : Descriptor} {b : BlkHeader} {e : ErrCode} {k : Nat}

/-! ### The header -/

theorem blkHeader_short (h : st.length < 4) : blkHeader st = .error .truncatedHeader :=
  bind_error (require_eq_error _ (decide_eq_false (Nat.not_le.mpr h))) _

theorem blkHeader_unknown (hlen : 4 ≤ st.length) (h : identify st = none) : blkHeader st = .error .unknownFormat :=
  (bind_ok (require_pass _ (decide_eq_true hlen)) _).trans (by rw [h])

/-- The header of an identified stream: the checks that are left (R231, R234). -/
theorem blkHeader_identified (h : identify st = some d) :
    blkHeader st = require (!d.big) .unsupportedByteOrder >>= fun _ => require (!d.compressed) .unknownFormat >>= fun _ =>
      require (decide (10 ≤ st.length)) .truncatedHeader >>= fun _ =>
      pure ⟨d, in16 st false 4, in16 st false 6, in16 st false 8⟩ :=
  (bind_ok (require_pass _ (decide_eq_true (length_of_identify h))) _).trans (by rw [h])

theorem blkHeader_big (h : identify st = some d) (hbig : d.big = true) :
    blkHeader st = .error .unsupportedByteOrder :=
  (blkHeader_identified h).trans (bind_error (require_eq_error _ (by rw [hbig]; rfl)) _)

theorem blkHeader_compressed (h : identify st = some d) (hbig : d.big = false) (hc : d.compressed = true) :
    blkHeader st = .error .unknownFormat :=
  (blkHeader_identified h).trans <| (bind_ok (require_pass _ (by rw [hbig]; rfl)) _).trans <|
    bind_error (require_eq_error _ (by rw [hc]; rfl)) _

/-- The header of a raw little-endian stream: its length is the one check left. -/
theorem blkHeader_raw (h : identify st = some d) (hbig : d.big = false) (hc : d.compressed = false) :
    blkHeader st = require (decide (10 ≤ st.length)) .truncatedHeader >>= fun _ =>
      pure ⟨d, in16 st false 4, in16 st false 6, in16 st false 8⟩ :=
  (blkHeader_identified h).trans <| (bind_ok (require_pass _ (by rw [hbig]; rfl)) _).trans <|
    bind_ok (require_pass _ (by rw [hc]; rfl)) _

theorem blkHeader_cut (h : identify st = some d) (hbig : d.big = false) (hc : d.compressed = false)
    (hlen : st.length < 10) : blkHeader st = .error .truncatedHeader :=
  (blkHeader_raw h hbig hc).trans (bind_error (require_eq_error _ (decide_eq_false (Nat.not_le.mpr hlen))) _)

theorem blkHeader_ok (h : identify st = some d) (hbig : d.big = false) (hc : d.compressed = false)
    (hlen : 10 ≤ st.length) : blkHeader st = .ok ⟨d, in16 st false 4, in16 st false 6, in16 st false 8⟩ :=
  (blkHeader_raw h hbig hc).trans (bind_ok (require_pass _ (decide_eq_true hlen)) _)

/-! ### Tiles -/

theorem decodeTile_of_header_error (h : blkHeader st = .error e) (k : Nat) : decodeTile st k = .error e := bind_error h _

theorem decodeTile_index (h : blkHeader st = .ok b) (hk : b.count ≤ k) : decodeTile st k = .error .frameIndex :=
  (bind_ok h _).trans (bind_error (require_eq_error _ (decide_eq_false (Nat.not_lt.mpr hk))) _)

theorem decodeTile_cut (h : blkHeader st = .ok b) (hk : k < b.count) (hlen : st.length < 18 + 8 * k) :
    decodeTile st k = .error .truncatedHeader :=
  (bind_ok h _).trans <| (bind_ok (require_pass _ (decide_eq_true hk)) _).trans <|
    bind_error (require_eq_error _ (decide_eq_false (by omega))) _

theorem decodeTile_ok (h : blkHeader st = .ok b) (hk : k < b.count) (hlen : 18 + 8 * k ≤ st.length) :
    decodeTile st k = .ok (decodeRaw st b.desc (tilePosition st b.count k) (tileWidth st k) (tileHeight st k)) :=
  (bind_ok h _).trans <| (bind_ok (require_pass _ (decide_eq_true hk)) _).trans <|
    bind_ok (require_pass _ (decide_eq_true (by omega))) _

end

theorem tileWidth_eq (st : List Byte) (k : Nat) : tileWidth st k = in16 st false (14 + 8 * k) :=
  congrArg (in16 st false) (by omega)

theorem tileHeight_eq (st : List Byte) (k : Nat) : tileHeight st k = in16 st false (16 + 8 * k) :=
  congrArg (in16 st false) (by omega)

/-- The data of tile k starts behind that of the tiles before it (R233). -/
theorem tilePosition_eq (st : List Byte) (count k : Nat) : tilePosition st count k = 10 + 8 * count +
    ((List.range k).map fun j => 2 * (in16 st false (14 + 8 * j) * in16 st false (16 + 8 * j))).sum := by
  induction k with
  | zero => rfl
  | succ k ih => simp [tilePosition, ih, tileWidth_eq, tileHeight_eq, List.range_succ, Nat.add_assoc]

/-- A pixel of a raw frame is its sample of the stream (R189). -/
theorem decodeRaw_get (st : List Byte) (d : Descriptor) (off : Nat) {w h x y : Nat} (hx : x < w) (hy : y < h) :
    (decodeRaw st d off w h).1.get x y = conv d (BitVec.ofNat 16 (in16 st d.big (off + 2 * (y * w + x)))) :=
  (PixelBuffer.get_natCast hx hy).trans (samples_getD _ _ _ (PixelBuffer.rowMajor hx hy).1)

theorem decodeRaw_wf (st : List Byte) (d : Descriptor) (off w h : Nat) : (decodeRaw st d off w h).1.wf = true :=
  decide_eq_true (length_samples ..)

end Sys2Proof.Machine

open Sys2Proof Sys2Proof.Machine

/-- Settles O47: the parser's checks follow that of the stream region. -/
theorem blkHdrResult : Obligations.BlkHdrResult := by
  refine fun s => ⟨fun hr => exec_of_error (bind_error (checkRegion_fails hr) _), fun hr => ?_⟩
  have ho : outcome s .blkHdr = blkHeader s.stream >>= fun b => pure (s.effect []
      [(0, b.desc.word), (1, toWord b.blocksWide), (2, toWord b.blocksHigh), (3, toWord b.count)]) :=
    bind_ok (checkRegion_pass hr) _
  have hfails {e : ErrCode} (h : blkHeader s.stream = .error e) : exec .blkHdr s = .next (s.failedWith e) :=
    exec_of_error (ho.trans (bind_error h _))
  rw [← s.length_stream]
  exact ⟨fun hlen => hfails (blkHeader_short hlen), fun hlen hid => hfails (blkHeader_unknown hlen hid), fun d hid =>
    ⟨fun hbig => hfails (blkHeader_big hid hbig), fun hbig hc => hfails (blkHeader_compressed hid hbig hc),
      fun hbig hc hlen => hfails (blkHeader_cut hid hbig hc hlen),
      fun hbig hc hlen => exec_of_effect (ho.trans (bind_ok (blkHeader_ok hid hbig hc hlen) _))⟩⟩

end

section
/-! SUPPORT. The BLK commands (43_blk.md R235, R237, R239): the output checks of a command that writes a buffer with
results, and the checks of each command. -/

namespace Sys2Proof.Machine

/-- The output checks in order (R134 step 4), then the buffer Q written to output descriptor `k` (R136), for a command that
ends so with results `rs` and trunc flag `t`; `f` tells the pixels of Q. -/
theorem exec_emitsBuffer {s : State} {i : Instr} {k : Fin 8} {Q : PixelBuffer} {rs : List (Fin 4 × Word)} {t : Bool}
    {f : Nat → Nat → Pixel}
    (herr : ∀ c, emitBuffer s i (s.argNat k) (s.pbdArg k) Q rs = .error c → outcome s i = .error c)
    (hok : ∀ cells, emitBuffer s i (s.argNat k) (s.pbdArg k) Q rs = .ok (s.effect cells rs) →
      outcome s i = .ok { s.effect cells rs with trunc := t })
    (hsub : (s.pbdEntries k .update .write).Sublist (regionEntries s i)) (hQ : Q.wf = true) (hp : s.OutputPbd k)
    (hf : ∀ x y : Nat, x < Q.width → y < Q.height → Q.get x y = f x y) :
    (¬(s.pbdArg k).Takes Q.width Q.height → exec i s = .next (s.failedWith .capacity)) ∧
    ((s.pbdArg k).Takes Q.width Q.height → ¬s.NoOverlap i → exec i s = .next (s.failedWith .overlap)) ∧
    ((s.pbdArg k).Takes Q.width Q.height → s.NoOverlap i → s.lm.wf = true →
      ∃ lm', exec i s = .next (s.completedWith lm' (rs.foldl (fun v r => v.set r.1 r.2) s.res) t s.draws) ∧
        s.wroteBuffer lm' k Q.width Q.height f) :=
  ⟨fun hcap => exec_of_error (herr _ (emitBuffer_capacity _ hcap)),
    fun hcap hno => exec_of_error (herr _ (emitBuffer_overlap _ hcap hno)),
    fun hcap hno hm => ⟨_, exec_of_ok (hok _ (emitBuffer_of_checks _ hcap hno)),
      wroteBuffer_congr (wroteBuffer_writeAll hm hQ hp hcap hno hsub) hf⟩⟩

/-- What BLK_DEC does with the tile it has decoded: the tile written to descriptor `p`, with its trunc flag. -/
def blkDecEmit (s : State) (p : Pbd) (T : PixelBuffer × Bool) : CmdOutcome := do
  let e ← emitBuffer s .blkDec (s.argNat 3) p T.1 [(0, toWord T.1.width), (1, toWord T.1.height)]
  return { e with trunc := T.2 }

theorem blkDec_outcome {s : State} (hr : s.RegionIn (s.argNat 0) (s.argNat 1)) (hp : s.OutputPbd 3) :
    outcome s .blkDec = decodeTile s.stream (s.argNat 2) >>= blkDecEmit s (s.pbdArg 3) :=
  (bind_ok (checkRegion_pass hr) _).trans (bind_ok (checkPbd_of_output hp) _)

/-- The output checks of BLK_DEC, and the tile written (R134 step 4, R136), for a tile at q of a little-endian stream. -/
theorem exec_blkDec_emit {s : State} {d : Descriptor} {q w h : Nat} (hbig : d.big = false)
    (ho : outcome s .blkDec = blkDecEmit s (s.pbdArg 3) (decodeRaw s.stream d q w h)) (hp : s.OutputPbd 3)
    (hw : w < 2 ^ 32) (hh : h < 2 ^ 32) :
    ((s.pbdArg 3).cap < 2 * w * h → exec .blkDec s = .next (s.failedWith .capacity)) ∧
    (2 * w * h ≤ (s.pbdArg 3).cap →
      (¬s.NoOverlap .blkDec → exec .blkDec s = .next (s.failedWith .overlap)) ∧
      (s.NoOverlap .blkDec → s.lm.wf = true →
        ∃ lm', exec .blkDec s = .next (s.completedWith lm'
            ((s.res.set 0 (BitVec.ofNat 32 w)).set 1 (BitVec.ofNat 32 h))
            (decide (0 < w * h ∧ s.argNat 1 < q + 2 * (w * h))) s.draws) ∧
          s.wroteBuffer lm' 3 w h fun x y => conv d (BitVec.ofNat 16 (in16 s.stream false (q + 2 * (y * w + x)))))) := by
  rw [← s.length_stream]
  obtain ⟨hcapacity, hoverlap, hwrites⟩ := exec_emitsBuffer (fun _ h => ho.trans (bind_error h _))
    (fun _ h => ho.trans (bind_ok h _)) (List.sublist_cons_self ..) (decodeRaw_wf s.stream d q w h) hp fun x y hx hy =>
      hbig ▸ decodeRaw_get s.stream d q hx hy
  exact ⟨fun hcap => hcapacity fun htakes => absurd htakes.2.2 (Nat.not_le.mpr hcap), fun hcap =>
    ⟨hoverlap ⟨hw, hh, hcap⟩, hwrites ⟨hw, hh, hcap⟩⟩⟩

/-- BLK_STITCH on an array that passes its checks: those of the output descriptor follow (R237). -/
theorem blkStitch_outcome {s : State} (h : s.InputPbds (s.argNat 1 * s.argNat 2)) :
    outcome s .blkStitch = checkPbd s (s.argNat 5) false >>= fun q => emitBuffer s .blkStitch (s.argNat 5) q
      (stitch (s.argNat 1) (s.argNat 2) (s.arrayBuffers (s.argNat 1 * s.argNat 2)))
      [(0, toWord (128 * s.argNat 1)), (1, toWord (128 * s.argNat 2))] := by
  rw [State.arrayBuffers, ← Function.comp_def, ← List.map_map]
  exact bind_ok (checkPbdArray_of_input h) _

/-- The size check of BLK_ENC (R239). -/
theorem blkFits_iff (w h : Nat) : (decide (blocks w ≤ 65535) && decide (blocks h ≤ 65535) &&
    decide (blocks w * blocks h ≤ 65535)) = true ↔ blocks w ≤ 65535 ∧ blocks h ≤ 65535 ∧ blocks w * blocks h ≤ 65535 := by
  simp only [Bool.and_eq_true, decide_eq_true_eq, and_assoc]

end Sys2Proof.Machine

open Sys2Proof Sys2Proof.Machine

/-- Settles O48: the parser's checks follow those of the two operands, and then those of the output. -/
theorem blkDecResult : Obligations.BlkDecResult := by
  refine fun s => ⟨fun hr => exec_of_error (bind_error (checkRegion_fails hr) _), fun hr =>
    ⟨fun e he => exec_of_error ((bind_ok (checkRegion_pass hr) _).trans (bind_error (checkPbd_fails he) _)), fun hp => ?_⟩⟩
  have ho := blkDec_outcome hr hp
  have hfails {e : ErrCode} (h : decodeTile s.stream (s.argNat 2) = .error e) :
      exec .blkDec s = .next (s.failedWith e) := exec_of_error (ho.trans (bind_error h _))
  have hheader {e : ErrCode} (h : blkHeader s.stream = .error e) : exec .blkDec s = .next (s.failedWith e) :=
    hfails (decodeTile_of_header_error h _)
  have hlength := s.length_stream
  refine ⟨fun hlen => hheader (blkHeader_short (hlength ▸ hlen)),
    fun hlen hid => hheader (blkHeader_unknown (hlength ▸ hlen) hid), fun d hid =>
    ⟨fun hbig => hheader (blkHeader_big hid hbig), fun hbig hc => hheader (blkHeader_compressed hid hbig hc),
      fun hbig hc hlen => hheader (blkHeader_cut hid hbig hc (hlength ▸ hlen)), fun hbig hc hlen => ?_⟩⟩
  have hb := blkHeader_ok hid hbig hc (hlength ▸ hlen)
  refine ⟨fun hk => hfails (decodeTile_index hb hk), fun hk he => hfails (decodeTile_cut hb hk (hlength ▸ he)),
    fun hk he => ?_⟩
  have htile := decodeTile_ok hb hk (hlength ▸ he)
  rw [tileWidth_eq, tileHeight_eq, tilePosition_eq] at htile
  exact exec_blkDec_emit hbig (ho.trans (bind_ok htile _)) hp ((in16_lt ..).trans (by decide))
    ((in16_lt ..).trans (by decide))

/-- Settles O49: the checks of the output descriptor follow those of the array; what is stitched is written. -/
theorem blkStitchResult : Obligations.BlkStitchResult := by
  intro s harr w h fits
  have ho := blkStitch_outcome harr
  obtain ⟨hw, hh, hwf⟩ := stitch_size (s.argNat 1) (s.argNat 2) (s.arrayBuffers (s.argNat 1 * s.argNat 2))
  refine ⟨fun e he => exec_of_error (ho.trans (bind_error (checkPbd_fails he) _)), fun hp => ?_⟩
  have hemit := ho.trans (bind_ok (checkPbd_of_output hp) _)
  have hresult := exec_emitsBuffer (t := false) (fun _ => hemit.trans) (fun _ => hemit.trans)
    ((List.sublist_append_left ..).cons _) hwf hp fun _ _ _ _ => rfl
  rwa [hw, hh] at hresult

/-- Settles O51: the checks of the output region and of the size, and then those of the output bytes. -/
theorem blkEncResult : Obligations.BlkEncResult := by
  intro s hp bw bh b fits
  have ho : outcome s .blkEnc = checkRegion s s.outputEntry.region >>= fun _ =>
      require (decide (bw ≤ 65535) && decide (bh ≤ 65535) && decide (bw * bh ≤ 65535)) .dimOverflow >>= fun _ =>
      emitBytes s .blkEnc b [(0, toWord b.length), (1, toWord bw), (2, toWord bh), (3, toWord (bw * bh))] :=
    bind_ok (checkPbd_of_input hp) _
  refine ⟨fun hr => exec_of_error (ho.trans (bind_error (checkRegion_fails hr) _)), fun hr => ?_⟩
  replace ho := ho.trans (bind_ok (checkRegion_pass hr) _)
  have hfits := blkFits_iff (s.pbdArg 0).width (s.pbdArg 0).height
  refine ⟨fun hfit => exec_of_error (ho.trans (bind_error (require_eq_error _ ?_) _)), fun hfit hcap => ?_,
    fun hfit hcap hno => ?_, fun hfit hcap hno hm => ?_⟩
  · exact Bool.eq_false_iff.mpr fun hall => hfit (hfits.mp hall)
  all_goals have hemit := ho.trans (bind_ok (require_pass _ (hfits.mpr hfit)) _)
  · exact exec_of_error (hemit.trans (emitBytes_capacity _ hcap))
  · exact exec_of_error (hemit.trans (emitBytes_overlap _ hcap hno))
  · exact ⟨_, exec_of_effect (hemit.trans (emitBytes_of_checks _ hcap hno)), wroteBytes_writeAll hm ..⟩

end

section
/-! SUPPORT. The BLK writer (43_blk.md R238, R240): the tiles of an image, where the parts of its bytes stand, and that the
image comes back. -/

namespace Sys2Proof.Machine

/-! ### The tiles of an image -/

/-- The cells of a grid, column by column, in one row of indices. -/
theorem flatMap_range_map {α : Type} (f : Nat → Nat → α) (w h : Nat) :
    (List.range w).flatMap (fun x => (List.range h).map (f x)) =
      (List.range (w * h)).map fun k => f (k / h) (k % h) := by
  induction w with
  | zero => rw [Nat.zero_mul]; rfl
  | succ w ih =>
    rw [List.range_succ, List.flatMap_append, ih, Nat.succ_mul, List.range_add, List.map_append, List.map_map,
      List.flatMap_singleton]
    refine congrArg _ (List.map_congr_left fun y hy => ?_)
    obtain ⟨-, hmod, hdiv⟩ := PixelBuffer.rowMajor (List.mem_range.mp hy) (Nat.lt_succ_self w)
    exact (congrArg₂ f hdiv hmod).symm

theorem cutTiles_eq (I : PixelBuffer) : cutTiles I = (List.range (blocks I.width * blocks I.height)).map fun k =>
    cutTile I (k / blocks I.height) (k % blocks I.height) := flatMap_range_map (cutTile I) ..

@[simp] theorem length_cutTiles (I : PixelBuffer) : (cutTiles I).length = blocks I.width * blocks I.height := by
  simp [cutTiles_eq]

theorem cutTiles_getElem? (I : PixelBuffer) {x y : Nat} (hx : x < blocks I.width) (hy : y < blocks I.height) :
    (cutTiles I)[x * blocks I.height + y]? = some (cutTile I x y) := by
  obtain ⟨hk, hmod, hdiv⟩ := PixelBuffer.rowMajor hy hx
  rw [Nat.mul_comm (blocks I.height)] at hk
  rw [cutTiles_eq, List.getElem?_map, List.getElem?_range hk, Option.map_some, hdiv, hmod]

/-- The tiles of an image are well formed and 128 x 128. -/
theorem cutTiles_shape {I T : PixelBuffer} (h : T ∈ cutTiles I) : T.wf = true ∧ T.width = 128 ∧ T.height = 128 := by
  rw [cutTiles_eq] at h
  obtain ⟨k, -, rfl⟩ := List.mem_map.mp h
  exact ⟨PixelBuffer.blit_wf .., rfl, rfl⟩

/-- A tile's pixel is the image's, 0 outside it (R238). -/
theorem cutTile_get (I : PixelBuffer) (x y : Nat) {a b : Nat} (ha : a < 128) (hb : b < 128) :
    (cutTile I x y).get a b = I.get (a + 128 * x : Nat) (b + 128 * y : Nat) := by
  rw [cutTile, PixelBuffer.blit_get (PixelBuffer.zero tileSide tileSide) _ _ _ _ ha hb]
  simp only [sub_neg_eq_add, ← Nat.cast_add, Bool.false_eq_true, false_and, not_false_eq_true, and_true]
  refine ite_eq_left_iff.mpr fun hout => ?_
  rw [PixelBuffer.get_eq_zero (fun p hp => List.eq_of_mem_replicate hp)]
  exact (PixelBuffer.get_outside (Bool.eq_false_iff.mpr hout)).symm

/-- The tiles stitched are the image, padded with 0 to whole tiles (R240). -/
theorem stitch_cutTiles (I : PixelBuffer) : stitch (blocks I.width) (blocks I.height) (cutTiles I) =
    I.crop 0 0 (128 * blocks I.width) (128 * blocks I.height) := by
  obtain ⟨hw, hh, hwf⟩ := stitch_size (blocks I.width) (blocks I.height) (cutTiles I)
  refine PixelBuffer.ext_get hwf (PixelBuffer.crop_wf ..) hw hh fun x y hx hy => ?_
  rw [hw] at hx
  rw [hh] at hy
  obtain ⟨T, hT, hget⟩ := stitch_get_cell hx hy (length_cutTiles I) fun T hT => (cutTiles_shape hT).2
  rw [cutTiles_getElem? I (Nat.div_lt_of_lt_mul hx) (Nat.div_lt_of_lt_mul hy), Option.some_inj] at hT
  rw [hget, ← hT, cutTile_get I _ _ (Nat.mod_lt _ (by decide)) (Nat.mod_lt _ (by decide)), Nat.mod_add_div, Nat.mod_add_div,
    PixelBuffer.crop_get I 0 0 hx hy, add_zero, add_zero]

/-! ### Parts of the bytes -/

/-- The 10-byte header of the BLK bytes of an image (R230). -/
def blkHeaderBytes (I : PixelBuffer) : List Byte :=
  leBytes 4 1 ++ leBytes 2 (blocks I.width) ++ leBytes 2 (blocks I.height) ++ leBytes 2 (blocks I.width * blocks I.height)

theorem blkBytes_eq (I : PixelBuffer) : blkBytes I = blkHeaderBytes I ++ (s16Bytes (cutTiles I)).drop 6 := rfl

/-- Bytes of a stream whose first n bytes are replaced by others. -/
theorem BytesAt.drop_append {st bs : List Byte} {n p : Nat} (h : BytesAt st (n + p) bs) (pre : List Byte) :
    BytesAt (pre ++ st.drop n) (pre.length + p) bs := by
  obtain ⟨before, after, hlen, rfl⟩ := h
  exact ⟨pre ++ before.drop n, after, by simp [hlen], by simp [List.drop_append_of_le_length, hlen]⟩

/-- Where the data of tile k starts in the S16 stream of the tiles. -/
theorem s16DataStart_cutTiles (I : PixelBuffer) {k : Nat} (hk : k ≤ blocks I.width * blocks I.height) :
    s16DataStart (cutTiles I) k = 6 + 8 * (blocks I.width * blocks I.height) + 32768 * k := by
  have hsize : ∀ T ∈ (cutTiles I).take k, 2 * T.width * T.height = 32768 := fun T hT => by
    obtain ⟨-, hw, hh⟩ := cutTiles_shape (List.mem_of_mem_take hT)
    rw [hw, hh]
  rw [s16DataStart, List.map_congr_left hsize, List.map_const', List.sum_replicate,
    List.length_take_of_le (by rwa [length_cutTiles]), length_cutTiles, smul_eq_mul, Nat.mul_comm k]

theorem length_blkBytes (I : PixelBuffer) : (blkBytes I).length = 10 + 32776 * (blocks I.width * blocks I.height) := by
  have hs16 := length_s16Bytes fun T (hT : T ∈ cutTiles I) => (cutTiles_shape hT).1
  rw [length_cutTiles, s16DataStart_cutTiles I le_rfl] at hs16
  rw [blkBytes_eq, List.length_append, List.length_drop, hs16]
  simp only [blkHeaderBytes, List.length_append, length_leBytes]
  omega

/-- The entry of tile k, and its pixels 4 bytes behind where the entry says (R238). -/
theorem blkBytes_tile (I : PixelBuffer) {k : Nat} {T : PixelBuffer} (hk : (cutTiles I)[k]? = some T) :
    BytesAt (blkBytes I) (10 + 8 * k) (frameFields (6 + 8 * (blocks I.width * blocks I.height) + 32768 * k) T) ∧
      BytesAt (blkBytes I) (10 + 8 * (blocks I.width * blocks I.height) + 32768 * k) (pixelBytes T.data) := by
  have hle := (List.getElem?_eq_some_iff.mp hk).1.le
  rw [length_cutTiles] at hle
  obtain ⟨hentry, hdata⟩ := s16Bytes_frame (fun T hT => (cutTiles_shape hT).1) hk
  rw [s16DataStart_cutTiles I hle] at hentry hdata
  rw [Nat.add_assoc] at hdata
  refine ⟨hentry.drop_append (blkHeaderBytes I), ?_⟩
  rw [Nat.add_assoc]
  exact hdata.drop_append (blkHeaderBytes I)

section
variable {I : PixelBuffer}

/-- The header that the parser reads back, of counts that fit their fields. -/
theorem blkHeader_blkBytes (hw : blocks I.width ≤ 65535) (hh : blocks I.height ≤ 65535)
    (hn : blocks I.width * blocks I.height ≤ 65535) : blkHeader (blkBytes I) =
      .ok ⟨⟨false, .rgb565, false⟩, blocks I.width, blocks I.height, blocks I.width * blocks I.height⟩ := by
  have hlen := length_blkBytes I
  have hheader : BytesAt (blkBytes I) 0 (blkHeaderBytes I) := (bytesAt_self (blkBytes I)).left
  have hmagic : in32 (blkBytes I) false 0 = 1 := hheader.left.left.left.in32_eq
  have hwide : in16 (blkBytes I) false 4 = blocks I.width := hheader.left.left.right.in16_of_lt (by omega)
  have hhigh : in16 (blkBytes I) false 6 = blocks I.height := hheader.left.right.in16_of_lt (by omega)
  have hcount : in16 (blkBytes I) false 8 = blocks I.width * blocks I.height := hheader.right.in16_of_lt (by omega)
  have hid : identify (blkBytes I) = some ⟨false, .rgb565, false⟩ := by
    rw [identify_eq_magicDescriptor (by omega), hmagic]
    rfl
  rw [blkHeader_ok hid rfl rfl (by omega), hwide, hhigh, hcount]

/-- The stored offset of tile k (R238). -/
theorem blkBytes_offset (hn : blocks I.width * blocks I.height ≤ 65535) {k : Nat}
    (hk : k < blocks I.width * blocks I.height) :
    in32 (blkBytes I) false (10 + 8 * k) = 6 + 8 * (blocks I.width * blocks I.height) + 32768 * k := by
  have htile := List.getElem?_eq_getElem ((length_cutTiles I).symm ▸ hk)
  exact (blkBytes_tile I htile).1.frameFields_eq.1.trans (Nat.mod_eq_of_lt (by omega))

/-- The size of tile k that the parser reads back. -/
theorem blkBytes_tileSize {k : Nat} (hk : k < blocks I.width * blocks I.height) :
    tileWidth (blkBytes I) k = 128 ∧ tileHeight (blkBytes I) k = 128 := by
  have htile := List.getElem?_eq_getElem ((length_cutTiles I).symm ▸ hk)
  obtain ⟨-, hw, hh⟩ := cutTiles_shape (List.mem_of_getElem? htile)
  obtain ⟨-, hwidth, hheight⟩ := (blkBytes_tile I htile).1.frameFields_eq
  rw [hw] at hwidth
  rw [hh] at hheight
  exact ⟨hwidth, hheight⟩

/-- Where the parser looks for the pixels of tile k (R233). -/
theorem tilePosition_blkBytes {k : Nat} (hk : k ≤ blocks I.width * blocks I.height) :
    tilePosition (blkBytes I) (blocks I.width * blocks I.height) k =
      10 + 8 * (blocks I.width * blocks I.height) + 32768 * k := by
  induction k with
  | zero => rfl
  | succ k ih =>
    obtain ⟨hw, hh⟩ := blkBytes_tileSize hk
    rw [tilePosition, ih (Nat.le_of_succ_le hk), hw, hh]
    omega

/-- Tile k comes back from the bytes, with nothing read past the end. -/
theorem decodeTile_blkBytes (hw : blocks I.width ≤ 65535) (hh : blocks I.height ≤ 65535)
    (hn : blocks I.width * blocks I.height ≤ 65535) {k : Nat} {T : PixelBuffer} (hk : (cutTiles I)[k]? = some T) :
    decodeTile (blkBytes I) k = .ok (T, false) := by
  have hlt := (List.getElem?_eq_some_iff.mp hk).1
  rw [length_cutTiles] at hlt
  have hlen := length_blkBytes I
  obtain ⟨hwf, hTw, hTh⟩ := cutTiles_shape (List.mem_of_getElem? hk)
  obtain ⟨htileW, htileH⟩ := blkBytes_tileSize hlt
  have hraw := decodeRaw_pixelBytes (c := false) hwf (blkBytes_tile I hk).2
  rw [hTw, hTh] at hraw
  rw [decodeTile_ok (blkHeader_blkBytes hw hh hn) hlt (by omega), tilePosition_blkBytes hlt.le, htileW, htileH, hraw]

end

end Sys2Proof.Machine

open Sys2Proof Sys2Proof.Machine

/-- Settles O52: the parts of the bytes read back, and the tiles stitched pixel by pixel. -/
theorem blkRoundTrip : Obligations.BlkRoundTrip := by
  intro I hI bw bh hw hh hn
  refine ⟨length_blkBytes I, blkHeader_blkBytes hw hh hn,
    fun k hk => ⟨blkBytes_offset hn hk, tilePosition_blkBytes hk.le⟩, cutTiles I, length_cutTiles I,
    fun T hT => (cutTiles_shape hT).2, fun k hk => decodeTile_blkBytes hw hh hn (List.getElem?_eq_getElem hk),
    stitch_cutTiles I, fun hW hH => ?_⟩
  refine (stitch_cutTiles I).trans ?_
  show I.crop 0 0 (128 * bw) (128 * bh) = I
  rw [← hW, ← hH, PixelBuffer.crop_full hI]

end

section
/-! SUPPORT. The bit-depth tables (44_quantizer.md R261 to R266): the bits of the truncation table, that it keeps the order of
the samples, and the bracket of a sample among the representable values. -/

namespace Sys2Proof.Machine

/-! ### The bits of the truncation table -/

theorem testBit_topBits (N v i : Nat) :
    (topBits N v).testBit i = true ↔ (8 - N ≤ i ∧ i < 8) ∧ v.testBit i = true := by
  have hmask : ∀ i, Nat.testBit 0xFF i = decide (i < 8) := Nat.testBit_two_pow_sub_one 8
  simp only [topBits, Nat.testBit_and, Nat.testBit_shiftLeft, hmask, Bool.and_eq_true, decide_eq_true_eq]
  constructor
  · rintro ⟨⟨hbit, hlow, -⟩, hhigh⟩
    exact ⟨⟨hlow, hhigh⟩, hbit⟩
  · rintro ⟨⟨hlow, hhigh⟩, hbit⟩
    exact ⟨⟨hbit, hlow, by omega⟩, hhigh⟩

/-- A bit of a table entry is set by one of the copies (R261). -/
theorem testBit_trunc (N v i : Nat) : (trunc N v).testBit i = true ↔
    ∃ j < 8, (8 - N ≤ i + N * j ∧ i + N * j < 8) ∧ v.testBit (i + N * j) = true := by
  have hfold (l : List Nat) (r : Nat) : (l.foldl (fun r j => r ||| (topBits N v >>> (N * j))) r).testBit i = true ↔
      r.testBit i = true ∨ ∃ j ∈ l, (topBits N v).testBit (i + N * j) = true := by
    induction l generalizing r with
    | nil => simp
    | cons j l ih => simp [ih, Nat.testBit_or, Nat.testBit_shiftRight, Nat.add_comm i, or_assoc]
  simp only [trunc, hfold, testBit_topBits, Nat.zero_testBit, Bool.false_eq_true, false_or, List.mem_range]

/-- The top N bits of a sample, repeated downward (R261). -/
theorem testBit_trunc_repeats {N : Nat} (h1 : 1 ≤ N) (hN : N ≤ 8) (v : Nat) {j : Nat} (hj : j < 8) :
    (trunc N v).testBit (7 - j) = v.testBit (7 - j % N) := by
  rw [Bool.eq_iff_iff, testBit_trunc]
  constructor
  · rintro ⟨i, -, hrange, hbit⟩
    obtain ⟨r, rfl⟩ : ∃ r, j = N * i + r := ⟨j - N * i, by omega⟩
    rwa [Nat.mul_add_mod, Nat.mod_eq_of_lt (by omega), show 7 - r = 7 - (N * i + r) + N * i by omega]
  · have hmod := Nat.mod_lt j h1
    have hdiv := Nat.mod_add_div j N
    have hpos : 7 - j + N * (j / N) = 7 - j % N := by omega
    exact fun hbit => ⟨j / N, (Nat.div_le_self j N).trans_lt hj, by omega, hpos ▸ hbit⟩

@[simp] theorem trunc_zero_bits (v : Nat) : trunc 0 v = 0 := by
  refine Nat.eq_of_testBit_eq fun i => ?_
  rw [Nat.zero_testBit, Bool.eq_false_iff, ne_eq, testBit_trunc]
  rintro ⟨j, -, hrange, -⟩
  omega

theorem trunc_lt (N v : Nat) : trunc N v < 256 := by
  refine Nat.lt_pow_two_of_testBit (n := 8) _ fun i hi => ?_
  rw [Bool.eq_false_iff, ne_eq, testBit_trunc]
  rintro ⟨j, -, hrange, -⟩
  omega

/-- A table entry depends on the top N bits alone. -/
theorem trunc_congr {N u v : Nat} (h : u >>> (8 - N) = v >>> (8 - N)) : trunc N u = trunc N v := by
  have hbits (i : Nat) (hi : 8 - N ≤ i) : u.testBit i = v.testBit i := by
    have hbit := congrArg (Nat.testBit · (i - (8 - N))) h
    simpa only [Nat.testBit_shiftRight, Nat.add_sub_cancel' hi] using hbit
  refine Nat.eq_of_testBit_eq fun i => ?_
  rw [Bool.eq_iff_iff, testBit_trunc, testBit_trunc]
  refine exists_congr fun j => and_congr_right fun _ => and_congr_right fun hrange => ?_
  rw [hbits _ hrange.1]

/-- A table entry keeps the top N bits (R289 (2)). -/
theorem trunc_shiftRight {N v : Nat} (h1 : 1 ≤ N) (hN : N ≤ 8) (hv : v < 256) : trunc N v >>> (8 - N) = v >>> (8 - N) := by
  refine Nat.eq_of_testBit_eq fun i => ?_
  rw [Nat.testBit_shiftRight, Nat.testBit_shiftRight]
  by_cases hi : i < N
  · have hbit := testBit_trunc_repeats h1 hN v (j := N - 1 - i) (by omega)
    rwa [Nat.mod_eq_of_lt (by omega), show 7 - (N - 1 - i) = 8 - N + i by omega] at hbit
  · have hhigh : 2 ^ 8 ≤ 2 ^ (8 - N + i) := Nat.pow_le_pow_right (by decide) (by omega)
    rw [Nat.testBit_lt_two_pow ((trunc_lt N v).trans_le hhigh), Nat.testBit_lt_two_pow (hv.trans_le hhigh)]

theorem trunc_trunc {N v : Nat} (hN : N ≤ 8) (hv : v < 256) : trunc N (trunc N v) = trunc N v := by
  obtain rfl | (h1 : 1 ≤ N) := N.eq_zero_or_pos
  · simp
  · exact trunc_congr (trunc_shiftRight h1 hN hv)

theorem shiftRight_mono {u v : Nat} (h : u ≤ v) (k : Nat) : u >>> k ≤ v >>> k := by
  rw [Nat.shiftRight_eq_div_pow, Nat.shiftRight_eq_div_pow]
  exact Nat.div_le_div_right h

/-- The truncation table does not decrease. -/
theorem trunc_mono {N u v : Nat} (hN : N ≤ 8) (huv : u ≤ v) (hv : v < 256) : trunc N u ≤ trunc N v := by
  obtain rfl | (h1 : 1 ≤ N) := N.eq_zero_or_pos
  · simp
  by_contra hlt
  have hback : trunc N v >>> (8 - N) ≤ trunc N u >>> (8 - N) := shiftRight_mono (Nat.le_of_not_le hlt) _
  rw [trunc_shiftRight h1 hN hv, trunc_shiftRight h1 hN (huv.trans_lt hv)] at hback
  exact hlt (trunc_congr ((shiftRight_mono huv _).antisymm hback)).le

/-! ### The bracket of a sample -/

/-- The representable values are the table's entries (R262). -/
theorem mem_representable {N : Nat} (hN : N ≤ 8) (r : Nat) : r ∈ representable N ↔ ∃ u < 256, trunc N u = r := by
  simp only [representable, List.mem_map, List.mem_range]
  have hpow : 2 ^ N * 2 ^ (8 - N) = 256 := by rw [← Nat.pow_add, Nat.add_sub_cancel' hN]
  constructor
  · rintro ⟨k, hk, rfl⟩
    refine ⟨_, ?_, rfl⟩
    rw [Nat.shiftLeft_eq, ← hpow]
    exact Nat.mul_lt_mul_of_pos_right hk (Nat.two_pow_pos _)
  · rintro ⟨u, hu, rfl⟩
    refine ⟨u >>> (8 - N), ?_, trunc_congr (Nat.shiftLeft_shiftRight ..)⟩
    rw [Nat.shiftRight_eq_div_pow]
    exact Nat.div_lt_of_lt_mul (by rwa [Nat.mul_comm, hpow])

theorem trunc_ends : ∀ N ≤ 8, trunc N 0 = 0 ∧ (1 ≤ N → trunc N 255 = 255) := by decide

theorem foldl_max_isGreatest (a : Nat) (l : List Nat) : IsGreatest {r | r ∈ a :: l} (l.foldl max a) :=
  List.max?_eq_some_iff.mp List.max?_cons'

theorem foldl_min_isLeast (a : Nat) (l : List Nat) : IsLeast {r | r ∈ a :: l} (l.foldl min a) :=
  List.min?_eq_some_iff.mp List.min?_cons'

/-- `low` is the greatest representable value at or below v (R263). -/
theorem lowOf_isGreatest {N : Nat} (hN : N ≤ 8) (v : Nat) :
    IsGreatest {r | (∃ u < 256, trunc N u = r) ∧ r ≤ v} (lowOf N v) := by
  have hzero : ∃ u < 256, trunc N u = 0 := ⟨0, by decide, (trunc_ends N hN).1⟩
  rw [lowOf]
  convert foldl_max_isGreatest 0 ((representable N).filter fun r => decide (r ≤ v)) using 1
  ext r
  simp only [Set.mem_ofPred_eq, List.mem_cons, List.mem_filter, mem_representable hN, decide_eq_true_eq]
  exact (or_iff_right_of_imp fun h => h ▸ ⟨hzero, v.zero_le⟩).symm

/-- `high`, for N >= 1, is the least representable value at or above v (R263). -/
theorem highOf_isLeast {N v : Nat} (h1 : 1 ≤ N) (hN : N ≤ 8) (hv : v < 256) :
    IsLeast {r | (∃ u < 256, trunc N u = r) ∧ v ≤ r} (highOf N v) := by
  have hlast : ∃ u < 256, trunc N u = 255 := ⟨255, by decide, (trunc_ends N hN).2 h1⟩
  rw [highOf, if_neg (by omega)]
  convert foldl_min_isLeast 255 ((representable N).filter fun r => decide (v ≤ r)) using 1
  ext r
  simp only [Set.mem_ofPred_eq, List.mem_cons, List.mem_filter, mem_representable hN, decide_eq_true_eq]
  exact (or_iff_right_of_imp fun h => h ▸ ⟨hlast, Nat.le_of_lt_succ hv⟩).symm

@[simp] theorem highOf_zero_bits (v : Nat) : highOf 0 v = 0 := rfl

/-- A table entry is one of the two ends of the bracket (R289 (3)). -/
theorem trunc_eq_lowOf_or_highOf {N v : Nat} (hN : N ≤ 8) (hv : v < 256) :
    trunc N v = lowOf N v ∨ trunc N v = highOf N v := by
  obtain rfl | (h1 : 1 ≤ N) := N.eq_zero_or_pos
  · exact .inr (trunc_zero_bits v)
  obtain hle | hle := le_total (trunc N v) v
  · refine .inl ((lowOf_isGreatest hN v).unique ⟨⟨⟨v, hv, rfl⟩, hle⟩, ?_⟩).symm
    rintro _ ⟨⟨u, hu, rfl⟩, huv⟩
    exact trunc_trunc hN hu ▸ trunc_mono hN huv hv
  · refine .inr ((highOf_isLeast h1 hN hv).unique ⟨⟨⟨v, hv, rfl⟩, hle⟩, ?_⟩).symm
    rintro _ ⟨⟨u, hu, rfl⟩, hvu⟩
    exact trunc_trunc hN hu ▸ trunc_mono hN hvu (trunc_lt N u)

/-! ### The fractions -/

/-- Inside a proper bracket a sample is below `high`: else it is representable, and so `low` too (R264). -/
theorem lt_highOf {N v : Nat} (hN : N ≤ 8) (hv : v < 256) (h : lowOf N v < highOf N v) : v < highOf N v := by
  obtain rfl | (h1 : 1 ≤ N) := N.eq_zero_or_pos
  · cases h
  obtain ⟨⟨hrep, hle⟩, -⟩ := highOf_isLeast h1 hN hv
  refine hle.lt_of_ne fun heq => h.not_ge ?_
  exact (lowOf_isGreatest hN v).2 ⟨hrep, heq.ge⟩

/-- The linear fraction is the floor of 65536 (v - low) / (high - low) (R265). -/
theorem linearFraction_bounds {N v : Nat} (hN : N ≤ 8) (hv : v < 256) (h : lowOf N v < highOf N v) :
    linearFraction N v * (highOf N v - lowOf N v) ≤ 65536 * (v - lowOf N v) ∧
      65536 * (v - lowOf N v) < (linearFraction N v + 1) * (highOf N v - lowOf N v) ∧ linearFraction N v ≤ 65535 := by
  have hwidth : 0 < highOf N v - lowOf N v := Nat.sub_pos_of_lt h
  have hbelow := lt_highOf hN hv h
  rw [linearFraction, if_pos h]
  refine ⟨Nat.div_mul_le_self .., Nat.lt_mul_of_div_lt (Nat.lt_succ_self _) hwidth, Nat.le_of_lt_succ ?_⟩
  rw [Nat.div_lt_iff_lt_mul hwidth]
  omega

/-- Both fractions are 0 where low = high (R264). -/
theorem fractions_eq_zero {N v : Nat} (h : lowOf N v = highOf N v) : linearFraction N v = 0 ∧ gammaFraction N v = 0 :=
  ⟨if_neg h.not_lt, if_neg h.not_lt⟩

theorem gammaFraction_le (N v : Nat) : gammaFraction N v ≤ 65535 := by
  unfold gammaFraction
  split
  · exact Nat.min_le_left ..
  · exact Nat.zero_le _

/-- Within one bracket the gamma fraction does not decrease (R266). -/
theorem gammaFraction_mono {N v w : Nat} (hlow : lowOf N v = lowOf N w) (hhigh : highOf N v = highOf N w) (h : v ≤ w) :
    gammaFraction N v ≤ gammaFraction N w := by
  unfold gammaFraction
  rw [hlow, hhigh]
  split
  · exact min_le_min_left _ ((Config.gammaCurve N (lowOf N w)).monotone h)
  · exact le_rfl

end Sys2Proof.Machine

open Sys2Proof Sys2Proof.Machine

/-- Settles O55: the table's bits, the two ends of the bracket as extrema, and the three laws of the fractions. -/
theorem bitDepthTableLaws : Obligations.BitDepthTableLaws := by
  refine ⟨fun N v hN hv => ?_, fun N v => fractions_eq_zero, gammaFraction_le, fun N v w => gammaFraction_mono⟩
  obtain ⟨⟨hlowRep, hlow⟩, hlowGreatest⟩ := lowOf_isGreatest hN v
  refine ⟨fun j hj => ?_, trunc_lt N v, trunc_trunc hN hv, trunc_eq_lowOf_or_highOf hN hv,
    fun h1 => ⟨trunc_shiftRight h1 hN hv, trunc_congr (Nat.shiftLeft_shiftRight .. ▸ rfl)⟩, hlow, hlowRep,
    fun u hu hle => hlowGreatest ⟨⟨u, hu, rfl⟩, hle⟩, fun h1 => ?_, highOf_zero_bits v, linearFraction_bounds hN hv⟩
  · obtain rfl | (h1 : 1 ≤ N) := N.eq_zero_or_pos
    · simp
    · rw [testBit_trunc_repeats h1 hN v hj, decide_eq_true h1, Bool.true_and]
  · obtain ⟨⟨hhighRep, hhigh⟩, hhighLeast⟩ := highOf_isLeast h1 hN hv
    exact ⟨hhigh, hhighRep, fun u hu hle => hhighLeast ⟨⟨u, hu, rfl⟩, hle⟩⟩

end

section
/-! SUPPORT. The pattern sets (44_quantizer.md R268 to R272): the four threshold sets are those of matrices that hold each of
0 to k * k - 1 once, and pattern t of such a matrix has t ones. -/

namespace Sys2Proof.Machine

/-! ### Threshold matrices -/

/-- A k x k matrix, read row by row, is a permutation of 0 to k * k - 1 (R272). -/
def IsThresholdMatrix (k : Nat) (m : Nat → Nat → Nat) : Prop :=
  ((List.range (k * k)).map fun i => m (i % k) (i / k)).Perm (List.range (k * k))

/-- The rows of a k x k matrix, from top to bottom. -/
def matrixRows (k : Nat) (m : Nat → Nat → Nat) : List (List Nat) :=
  (List.range k).map fun y => (List.range k).map fun x => m x y

theorem isThresholdMatrix_bayer2 : IsThresholdMatrix 2 bayer2Matrix := by unfold IsThresholdMatrix; decide

theorem isThresholdMatrix_bayer4 : IsThresholdMatrix 4 bayer4Matrix := by unfold IsThresholdMatrix; decide

/-- A permutation laid out row by row is a threshold matrix. -/
theorem isThresholdMatrix_of_perm {k n : Nat} [NeZero n] (hn : n = k * k) (e : Equiv.Perm (Fin n)) :
    IsThresholdMatrix k fun x y => (e (Fin.ofNat n (k * y + x))).val := by
  have hread : (List.range (k * k)).map (fun i => (e (Fin.ofNat n (k * (i / k) + i % k))).val) =
      ((List.finRange n).map e).map Fin.val := by
    rw [← hn, ← List.map_coe_finRange_eq_range, List.map_map, List.map_map]
    refine List.map_congr_left fun i _ => ?_
    simp [Nat.div_add_mod]
  rw [IsThresholdMatrix, hread, ← hn, ← List.map_coe_finRange_eq_range]
  exact (Equiv.Perm.map_finRange_perm e).map _

/-- The three kinds of pattern set (R270 to R272). -/
theorem patterns_kind (set : PatternSet) : set = .checkers ∨ set = .alwaysCheckers ∨
    ∃ k m, 1 ≤ k ∧ k ≤ 15 ∧ IsThresholdMatrix k m ∧ patterns set = thresholdSet k m ∧
      thresholdRows set = some (matrixRows k m) := by
  cases set with
  | checkers => exact .inl rfl
  | alwaysCheckers => exact .inr (.inl rfl)
  | bayer2 => exact .inr (.inr ⟨2, _, by decide, by decide, isThresholdMatrix_bayer2, rfl, rfl⟩)
  | bayer4 => exact .inr (.inr ⟨4, _, by decide, by decide, isThresholdMatrix_bayer4, rfl, rfl⟩)
  | bluenoise9 => exact .inr (.inr ⟨9, _, by decide, by decide, isThresholdMatrix_of_perm rfl _, rfl, rfl⟩)
  | bluenoise15 => exact .inr (.inr ⟨15, _, by decide, by decide, isThresholdMatrix_of_perm rfl _, rfl, rfl⟩)

/-! ### Scores and sizes -/

/-- Patterns of k x k bits, scored by their ones, the scores strictly rising (R268, R269). -/
structure IsPatternSet (k : Nat) (ps : List Pattern) : Prop where
  size : ∀ p ∈ ps, p.width = k ∧ p.height = k
  scored : ∀ p ∈ ps, p.ones = (List.range (p.width * p.height)).countP fun i => p.bit (i % p.width) (i / p.width)
  sorted : ps.Pairwise fun p q => p.ones < q.ones

section
variable {k : Nat} {m : Nat → Nat → Nat}

theorem IsThresholdMatrix.lt (hm : IsThresholdMatrix k m) {x y : Nat} (hx : x < k) (hy : y < k) : m x y < k * k := by
  obtain ⟨hi, hmod, hdiv⟩ := PixelBuffer.rowMajor hx hy
  exact List.mem_range.mp (hm.mem_iff.mp (List.mem_map.mpr ⟨y * k + x, List.mem_range.mpr hi, by rw [hmod, hdiv]⟩))

theorem mem_thresholdSet {p : Pattern} : p ∈ thresholdSet k m ↔ ∃ t ≤ k * k, thresholdPattern k m t = p := by
  simp [thresholdSet]

theorem countP_range_lt {n t : Nat} (h : t ≤ n) : (List.range n).countP (fun x => decide (x < t)) = t := by
  obtain ⟨d, rfl⟩ := Nat.exists_eq_add_of_le h
  rw [List.range_add, List.countP_append, List.countP_eq_length.mpr (by simp), List.countP_eq_zero.mpr (by simp),
    List.length_range, Nat.add_zero]

/-- The score t of a threshold pattern is its number of ones (R272). -/
theorem thresholdPattern_ones (hm : IsThresholdMatrix k m) {t : Nat} (ht : t ≤ k * k) :
    (List.range (k * k)).countP (fun i => (thresholdPattern k m t).bit (i % k) (i / k)) = t := by
  have hcount := hm.countP_eq (fun x => decide (x < t))
  rw [List.countP_map] at hcount
  exact hcount.trans (countP_range_lt ht)

theorem isPatternSet_thresholdSet (hm : IsThresholdMatrix k m) : IsPatternSet k (thresholdSet k m) where
  size p hp := by
    obtain ⟨t, -, rfl⟩ := mem_thresholdSet.mp hp
    exact ⟨rfl, rfl⟩
  scored p hp := by
    obtain ⟨t, ht, rfl⟩ := mem_thresholdSet.mp hp
    exact (thresholdPattern_ones hm ht).symm
  sorted := List.pairwise_map.mpr List.pairwise_lt_range

theorem matrixRows_flatten (hm : IsThresholdMatrix k m) : (matrixRows k m).flatten.Perm (List.range (k * k)) := by
  rw [matrixRows, ← List.flatMap_def, flatMap_range_map fun y x => m x y]
  exact hm

@[simp] theorem length_matrixRows : (matrixRows k m).length = k := by simp [matrixRows]

theorem length_of_mem_matrixRows {row : List Nat} (h : row ∈ matrixRows k m) : row.length = k := by
  obtain ⟨y, -, rfl⟩ := List.mem_map.mp h
  simp

/-- Row by row, a threshold pattern is 1 where the matrix is below t (R272). -/
theorem thresholdPattern_rows (t : Nat) :
    (thresholdPattern k m t).rows = (matrixRows k m).map fun row => row.map fun x => if x < t then 1 else 0 := by
  have hbit (x : Nat) : (decide (x < t)).toNat = if x < t then 1 else 0 := by split <;> simp [*]
  simp [Pattern.rows, thresholdPattern, matrixRows, hbit, Function.comp_def]

end

theorem isPatternSet_checkers : IsPatternSet 2 (patterns .checkers) :=
  ⟨by decide, by decide, by decide⟩

theorem isPatternSet_alwaysCheckers : IsPatternSet 2 (patterns .alwaysCheckers) :=
  ⟨by decide, by decide, by decide⟩

theorem isPatternSet_patterns (set : PatternSet) : ∃ k, 1 ≤ k ∧ k ≤ 15 ∧ IsPatternSet k (patterns set) := by
  obtain rfl | rfl | ⟨k, m, h1, h15, hm, hps, -⟩ := patterns_kind set
  · exact ⟨2, by decide, by decide, isPatternSet_checkers⟩
  · exact ⟨2, by decide, by decide, isPatternSet_alwaysCheckers⟩
  · exact ⟨k, h1, h15, hps ▸ isPatternSet_thresholdSet hm⟩

theorem patterns_ne_nil (set : PatternSet) : patterns set ≠ [] := by
  obtain rfl | rfl | ⟨k, m, -, -, -, hps, -⟩ := patterns_kind set
  · exact List.cons_ne_nil _ _
  · exact List.cons_ne_nil _ _
  · simp [hps, thresholdSet]

/-! ### The two ends of a set -/

/-- A set with more than the checkerboard starts with the pattern of no ones and ends with that of all ones (R270, R272). -/
theorem patterns_ends {set : PatternSet} (h : set ≠ .alwaysCheckers) :
    (∃ p, (patterns set).head? = some p ∧ p.ones = 0 ∧ ∀ x y, p.bit x y = false) ∧
    ∃ p, (patterns set).getLast? = some p ∧ p.ones = p.width * p.height ∧
      ∀ x y, x < p.width → y < p.height → p.bit x y = true := by
  obtain rfl | rfl | ⟨k, m, h1, h15, hm, hps, -⟩ := patterns_kind set
  · exact ⟨⟨_, rfl, rfl, fun _ _ => rfl⟩, _, rfl, rfl, fun _ _ _ _ => rfl⟩
  · exact absurd rfl h
  · rw [hps, thresholdSet]
    refine ⟨⟨thresholdPattern k m 0, ?_, rfl, fun _ _ => rfl⟩, thresholdPattern k m (k * k), ?_, rfl,
      fun x y hx hy => ?_⟩
    · rw [List.range_succ_eq_map]
      rfl
    · simp [List.range_succ]
    · exact decide_eq_true (hm.lt hx hy)

end Sys2Proof.Machine

open Sys2Proof Sys2Proof.Machine

/-- Settles O56: the sets of each kind are scored and ordered, and the rows of the threshold sets are read off their
matrices. -/
theorem patternSetsAreScoredAndOrdered : Obligations.PatternSetsAreScoredAndOrdered := by
  refine ⟨fun set => ?_, by decide, by decide, fun set M hM => ?_⟩
  · obtain ⟨k, -, -, hset⟩ := isPatternSet_patterns set
    refine ⟨hset.scored, fun p hp q hq => ?_, hset.sorted⟩
    obtain ⟨⟨hpw, hph⟩, hqw, hqh⟩ := And.intro (hset.size p hp) (hset.size q hq)
    exact ⟨hpw.trans hqw.symm, hph.trans hqh.symm⟩
  · obtain rfl | rfl | ⟨k, m, -, -, hm, hps, hrows⟩ := patterns_kind set
    · cases hM
    · cases hM
    obtain rfl := Option.some.inj (hrows.symm.trans hM)
    rw [length_matrixRows, hps]
    refine ⟨matrixRows_flatten hm, fun row => length_of_mem_matrixRows, (isPatternSet_thresholdSet hm).size, ?_⟩
    rw [thresholdSet, List.map_map]
    exact List.map_congr_left fun t _ => thresholdPattern_rows t

end

section
/-! SUPPORT. Pattern selection (44_quantizer.md R273, R274): the deterministic selection is the first of the nearest patterns,
the random one starts from the last pattern at most the fraction. -/

namespace Sys2Proof.Machine

/-! ### A pattern and a fraction -/

/-- The part of a pattern that is 1: value(P) / 255 (R268). -/
def Pattern.occupancy (p : Pattern) : ℚ := (p.ones : ℚ) / (p.width * p.height)

section
variable {p : Pattern} {F : Nat}

theorem cast_area (p : Pattern) : (p.area : ℚ) = p.width * p.height := Nat.cast_mul ..

theorem abs_sub_occupancy (hp : 0 < p.area) :
    |(F : ℚ) / 65536 - p.occupancy| = (p.distance F : ℚ) / (65536 * p.area) := by
  have harea : (0 : ℚ) < 65536 * p.area := mul_pos (by norm_num) (Nat.cast_pos.mpr hp)
  have hsub : (F : ℚ) / 65536 - p.occupancy = (F * p.area - 65536 * p.ones) / (65536 * p.area) := by
    have hne : (p.area : ℚ) ≠ 0 := Nat.cast_ne_zero.mpr hp.ne'
    rw [Pattern.occupancy, ← cast_area]
    field_simp
  rw [hsub, abs_div, abs_of_pos harea, Pattern.distance, Nat.cast_natAbs]
  push_cast
  rfl

/-- Among patterns of one size, the nearer one is that of the smaller distance. -/
theorem abs_sub_occupancy_le_iff {q : Pattern} (hp : 0 < p.area) (hq : q.area = p.area) :
    |(F : ℚ) / 65536 - p.occupancy| ≤ |(F : ℚ) / 65536 - q.occupancy| ↔ p.distance F ≤ q.distance F := by
  have harea : (0 : ℚ) < 65536 * p.area := mul_pos (by norm_num) (Nat.cast_pos.mpr hp)
  rw [abs_sub_occupancy hp, abs_sub_occupancy (hq ▸ hp), hq, div_le_div_iff_of_pos_right harea, Nat.cast_le]

theorem occupancy_le_iff (hp : 0 < p.area) : p.occupancy ≤ (F : ℚ) / 65536 ↔ p.atMost F = true := by
  have harea : (0 : ℚ) < p.area := Nat.cast_pos.mpr hp
  rw [Pattern.occupancy, ← cast_area, div_le_div_iff₀ harea (by norm_num), Pattern.atMost, decide_eq_true_eq,
    Nat.mul_comm 65536]
  exact_mod_cast Iff.rfl

theorem occupancy_eq_iff (hp : 0 < p.area) : p.occupancy = (F : ℚ) / 65536 ↔ p.exactly F = true := by
  have harea : (p.area : ℚ) ≠ 0 := Nat.cast_ne_zero.mpr hp.ne'
  rw [Pattern.occupancy, ← cast_area, div_eq_div_iff harea (by norm_num), Pattern.exactly, decide_eq_true_eq,
    Nat.mul_comm 65536]
  exact_mod_cast Iff.rfl

end

/-! ### The nearest pattern -/

/-- Index i is that of the nearest pattern, the first one on a tie (R273). -/
def IsFirstNearest (F : Nat) (ps : List Pattern) (i : Nat) : Prop :=
  ∃ h : i < ps.length, ∀ (j : Nat) (hj : j < ps.length),
    ps[i].distance F ≤ ps[j].distance F ∧ (j < i → ps[i].distance F < ps[j].distance F)

theorem isFirstNearest_head {F : Nat} {p : Pattern} {ps : List Pattern} (h : ∀ q ∈ ps, p.distance F ≤ q.distance F) :
    IsFirstNearest F (p :: ps) 0 := by
  refine ⟨Nat.succ_pos _, fun j hj => ⟨?_, fun h0 => absurd h0 (Nat.not_lt_zero j)⟩⟩
  cases j with
  | zero => exact le_rfl
  | succ j => exact h _ (List.getElem_mem (Nat.lt_of_succ_lt_succ hj))

theorem IsFirstNearest.cons {F i : Nat} {p : Pattern} {ps : List Pattern} (h : IsFirstNearest F ps i)
    (hi : ∀ q, ps[i]? = some q → q.distance F < p.distance F) : IsFirstNearest F (p :: ps) (i + 1) := by
  obtain ⟨hlt, hnearest⟩ := h
  refine ⟨Nat.succ_lt_succ hlt, fun j hj => ?_⟩
  cases j with
  | zero =>
    have hp := hi _ (List.getElem?_eq_getElem hlt)
    exact ⟨hp.le, fun _ => hp⟩
  | succ j =>
    obtain ⟨hle, htie⟩ := hnearest j (Nat.lt_of_succ_lt_succ hj)
    exact ⟨hle, fun hji => htie (Nat.lt_of_succ_lt_succ hji)⟩

/-- The search stays at the pattern found before, or moves to the first nearest of those that follow. -/
theorem nearestFrom_cases (F best found i : Nat) (ps : List Pattern) :
    (nearestFrom F best found i ps = found ∧ ∀ p ∈ ps, best ≤ p.distance F) ∨
      ∃ j, nearestFrom F best found i ps = i + j ∧ IsFirstNearest F ps j ∧ ∀ q, ps[j]? = some q → q.distance F < best := by
  induction ps generalizing best found i with
  | nil => exact .inl ⟨rfl, fun _ h => nomatch h⟩
  | cons p ps ih =>
    rw [nearestFrom]
    split
    · next hp =>
      refine .inr ?_
      obtain ⟨heq, hbest⟩ | ⟨j, heq, hj, hlt⟩ := ih (p.distance F) i (i + 1)
      · exact ⟨0, heq, isFirstNearest_head hbest, fun q hq => Option.some.inj hq ▸ hp⟩
      · exact ⟨j + 1, by omega, hj.cons hlt, fun q hq => (hlt q hq).trans hp⟩
    · next hp =>
      obtain ⟨heq, hbest⟩ | ⟨j, heq, hj, hlt⟩ := ih best found (i + 1)
      · exact .inl ⟨heq, List.forall_mem_cons.mpr ⟨Nat.le_of_not_lt hp, hbest⟩⟩
      · exact .inr ⟨j + 1, by omega, hj.cons fun q hq => (hlt q hq).trans_le (Nat.le_of_not_lt hp), hlt⟩

theorem select_isFirstNearest {ps : List Pattern} (F : Nat) (h : ps ≠ []) : IsFirstNearest F ps (select ps F) := by
  cases ps with
  | nil => exact absurd rfl h
  | cons p ps =>
    obtain ⟨heq, hbest⟩ | ⟨j, heq, hj, hlt⟩ := nearestFrom_cases F (p.distance F) 0 1 ps
    · rw [select, heq]
      exact isFirstNearest_head hbest
    · rw [select, heq, Nat.add_comm]
      exact hj.cons hlt

/-- Fraction 0 selects a first pattern with no ones (R273). -/
theorem select_zero {ps : List Pattern} {p : Pattern} (hp : ps.head? = some p) (hones : p.ones = 0) : select ps 0 = 0 := by
  cases ps with
  | nil => cases hp
  | cons q ps =>
    obtain rfl := Option.some.inj hp
    obtain ⟨_, hnearest⟩ := select_isFirstNearest 0 (List.cons_ne_nil q ps)
    have hzero : q.distance 0 = 0 := by simp [Pattern.distance, hones]
    refine Nat.eq_zero_of_not_pos fun hpos => ?_
    exact absurd ((hnearest 0 (Nat.succ_pos _)).2 hpos) (by simp [hzero])

/-- At the largest fraction a pattern of all ones is nearer than any other of its size. -/
theorem distance_largest_lt {p q : Pattern} (harea : q.area = p.area) (hsmall : p.area < 32768) (hp : p.ones = p.area)
    (hq : q.ones < p.ones) : p.distance 65535 < q.distance 65535 := by
  simp only [Pattern.distance, harea]
  omega

theorem IsPatternSet.area_eq {k : Nat} {ps : List Pattern} (h : IsPatternSet k ps) {i : Nat} (hi : i < ps.length) :
    ps[i].area = k * k := by
  obtain ⟨hw, hh⟩ := h.size ps[i] (List.getElem_mem hi)
  rw [Pattern.area, hw, hh]

/-- The largest fraction selects a last pattern of all ones (R273). -/
theorem select_largest {k : Nat} {ps : List Pattern} (hset : IsPatternSet k ps) (hk : k ≤ 15) {p : Pattern}
    (hp : ps.getLast? = some p) (hones : p.ones = p.area) : select ps 65535 + 1 = ps.length := by
  rw [List.getLast?_eq_getElem?] at hp
  obtain ⟨hlast, rfl⟩ := List.getElem?_eq_some_iff.mp hp
  obtain ⟨hlt, hnearest⟩ := select_isFirstNearest 65535 (List.ne_nil_of_length_pos (Nat.zero_lt_of_lt hlast))
  by_contra hne
  have hfewer := List.pairwise_iff_getElem.mp hset.sorted _ _ hlt hlast (by omega)
  have harea : k * k ≤ 15 * 15 := Nat.mul_le_mul hk hk
  refine (hnearest _ hlast).1.not_gt (distance_largest_lt ?_ ?_ hones hfewer)
  · rw [hset.area_eq, hset.area_eq]
  · rw [hset.area_eq]
    omega

/-! ### The last pattern at most a fraction -/

theorem lastAtMost_of_none {F found i : Nat} {ps : List Pattern} (h : ∀ p ∈ ps, p.atMost F = false) :
    lastAtMost F found i ps = found := by
  induction ps generalizing i with
  | nil => rfl
  | cons p ps ih =>
    obtain ⟨hp, hps⟩ := List.forall_mem_cons.mp h
    rw [lastAtMost, hp]
    exact ih hps

theorem lastAtMost_eq {F found i k : Nat} {ps : List Pattern} (hk : k < ps.length) (h : ps[k].atMost F = true)
    (hlast : ∀ (j : Nat) (hj : j < ps.length), k < j → ps[j].atMost F = false) : lastAtMost F found i ps = i + k := by
  induction ps generalizing found i k with
  | nil => cases hk
  | cons p ps ih =>
    cases k with
    | zero =>
      have hnone : ∀ q ∈ ps, q.atMost F = false := fun q hq => by
        obtain ⟨j, hj, rfl⟩ := List.getElem_of_mem hq
        exact hlast (j + 1) (Nat.succ_lt_succ hj) (Nat.succ_pos j)
      rw [lastAtMost, if_pos (show p.atMost F = true from h), lastAtMost_of_none hnone]
      rfl
    | succ k =>
      have hrest (found : Nat) : lastAtMost F found (i + 1) ps = i + (k + 1) :=
        (ih (Nat.lt_of_succ_lt_succ hk) h fun j hj hkj => hlast (j + 1) (Nat.succ_lt_succ hj) (Nat.succ_lt_succ hkj)).trans
          (by omega)
      rw [lastAtMost, hrest, hrest, ite_self]

theorem patternAt_eq {ps : List Pattern} {i : Nat} {p : Pattern} (h : ps[i]? = some p) : patternAt ps i = p := by
  rw [patternAt, List.getD, h]
  rfl

/-- The random selection from the last pattern at most F (R274). -/
theorem selectRandom_eq {F n i : Nat} {ps : List Pattern} (hi : i < ps.length) (h : ps[i].atMost F = true)
    (hlast : ∀ (j : Nat) (hj : j < ps.length), i < j → ps[j].atMost F = false) :
    selectRandom ps F n = if i + 1 = ps.length ∨ ps[i].exactly F = true then (i, n)
      else (if Config.drawBit n then i + 1 else i, n + 1) := by
  rw [selectRandom, lastAtMost_eq hi h hlast, Nat.zero_add, patternAt_eq (List.getElem?_eq_getElem hi)]

end Sys2Proof.Machine

open Sys2Proof Sys2Proof.Machine

/-- Settles O57: both selections compare a pattern's ones with the fraction as whole numbers. -/
theorem patternSelection : Obligations.PatternSelection := by
  refine ⟨fun set F hF => ?_, fun set hset => ?_⟩
  all_goals obtain ⟨k, h1, h15, hps⟩ := isPatternSet_patterns set
  · intro ps value
    have hpos {i : Nat} (hi : i < ps.length) : 0 < ps[i].area := hps.area_eq hi ▸ Nat.mul_pos h1 h1
    refine ⟨?_, fun i n hi hle hlast => ?_⟩
    · obtain ⟨hlt, hnearest⟩ := select_isFirstNearest F (patterns_ne_nil set)
      refine ⟨hlt, fun j hj => ?_⟩
      obtain ⟨hmin, htie⟩ := hnearest j hj
      have harea : ps[j].area = (ps[select ps F]).area := (hps.area_eq hj).trans (hps.area_eq hlt).symm
      refine ⟨(abs_sub_occupancy_le_iff (hpos hlt) harea).mpr hmin, fun hji => not_le.mp fun hle => ?_⟩
      exact (htie hji).not_ge ((abs_sub_occupancy_le_iff (hpos hj) harea.symm).mp hle)
    · rw [selectRandom_eq hi ((occupancy_le_iff (hpos hi)).mp hle) fun j hj hij =>
        Bool.eq_false_iff.mpr fun hmost => (hlast j hj hij).not_ge ((occupancy_le_iff (hpos hj)).mpr hmost)]
      have hexactly := occupancy_eq_iff (F := F) (hpos hi)
      exact ⟨fun h => if_pos (h.imp_right hexactly.mp), fun h => if_neg fun h' => h (h'.imp_right hexactly.mpr)⟩
  · obtain ⟨⟨p, hhead, hnone, hzeros⟩, q, hlast, hall, hones⟩ := patterns_ends hset
    exact ⟨select_zero hhead hnone, select_largest hps h15 hlast hall, ⟨p, hhead, hnone, hzeros⟩, q, hlast, hall, hones⟩

end

section
/-! SUPPORT. The strategies (44_quantizer.md R277 to R285): each takes one of the two ends of the bracket, but for those that
truncate, compare with 128 or draw a byte. -/

namespace Sys2Proof.Machine

theorem pick_eq_lowOf_or_highOf (N v : Nat) (up : Bool) : pick N v up = lowOf N v ∨ pick N v up = highOf N v := by
  cases up
  · exact .inl rfl
  · exact .inr rfl

theorem pick_decide (N v : Nat) (P : Prop) [Decidable P] : pick N v (decide P) = if P then highOf N v else lowOf N v := by
  rw [pick]
  exact if_congr (decide_eq_true_iff ..) rfl rfl

/-- The noise of `random-floor` stays below its step (R281). -/
theorem drawInt_le (n b : Nat) : drawInt n 0 b ≤ b := by
  rw [drawInt, Nat.zero_add, Nat.sub_zero]
  exact Nat.le_of_lt_succ (Nat.mod_lt _ (Nat.succ_pos b))

end Sys2Proof.Machine

open Sys2Proof Sys2Proof.Machine

/-- Settles O58: each strategy's own rule; the end that is picked is `low` or `high`. -/
theorem strategyOutputs : Obligations.StrategyOutputs := by
  refine ⟨fun g N v x y n => ⟨rfl, ?_, rfl, fun _ => ⟨drawInt n 0 (noiseStep N - 1), drawInt_le .., rfl⟩, ?_, rfl⟩,
    fun set g N v x y n p => ⟨fun hp => ?_, fun hp => ?_⟩, fun st g N v x y n hst => ?_⟩
  · rw [quantise, pick_decide]
  · rw [quantise, ← pick_decide, Bool.decide_and, Bool.decide_eq_true]
  · rw [quantise, patternAt_eq hp, pick, Pattern.sample]
  · rw [quantise, patternAt_eq hp, pick, Pattern.sample]
  · obtain rfl | rfl | ⟨set, r, rfl⟩ := hst
    · exact pick_eq_lowOf_or_highOf ..
    · exact pick_eq_lowOf_or_highOf ..
    · cases r <;> exact pick_eq_lowOf_or_highOf ..

end

section
/-! SUPPORT. QUANT and QLOOKUP (44_quantizer.md R286 to R288): one sample of a plane after another, and what is left of each
command when its fields are legal. -/

namespace Sys2Proof.Machine

/-! ### The samples of a plane -/

/-- The draws taken before sample i of a plane (R286). -/
def drawsBefore (st : Strategy) (g : Bool) (N w : Nat) (plane : List Byte) (n i : Nat) : Nat :=
  (ditherChannel st g N w (plane.take i) n).2

theorem drawsBefore_length (st : Strategy) (g : Bool) (N w : Nat) (plane : List Byte) (n : Nat) :
    drawsBefore st g N w plane n plane.length = (ditherChannel st g N w plane n).2 := by
  rw [drawsBefore, List.take_length]

/-- Of the samples from index i on, the j-th takes the draws that follow those of the samples before it. -/
theorem ditherFrom_sample (st : Strategy) (g : Bool) (N w i n : Nat) {plane : List Byte} {j : Nat} (hj : j < plane.length) :
    let before := fun j => (ditherFrom st g N w i n (plane.take j)).2
    let q := quantise st g N plane[j].toNat ((i + j) % w) ((i + j) / w) (before j)
    before (j + 1) = q.2 ∧ (ditherFrom st g N w i n plane).1[j]? = some q.1 := by
  induction plane generalizing i n j with
  | nil => cases hj
  | cons v rest ih =>
    cases j with
    | zero => exact ⟨rfl, rfl⟩
    | succ j =>
      have := ih (i + 1) (quantise st g N v.toNat (i % w) (i / w) n).2 (Nat.lt_of_succ_lt_succ hj)
      rwa [Nat.add_right_comm] at this

/-- Sample i of a plane of LM: the draws after it, and its output. -/
theorem ditherChannel_sample (st : Strategy) (g : Bool) (N w : Nat) (m : Memory) (a n : Nat) {size i : Nat}
    (hi : i < size) :
    let before := drawsBefore st g N w (m.bytes a size) n
    let q := quantise st g N (m.read (a + i)).toNat (i % w) (i / w) (before i)
    before (i + 1) = q.2 ∧ (ditherChannel st g N w (m.bytes a size) n).1[i]? = some q.1 := by
  have hsample := ditherFrom_sample st g N w 0 n (plane := m.bytes a size) (j := i) (by rwa [Memory.length_bytes])
  simpa only [Nat.zero_add, Memory.bytes, List.getElem_map, List.getElem_range, drawsBefore, ditherChannel] using hsample

/-! ### The commands -/

/-- QUANT with legal fields: the check of its plane is left, and then the samples are replaced (R287). -/
theorem quant_outcome (s : State) {c : BitVec 5} {n : BitVec 4} {st : Strategy} (g : Bool) (hn : n.toNat ≤ 8)
    (hc : Strategy.ofCode c = some st) :
    let q := ditherChannel st g n.toNat (s.argNat 1) (s.planeArg 0 (s.argNat 1) (s.argNat 2)) s.draws
    outcome s (.quant c n g) = checkRegion s (s.planeRegion 0 (s.argNat 1) (s.argNat 2)) >>= fun _ =>
      pure ⟨cellsAt (s.argNat 0) (q.1.map (BitVec.ofNat 8)), [], false, q.2⟩ :=
  (bind_ok ((checkBits_eq_ok n ()).mpr hn) _).trans (bind_ok ((checkStrategy_eq_ok ..).mpr hc) _)

/-- QLOOKUP with a legal depth has no check left (R288). -/
theorem qlookup_outcome (s : State) {n : BitVec 4} (g : Bool) (hn : n.toNat ≤ 8) :
    outcome s (.qlookup n g) = .ok (s.effect []
      [(0, toWord (trunc n.toNat (s.arg8 0))), (1, toWord (lowOf n.toNat (s.arg8 0))),
        (2, toWord (highOf n.toNat (s.arg8 0))), (3, toWord (fraction g n.toNat (s.arg8 0)))]) :=
  bind_ok ((checkBits_eq_ok n ()).mpr hn) _

theorem arg8_eq (s : State) (i : Fin 8) : s.arg8 i = s.argNat i % 256 := by
  simp [State.arg8, State.argNat, BitVec.extractLsb'_toNat]

end Sys2Proof.Machine

open Sys2Proof Sys2Proof.Machine

/-- Settles O53: the samples of the plane are written back in the order in which they are dithered. -/
theorem quantResult : Obligations.QuantResult := by
  intro s c n g st hn hc a w h out
  have ho := quant_outcome s g hn hc
  refine ⟨fun hr => exec_of_error (ho.trans (bind_error (checkRegion_fails hr) _)), fun hr hm => ?_⟩
  let plane := s.lm.bytes a (w * h)
  have hlen : plane.length = w * h := s.lm.length_bytes ..
  have hsample {i : Nat} (hi : i < w * h) := ditherChannel_sample st g n.toNat w s.lm a s.draws hi
  obtain ⟨hbytes, hframe⟩ := wroteBytes_writeAll hm a
    ((ditherChannel st g n.toNat w plane s.draws).1.map (BitVec.ofNat 8))
  simp only [List.length_map, ditherChannel_length, hlen] at hbytes hframe
  refine ⟨_, drawsBefore st g n.toNat w plane s.draws, ?_, rfl, fun i hi => (hsample hi).1, fun i hi => ?_, hframe⟩
  · rw [← hlen, drawsBefore_length]
    exact exec_of_ok (ho.trans (bind_ok (checkRegion_pass hr) _))
  · rw [hbytes i hi, List.getD, List.getElem?_map, (hsample hi).2]
    rfl

/-- Settles O54: the results are set in turn, and ARG0[7:0] is the operand modulo 256. -/
theorem qlookupResult : Obligations.QlookupResult := by
  intro s n g hn v
  rw [exec_of_effect (qlookup_outcome s g hn), arg8_eq]
  rfl

end

section
/-! SUPPORT. The colour packer (45_color_packer.md R320 to R325): the range of an assembled colour, the pixel at a position
of four planes, and what is left of PACK565 when its fields are legal. -/

namespace Sys2Proof.Machine

/-! ### One pixel -/

/-- The three fields of a colour fill 16 bits (R323). -/
theorem packColour_lt {r g b : Nat} (hr : r < 256) (hg : g < 256) (hb : b < 256) : packColour r g b < 2 ^ 16 := by
  have hred : (r >>> 3) <<< 11 < 2 ^ 16 := by rw [Nat.shiftRight_eq_div_pow, Nat.shiftLeft_eq]; omega
  have hgreen : (g >>> 2) <<< 5 < 2 ^ 16 := by rw [Nat.shiftRight_eq_div_pow, Nat.shiftLeft_eq]; omega
  have hblue : b >>> 3 < 2 ^ 16 := (Nat.shiftRight_le b 3).trans_lt (hb.trans (by decide))
  exact Nat.or_lt_two_pow (Nat.or_lt_two_pow hred hgreen) hblue

/-- With a non-zero escape colour an opaque pixel is not the mask value (R325 (1)). -/
theorem packPixel_opaque_ne_zero {fb : Pixel} {r g b a : Nat} (hfb : fb ≠ 0#16) (hcolour : packColour r g b < 2 ^ 16)
    (ha : 128 ≤ a) : packPixel fb r g b a ≠ 0#16 := by
  rw [packPixel, if_pos ha]
  split
  · next hne => exact fun hzero => hne ((Nat.mod_eq_of_lt hcolour).symm.trans (congrArg BitVec.toNat hzero))
  · exact hfb

theorem packPixel_transparent (fb : Pixel) (r g b : Nat) {a : Nat} (ha : a < 128) : packPixel fb r g b a = 0#16 :=
  if_neg (Nat.not_le.mpr ha)

/-- A sample is at least 128, so opaque as alpha (R322), exactly when its top bit is set. -/
theorem opaqueSample_iff (a : Nat) : 128 ≤ a ↔ 0 < a >>> 7 := by
  rw [Nat.shiftRight_eq_div_pow]
  omega

/-! ### The pixels of four planes -/

/-- The pixel at a position of the four planes is assembled from their samples there (R323). -/
theorem packPixels_getD (fb : Pixel) {i : Nat} {rs gs bs as : List Nat} (hr : i < rs.length) (hg : i < gs.length)
    (hb : i < bs.length) (ha : i < as.length) : (packPixels fb rs gs bs as).getD i 0#16 =
      packPixel fb (rs.getD i 0) (gs.getD i 0) (bs.getD i 0) (as.getD i 0) :=
  match i, rs, gs, bs, as, hr, hg, hb, ha with
  | 0, _ :: _, _ :: _, _ :: _, _ :: _, _, _, _, _ => rfl
  | _ + 1, _ :: _, _ :: _, _ :: _, _ :: _, hr, hg, hb, ha => (packPixels_getD fb (Nat.lt_of_succ_lt_succ hr)
    (Nat.lt_of_succ_lt_succ hg) (Nat.lt_of_succ_lt_succ hb) (Nat.lt_of_succ_lt_succ ha) :)

/-! ### The command -/

/-- The pixels that PACK565 assembles from the planes at its operands, and the draws taken after (R321). -/
def State.packed (s : State) (cd ad : Strategy) : List Pixel × Nat :=
  let plane k := s.planeArg k (s.argNat 4) (s.argNat 5)
  packPlanes cd ad (s.argNat 4) (s.arg16 6) (plane 0) (plane 1) (plane 2) (plane 3) s.draws

theorem State.length_packed (s : State) (cd ad : Strategy) : (s.packed cd ad).1.length = s.argNat 4 * s.argNat 5 := by
  rw [State.packed, packPlanes, packPixels_length, ditherChannel_length, State.planeArg_length] <;>
    simp only [ditherChannel_length, State.planeArg_length]

/-- What PACK565 does once its checks have passed: the pixels written to descriptor `p`, with the draws that they took. -/
def pack565Emit (s : State) (c d : BitVec 5) (P : List Pixel × Nat) (p : Pbd) : CmdOutcome := do
  let e ← emitBuffer s (.pack565 c d) (s.argNat 7) p ⟨s.argNat 4, s.argNat 5, P.1⟩ []
  return { e with draws := P.2 }

section
variable {s : State} {c d : BitVec 5} {cd ad : Strategy}

/-- PACK565 with legal fields: the checks of its four planes and of its output descriptor are left (R324). -/
theorem pack565_outcome (hc : Strategy.ofCode c = some cd) (hd : Strategy.ofCode d = some ad) :
    let check k := checkRegion s (s.planeRegion k (s.argNat 4) (s.argNat 5))
    outcome s (.pack565 c d) = check 0 >>= fun _ => check 1 >>= fun _ => check 2 >>= fun _ => check 3 >>= fun _ =>
      checkPbd s (s.argNat 7) false >>= pack565Emit s c d (s.packed cd ad) :=
  (bind_ok ((checkStrategy_eq_ok ..).mpr hc) _).trans (bind_ok ((checkStrategy_eq_ok ..).mpr hd) _)

/-- A region check and what follows it end with E_ADDR_RANGE when the region or what follows does. -/
theorem checkRegion_bind_fails {α : Type} {r : Region} {f : Unit → Except ErrCode α}
    (h : s.RegionIn r.start r.size → f () = .error .addrRange) : (checkRegion s r >>= f) = .error .addrRange := by
  by_cases hr : s.RegionIn r.start r.size
  · exact (bind_ok (checkRegion_pass hr) f).trans (h hr)
  · exact bind_error (checkRegion_fails hr) f

theorem pack565_outcome_plane_fails (hc : Strategy.ofCode c = some cd) (hd : Strategy.ofCode d = some ad)
    (h : ∃ k : Fin 8, k.val < 4 ∧ ¬s.RegionIn (s.argNat k) (s.argNat 4 * s.argNat 5)) :
    outcome s (.pack565 c d) = .error .addrRange := by
  refine (pack565_outcome hc hd).trans <| checkRegion_bind_fails fun h0 => checkRegion_bind_fails fun h1 =>
    checkRegion_bind_fails fun h2 => checkRegion_bind_fails fun h3 => ?_
  obtain ⟨k, hk, hout⟩ := h
  match k with
  | 0 => exact absurd h0 hout
  | 1 => exact absurd h1 hout
  | 2 => exact absurd h2 hout
  | 3 => exact absurd h3 hout

theorem pack565_outcome_planes_pass (hc : Strategy.ofCode c = some cd) (hd : Strategy.ofCode d = some ad)
    (h : ∀ k : Fin 8, k.val < 4 → s.RegionIn (s.argNat k) (s.argNat 4 * s.argNat 5)) :
    outcome s (.pack565 c d) = checkPbd s (s.argNat 7) false >>= pack565Emit s c d (s.packed cd ad) :=
  (pack565_outcome hc hd).trans <| (bind_ok (checkRegion_pass (h 0 (by decide))) _).trans <|
    (bind_ok (checkRegion_pass (h 1 (by decide))) _).trans <|
      (bind_ok (checkRegion_pass (h 2 (by decide))) _).trans (bind_ok (checkRegion_pass (h 3 (by decide))) _)

/-- The output checks of PACK565, and the pixels written (R134 step 4, R136); `f` tells the pixels. -/
theorem exec_pack565_emit {P : List Pixel × Nat} {f : Nat → Nat → Pixel}
    (ho : outcome s (.pack565 c d) = pack565Emit s c d P (s.pbdArg 7)) (hp : s.OutputPbd 7)
    (hlen : P.1.length = s.argNat 4 * s.argNat 5)
    (hf : ∀ x y, x < s.argNat 4 → y < s.argNat 5 → P.1.getD (y * s.argNat 4 + x) 0#16 = f x y) :
    ((s.pbdArg 7).cap < 2 * s.argNat 4 * s.argNat 5 → exec (.pack565 c d) s = .next (s.failedWith .capacity)) ∧
    (2 * s.argNat 4 * s.argNat 5 ≤ (s.pbdArg 7).cap →
      (¬s.NoOverlap (.pack565 c d) → exec (.pack565 c d) s = .next (s.failedWith .overlap)) ∧
      (s.NoOverlap (.pack565 c d) → s.lm.wf = true →
        ∃ lm', exec (.pack565 c d) s = .next (s.completedWith lm' s.res false P.2) ∧
          s.wroteBuffer lm' 7 (s.argNat 4) (s.argNat 5) f)) := by
  refine ⟨fun hcap => exec_of_error (ho.trans (bind_error (emitBuffer_capacity _ fun htakes => ?_) _)), fun hcap => ?_⟩
  · exact absurd htakes.2.2 (Nat.not_le.mpr hcap)
  have htakes : (s.pbdArg 7).Takes (s.argNat 4) (s.argNat 5) := ⟨s.argNat_lt 4, s.argNat_lt 5, hcap⟩
  refine ⟨fun hno => exec_of_error (ho.trans (bind_error (emitBuffer_overlap _ htakes hno) _)), fun hno hm =>
    ⟨_, exec_of_ok (ho.trans (bind_ok (emitBuffer_of_checks _ htakes hno) _)), ?_⟩⟩
  have hwf : (PixelBuffer.mk (s.argNat 4) (s.argNat 5) P.1).wf = true := (PixelBuffer.wf_iff _).mpr hlen
  exact wroteBuffer_congr (wroteBuffer_writeAll hm hwf hp htakes hno (List.sublist_append_right [_, _, _, _] _))
    fun x y hx hy => (PixelBuffer.get_natCast hx hy).trans (hf x y hx hy)

end

end Sys2Proof.Machine

open Sys2Proof Sys2Proof.Machine

/-- Settles O59: the checks of the planes and of the output descriptor come first; each pixel written is assembled from the
four dithered samples at its position. -/
theorem pack565Result : Obligations.Pack565Result := by
  refine fun s c d cd ad hc hd => ⟨fun hout => exec_of_error (pack565_outcome_plane_fails hc hd hout), fun hin => ?_⟩
  have ho := pack565_outcome_planes_pass hc hd hin
  refine ⟨fun e he => exec_of_error (ho.trans (bind_error (checkPbd_fails he) _)), fun hp => ?_⟩
  refine exec_pack565_emit (ho.trans (bind_ok (checkPbd_of_output hp) _)) hp (s.length_packed cd ad) fun x y hx hy => ?_
  obtain ⟨hi, -, -⟩ := PixelBuffer.rowMajor hx hy
  have hplane {st : Strategy} {gamma : Bool} {N n : Nat} (k : Fin 8) : y * s.argNat 4 + x <
      (ditherChannel st gamma N (s.argNat 4) (s.planeArg k (s.argNat 4) (s.argNat 5)) n).1.length := by
    rwa [ditherChannel_length, State.planeArg_length]
  exact packPixels_getD (s.arg16 6) (hplane 0) (hplane 1) (hplane 2) (hplane 3)

/-- Settles O60: an assembled colour fits 16 bits, so an opaque pixel is 0 only as its escape colour; the truncation table
keeps the top bits, which are all that a colour and an opacity read. -/
theorem packerLaws : Obligations.PackerLaws := by
  refine ⟨fun fb r g b a hfb hr hg hb => ⟨fun hzero => ?_, packPixel_transparent fb r g b⟩, fun r g b hr hg hb => ?_,
    fun a ha => ?_⟩
  · exact Nat.lt_of_not_le fun ha => packPixel_opaque_ne_zero hfb (packColour_lt hr hg hb) ha hzero
  · have hred : trunc 5 r >>> 3 = r >>> 3 := trunc_shiftRight (by decide) (by decide) hr
    have hgreen : trunc 6 g >>> 2 = g >>> 2 := trunc_shiftRight (by decide) (by decide) hg
    have hblue : trunc 5 b >>> 3 = b >>> 3 := trunc_shiftRight (by decide) (by decide) hb
    rw [packColour, hred, hgreen, hblue]
  · have htop : trunc 1 a >>> 7 = a >>> 7 := trunc_shiftRight (by decide) (by decide) ha
    rw [opaqueSample_iff, htop, ← opaqueSample_iff]

end

section
/-! SUPPORT. Exceptions (60_exceptions.md R340, R346): what becomes of STATUS.OVR, once it is set, in each kind of step. -/

namespace Sys2Proof.Machine

theorem regAt_eq_status {k : Nat} (h : regAt k = .status) : k = 2 := by simpa [h] using regAt_cases k

/-- An Engine's turn completes a command or does nothing, and neither touches OVR. -/
theorem engineTurn_ovr {s t : State} (h : engineTurn s = .next t) : t.status.ovr = s.status.ovr := by
  obtain rfl | ⟨o, rfl⟩ := engineTurn_cases h
  · rfl
  · obtain ⟨hovr, -, -⟩ := complete_status s o
    exact hovr

/-- The register writes that clear OVR: its write-1-to-clear (R36) and a soft reset (R381). -/
theorem writeReg_clears_ovr {s : State} {v : Word} {r : Reg} (hs : s.status.ovr = true)
    (h : (writeReg s v r).status.ovr = false) :
    (r = .status ∧ v.getLsbD 4 = true) ∨ (r = .ctrl ∧ v.getLsbD 0 = true) := by
  cases r with
  | status => exact .inl ⟨rfl, by simpa [writeReg, Status.clear, hs] using h⟩
  | ctrl =>
    obtain ⟨hv, -⟩ | hie := writeCtrl_cases s v
    · exact .inr ⟨rfl, hv⟩
    · simp [writeReg, hie, hs] at h
  | cmd => rcases writeCmd_cases s v with hcmd | hcmd <;> simp [writeReg, hcmd, hs] at h
  | id | arg _ | res _ | memtop | reserved => exact absurd (hs.symm.trans h) (by decide)

/-- The only steps that may change OVR are a register write and a power-on reset. -/
theorem step_ovr {s t : State} (h : step s = .next t) : t.status.ovr = s.status.ovr ∨
    (∃ k v rest, s.inputs = .write (s.params.regBase + 4 * k) .word v :: rest ∧
      t = writeReg { s with inputs := rest } v (regAt k)) ∨
    ∃ rest, s.inputs = .powerOn :: rest := by
  cases hin : s.inputs with
  | nil => exact .inl (engineTurn_ovr (step_idle hin ▸ h))
  | cons i rest =>
    cases i with
    | engine => exact .inl (engineTurn_ovr (s := { s with inputs := rest }) (step_engine hin ▸ h))
    | read addr w =>
      obtain ⟨_, _, rfl⟩ := hostRead_cases (step_read hin ▸ h)
      exact .inl rfl
    | powerOn => exact .inr (.inr ⟨rest, rfl⟩)
    | write addr w v =>
      obtain ⟨k, rfl, rfl, rfl⟩ | ⟨_, rfl⟩ := hostWrite_cases (step_write hin ▸ h)
      · exact .inr (.inl ⟨k, v, rest, rfl, rfl⟩)
      · exact .inl rfl

end Sys2Proof.Machine

open Sys2Proof Sys2Proof.Machine

/-- Settles O16: a busy CMD write is the overrun branch; of the steps that may change OVR, the register write that clears it
is one of STATUS or of CTRL. -/
theorem overrunIsFlaggedAndSticky : Obligations.OverrunIsFlaggedAndSticky := by
  refine ⟨fun s w rest hin hb => ⟨_, step_writeCmd_busy hin hb, rfl, rfl⟩, fun s t h hs ht => ?_⟩
  obtain hkept | ⟨k, v, rest, hin, rfl⟩ | hpower := step_ovr h
  · exact absurd (hs.symm.trans (hkept.symm.trans ht)) (by decide)
  · obtain ⟨hr, hv⟩ | ⟨hr, hv⟩ := writeReg_clears_ovr (s := { s with inputs := rest }) hs ht
    · exact .inl ⟨v, rest, by rw [hin, regAt_eq_status hr], hv⟩
    · exact .inr (.inl ⟨v, rest, by rw [hin, regAt_eq_ctrl hr], hv⟩)
  · exact .inr (.inr hpower)

/-- Settles O21: the two ends of a command, by its outcome; no check of a command fails with code 0. -/
theorem everyCommandCompletes : Obligations.EveryCommandCompletes := by
  intro i s
  obtain ⟨e, -, hok, -, -⟩ | ⟨c, -, herr, -, hne⟩ := exec_inv (exec_eq i s)
  · exact .inl ⟨_, _, _, _, (exec_eq i s).trans (congrArg _ (hok.trans (succeed_eq_completedWith s e)))⟩
  · exact .inr ⟨c, hne, (exec_eq i s).trans (congrArg _ (herr.trans (raiseError_eq_failedWith s c)))⟩

end

section
/-! SUPPORT. Reset and polling (70_reset_and_hazards.md R380 to R382, R389): a pending word always completes on the
Engine's turn and a poll of STATUS leaves it pending; the registers after a reset; which draw each byte takes that a soft
reset draws; the word checks as the legality of the fields. -/

namespace Sys2Proof.Machine

/-! ### A Host that polls STATUS -/

/-- The Engine's turn on any pending word completes it (R131, R134 step 1). -/
theorem engineTurn_pending {s : State} (hb : s.status.busy = true) : ∃ o, engineTurn s = .next (s.complete o) := by
  cases hd : decode s.lcmd with
  | ok i => exact ⟨outcome s i, (engineTurn_decoded hb hd).trans (exec_eq i s)⟩
  | error e => exact ⟨.error .illegalCmd, engineTurn_illegal hb fun i hi => by simp [hd] at hi⟩

theorem complete_inputs (s : State) (o : CmdOutcome) : (s.complete o).inputs = s.inputs := by rw [complete_frame]

/-- The step that takes one poll of STATUS. -/
theorem step_poll {s : State} {rest : List Input} (h : s.inputs = rd s.params 2 :: rest) :
    step s = .next { s with inputs := rest, readData := s.status.word } := step_readReg (k := 2) h rfl (by decide)

/-- A run's first step. -/
theorem run_succ {M : Host.Core} {s t : M.State} (h : M.step s = .next t) (k : Nat) : M.run (k + 1) s = M.run k t := by
  rw [Host.Core.run, h]

/-- The polls are taken one by one, and then the Engine has its turn. -/
theorem run_polling {s : State} {n : Nat} (hb : s.status.busy = true)
    (h : s.inputs = List.replicate n (rd s.params 2)) : ∃ t : State, Sys2Proof.core.run (n + 1) s = .next t ∧
      t.status.busy = false ∧ t.status.done = true ∧ t.inputs = [] := by
  induction n generalizing s with
  | zero =>
    obtain ⟨o, ho⟩ := engineTurn_pending hb
    obtain ⟨-, hbusy, hdone⟩ := complete_status s o
    have hrun := run_succ (M := Sys2Proof.core) ((step_idle h).trans ho) 0
    exact ⟨s.complete o, hrun, hbusy, hdone, (complete_inputs s o).trans h⟩
  | succ n ih =>
    obtain ⟨t, hrun, hend⟩ :=
      ih (s := { s with inputs := List.replicate n (rd s.params 2), readData := s.status.word }) hb rfl
    exact ⟨t, (run_succ (M := Sys2Proof.core) (step_poll h) _).trans hrun, hend⟩

/-! ### The registers after a reset -/

theorem softReset_idle {s : State} (h : s.status.busy = false) : s.softReset = s.resetRegisters :=
  if_neg (Bool.eq_false_iff.mp h)

theorem softReset_busy {s : State} (h : s.status.busy = true) : s.softReset = { s.resetRegisters with
    lm := (drawRegions s.params.memSize (pendingDestinations s) s.lm s.draws).1
    draws := (drawRegions s.params.memSize (pendingDestinations s) s.lm s.draws).2 } := if_pos h

/-- The step that takes a soft reset. -/
theorem step_softReset {s : State} {v : Word} {rest : List Input}
    (h : s.inputs = .write (s.params.regBase + 0x04) .word v :: rest) (hv : v.getLsbD 0 = true) :
    step s = .next ({ s with inputs := rest } : State).softReset := by rw [step_writeCtrl h, writeCtrl_reset _ hv]

/-- CTRL reads IE in bit 1 and 0 elsewhere (R34). -/
theorem ctrlWord_eq (s : State) : s.ctrlWord = if s.ie then 2#32 else 0#32 := by
  rw [State.ctrlWord]
  cases s.ie <;> rfl

/-! ### The draws of a soft reset -/

/-- Which draw LM address x takes when the regions are drawn from draw k on (R382): the last of them, when it lies in
several. -/
def drawIndex (size : Nat) : List Region → Nat → Nat → Nat
  | [], k, _ => k
  | r :: rest, k, x =>
    if rest.any fun q => q.has x then drawIndex size rest (k + (min (r.start + r.size) size - r.start)) x
    else k + (x - r.start)

theorem drawIndex_later {rest : List Region} {x : Nat} (h : (rest.any fun q => q.has x) = true) (size : Nat) (r : Region)
    (k : Nat) :
    drawIndex size (r :: rest) k x = drawIndex size rest (k + (min (r.start + r.size) size - r.start)) x := if_pos h

theorem drawIndex_first {rest : List Region} {x : Nat} (h : (rest.any fun q => q.has x) = false) (size : Nat) (r : Region)
    (k : Nat) : drawIndex size (r :: rest) k x = k + (x - r.start) := if_neg (Bool.eq_false_iff.mp h)

/-- An address of the regions lies in a later one, or only in the first. -/
theorem any_has_cons {r : Region} {rest : List Region} {x : Nat} (h : ((r :: rest).any fun q => q.has x) = true) :
    (rest.any fun q => q.has x) = true ∨
      (rest.any fun q => q.has x) = false ∧ r.start ≤ x ∧ x < r.start + r.size := by
  cases hrest : rest.any fun q => q.has x with
  | true => exact .inl rfl
  | false =>
    rw [List.any_cons, hrest, Bool.or_false] at h
    exact .inr ⟨rfl, (has_iff r x).mp h⟩

theorem le_drawIndex (size : Nat) (rs : List Region) (k x : Nat) : k ≤ drawIndex size rs k x := by
  induction rs generalizing k with
  | nil => exact le_rfl
  | cons r rest ih =>
    cases h : rest.any fun q => q.has x with
    | true =>
      rw [drawIndex_later h]
      exact (Nat.le_add_right ..).trans (ih _)
    | false =>
      rw [drawIndex_first h]
      exact Nat.le_add_right ..

/-- The byte at x is the draw that its index names, and that draw has been taken. -/
theorem drawRegions_read_drawIndex {m : Memory} (hm : m.wf = true) {size : Nat} {rs : List Region} (k : Nat) {x : Nat}
    (h : (rs.any fun q => q.has x) = true) (hx : x < size) :
    drawIndex size rs k x < (drawRegions size rs m k).2 ∧
      (drawRegions size rs m k).1.read x = Config.drawByte (drawIndex size rs k x) := by
  induction rs generalizing m k with
  | nil => simp at h
  | cons r rest ih =>
    rw [drawRegions]
    obtain hlater | ⟨hnone, hstart, hend⟩ := any_has_cons h
    · rw [drawIndex_later hlater, drawRange_draws]
      exact ih (drawRange_wf hm ..) _ hlater
    · rw [drawIndex_first hnone, drawRegions_read_other _ _ _ _ _ (.inl hnone),
        drawRange_read hm _ _ _ _ hstart (by omega)]
      refine ⟨lt_of_lt_of_le ?_ (drawRegions_draws ..), rfl⟩
      rw [drawRange_draws]
      omega

/-- No draw serves two bytes. -/
theorem drawIndex_inj {size : Nat} {rs : List Region} {k x y : Nat} (hx : x < size) (hy : y < size)
    (hxs : (rs.any fun q => q.has x) = true) (hys : (rs.any fun q => q.has y) = true)
    (h : drawIndex size rs k x = drawIndex size rs k y) : x = y := by
  induction rs generalizing k with
  | nil => simp at hxs
  | cons r rest ih =>
    -- A byte drawn in the first region takes a draw below all those of the later ones.
    have hlow := le_drawIndex size rest (k + (min (r.start + r.size) size - r.start))
    obtain hxl | ⟨hxn, hxr⟩ := any_has_cons hxs <;> obtain hyl | ⟨hyn, hyr⟩ := any_has_cons hys
    · rw [drawIndex_later hxl, drawIndex_later hyl] at h
      exact ih hxl hyl h
    · rw [drawIndex_later hxl, drawIndex_first hyn] at h
      have hyx := hlow x
      omega
    · rw [drawIndex_first hxn, drawIndex_later hyl] at h
      have hxy := hlow y
      omega
    · rw [drawIndex_first hxn, drawIndex_first hyn] at h
      omega

/-! ### The destination regions of a pending word -/

/-- The codes that name a strategy are the legal ones (R106, R107). -/
theorem checkStrategy_isOk (c : BitVec 5) : (checkStrategy c).isOk = strategyLegal c := by
  revert c
  decide

theorem checkBits_isOk (n : BitVec 4) : (checkBits n).isOk = bitsLegal n := by
  rw [checkBits, bitsLegal]
  cases decide (n.toNat ≤ 8) <;> rfl

theorem bind_isOk {α β : Type} (x : Except ErrCode α) (y : Except ErrCode β) :
    (x >>= fun _ => y).isOk = (x.isOk && y.isOk) := by cases x <;> rfl

/-- A command passes the word checks exactly when each field it uses is legal (R134 step 1). -/
theorem wordCheck_isOk (i : Instr) : (wordCheck i).isOk = i.wellFormed := by
  have hpure : (pure () : Except ErrCode Unit).isOk = true := rfl
  cases i with
  | quant strat nbits gamma =>
    simp only [wordCheck, Instr.wellFormed, bind_isOk, checkBits_isOk, checkStrategy_isOk, hpure, Bool.and_true]
  | pack565 cdmode admode =>
    simp only [wordCheck, Instr.wellFormed, bind_isOk, checkStrategy_isOk, hpure, Bool.and_true]
  | qlookup nbits gamma => exact checkBits_isOk nbits
  | _ => rfl

theorem pendingDestinations_decoded {s : State} {i : Instr} (h : decode s.lcmd = .ok i) :
    pendingDestinations s = if i.wellFormed then destinations s i else [] := by
  rw [pendingDestinations, h, ← wordCheck_isOk]

theorem pendingDestinations_illegal {s : State} {e : DecodeError} (h : decode s.lcmd = .error e) :
    pendingDestinations s = [] := by rw [pendingDestinations, h]

end Sys2Proof.Machine

open Sys2Proof Sys2Proof.Machine

/-- Settles O6, by induction on the number of polls. -/
theorem pendingCommandCompletesUnderPolling : Obligations.PendingCommandCompletesUnderPolling := fun _ _ => run_polling

/-- Settles O12: each drawn byte takes the draw that `drawIndex` names, and a pending word has the destination regions of
its command if it passes the word checks, else none. -/
theorem softResetDiscardsPendingCommand : Obligations.SoftResetDiscardsPendingCommand := by
  refine ⟨fun s w rest hin hw hb hm => ?_, fun s i hd hwf => ?_, fun s i hd hwf => ?_,
    fun s e => pendingDestinations_illegal⟩
  · refine ⟨_, _, drawIndex s.params.memSize (pendingDestinations s) s.draws,
      (step_softReset hin hw).trans (congrArg _ (softReset_busy (s := { s with inputs := rest }) hb)),
      fun a => drawRegions_read_other _ _ _ _ a, fun a ha hdest => ?_,
      fun a b ha hb hda hdb => drawIndex_inj ha hb hda hdb⟩
    exact ⟨le_drawIndex .., drawRegions_read_drawIndex hm _ hdest ha⟩
  · rw [pendingDestinations_decoded hd, if_pos hwf]
  · rw [pendingDestinations_decoded hd, if_neg (Bool.eq_false_iff.mp hwf)]

/-- Settles O18: a power-on reset draws LM as one range from address 0. -/
theorem powerOnResetValues : Obligations.PowerOnResetValues := by
  refine ⟨fun s => ⟨rfl, rfl⟩, fun s rest hin hm => ?_, rfl, rfl, rfl, rfl, rfl, rfl, rfl, rfl⟩
  refine ⟨_, _, _, step_powerOn hin, rfl, rfl, drawRange_draws .., fun a ha => ?_⟩
  exact (drawRange_read hm 0 s.params.memSize s.draws a (Nat.zero_le a) (by omega)).trans (by rw [Nat.sub_zero])

/-- Settles O11: the two branches of a CTRL write, and the CTRL word. -/
theorem ctrlWriteAndIdleSoftReset : Obligations.CtrlWriteAndIdleSoftReset := by
  refine ⟨fun s w rest hin => ⟨fun hw => ?_, fun hw hb => ?_⟩, fun s rest hin => ?_⟩
  · rw [step_writeCtrl hin, writeCtrl_ie _ hw]
  · exact (step_softReset hin hw).trans (congrArg _ (softReset_idle (s := { s with inputs := rest }) hb))
  · rw [step_readReg (k := 1) hin rfl (by decide), regAt_ctrl, readReg, ctrlWord_eq]

end
